-- ==== Sys2Proof/Word.lean ====
section
/-! DEFINITION. Word.lean: the words the block's ports and registers carry (spec 30_encoding.md R60, R64; 20_memory.md R40). -/

namespace Sys2Proof

/-- One byte of a frame. -/
abbrev Byte := BitVec 8

/-- A command word CMD (R60). -/
abbrev CmdWord := BitVec 32

/-- The 64-bit frame operand FRAME (R40). -/
abbrev Frame := BitVec 64

/-- The operand field ARG of a command word (R60). -/
abbrev Arg := BitVec 16

/-- A heading word `H`, meaning `H/160` degrees (44_wind_averager.md R180). -/
abbrev HeadingWord := BitVec 16

/-- The 144-bit response register RSP (R64). -/
abbrev RspWord := BitVec 144

end Sys2Proof
end

