-- ==== Sys2Proof/Config.lean ====
section
/-! DEFINITION. Config.lean: the OPEN parameters of the model (spec 00_scope.md R3, R4) and the free values its draws
take (R8). The fixed parameters of R3 stand in Machine/Params.lean. -/

namespace Sys2Proof

/-- A non-negative rational `num/den`: R4 gives both open parameters this range, and the proof field keeps every
value in it. -/
structure Tolerance where
  num : Nat
  den : Nat
  den_pos : 0 < den
  deriving DecidableEq, Repr

/-- The tolerance 0. -/
def Tolerance.zero : Tolerance := ⟨0, 1, Nat.one_pos⟩

/-- R4: WIND_EPS, in degrees, and WIND_RMIN, a length of the summed unit vectors. -/
structure WindParams where
  eps  : Tolerance
  rmin : Tolerance
  deriving DecidableEq, Repr

/-- R3: both open parameters are 0 by default. -/
def WindParams.default : WindParams := ⟨Tolerance.zero, Tolerance.zero⟩

/-- The free value of the n-th `draw x ∈ X` (R8): which member of X it is, counted modulo the size of X. No body, so
no proof can see what it is (log entry 4). -/
opaque Config.freeDraw : Nat → Nat

end Sys2Proof
end

