-- ==== Sys2Proof/Syntax.lean ====
section
/-! DEFINITION. Syntax.lean: a command as the host offers it, and the 23 commands of CVCMD v1 (spec 30_encoding.md
R60, R62, R63), one constructor per row of opcode_table.json. Operand fields have the widths of R63, so a term of
`Instr` cannot hold an operand outside its range. -/

namespace Sys2Proof

/-- R60: what the command ports carry, the command word and the frame operand. -/
structure Command where
  cmd   : CmdWord
  frame : Frame
  deriving DecidableEq, Repr

/-- R21: the rain-rate formula that CFG.RAIN_SEL selects, 0 = A (the primary), 1 = B (the alternate). -/
inductive RainSel where
  | formulaA
  | formulaB
  deriving DecidableEq, Repr

/-- R62: the commands. A command that uses FRAME carries it; the others ignore FRAME's value (R60). -/
inductive Instr where
  | crcCompute (f : Frame)
  | crcCheck (f : Frame)
  | hdrStationId (f : Frame)
  | hdrBatteryLow (f : Frame)
  | hdrSensorType (f : Frame)
  | decWindSpeed (f : Frame)
  | decWindDir (f : Frame)
  | decWindGust (f : Frame)
  | decRainRateA (f : Frame)
  | decRainRateB (f : Frame)
  | decRainCounter (f : Frame)
  | decTemperature (f : Frame)
  | decHumidity (f : Frame)
  | decSolar (f : Frame)
  | decUv (f : Frame)
  | decCapVoltage (f : Frame)
  | rainObserve (c : BitVec 7)
  | rainStatus
  | windObserve (h : HeadingWord)
  | windStatus
  | frameProcess (f : Frame)
  | cfgWrite (expStation : BitVec 3) (sel : RainSel)
  | cfgRead
  deriving DecidableEq, Repr

end Sys2Proof
end

