-- ==== Sys2Proof/WellFormed.lean ====
section
/-! DEFINITION. WellFormed.lean: which command words are legal, written from the match/mask form of spec
30_encoding.md R62 and opcode_table.json. Decode.lean is written from the procedure of R61 instead, and a statement
says that the two agree. A term of `Instr` is well formed by its type. -/

namespace Sys2Proof

/-- R62: one row of the opcode map as a match/mask pair on CMD. -/
structure TableRow where
  mnemonic : String
  mtch : CmdWord
  mask : CmdWord
  deriving DecidableEq, Repr

/-- R62: the word matches the row. -/
def TableRow.matches (r : TableRow) (w : CmdWord) : Bool := w &&& r.mask == r.mtch

/-- Rows 1 to 12 of opcode_table.json. -/
def opcodeRows1 : List TableRow :=
  [⟨"CRC_COMPUTE", 0x01000000#32, 0xFFFFFFFF#32⟩,
   ⟨"CRC_CHECK", 0x02000000#32, 0xFFFFFFFF#32⟩,
   ⟨"HDR_STATION_ID", 0x10000000#32, 0xFFFFFFFF#32⟩,
   ⟨"HDR_BATTERY_LOW", 0x11000000#32, 0xFFFFFFFF#32⟩,
   ⟨"HDR_SENSOR_TYPE", 0x12000000#32, 0xFFFFFFFF#32⟩,
   ⟨"DEC_WIND_SPEED", 0x20000000#32, 0xFFFFFFFF#32⟩,
   ⟨"DEC_WIND_DIR", 0x21000000#32, 0xFFFFFFFF#32⟩,
   ⟨"DEC_WIND_GUST", 0x22000000#32, 0xFFFFFFFF#32⟩,
   ⟨"DEC_RAIN_RATE_A", 0x23000000#32, 0xFFFFFFFF#32⟩,
   ⟨"DEC_RAIN_RATE_B", 0x24000000#32, 0xFFFFFFFF#32⟩,
   ⟨"DEC_RAIN_COUNTER", 0x25000000#32, 0xFFFFFFFF#32⟩,
   ⟨"DEC_TEMPERATURE", 0x26000000#32, 0xFFFFFFFF#32⟩]

/-- Rows 13 to 23 of opcode_table.json. -/
def opcodeRows2 : List TableRow :=
  [⟨"DEC_HUMIDITY", 0x27000000#32, 0xFFFFFFFF#32⟩,
   ⟨"DEC_SOLAR", 0x28000000#32, 0xFFFFFFFF#32⟩,
   ⟨"DEC_UV", 0x29000000#32, 0xFFFFFFFF#32⟩,
   ⟨"DEC_CAP_VOLTAGE", 0x2A000000#32, 0xFFFFFFFF#32⟩,
   ⟨"RAIN_OBSERVE", 0x30000000#32, 0xFFFFFF80#32⟩,
   ⟨"RAIN_STATUS", 0x31000000#32, 0xFFFFFFFF#32⟩,
   ⟨"WIND_OBSERVE", 0x40000000#32, 0xFFFF0000#32⟩,
   ⟨"WIND_STATUS", 0x41000000#32, 0xFFFFFFFF#32⟩,
   ⟨"FRAME_PROCESS", 0x50000000#32, 0xFFFFFFFF#32⟩,
   ⟨"CFG_WRITE", 0x60000000#32, 0xFFFFFFF0#32⟩,
   ⟨"CFG_READ", 0x61000000#32, 0xFFFFFFFF#32⟩]

/-- R62: the whole opcode map. -/
def opcodeRows : List TableRow := opcodeRows1 ++ opcodeRows2

/-- R62, R70: a command is well formed when its word matches a row. An unknown OPC, RSV ≠ 0 and an ARG bit outside
the row's ARG mask each match no row, since every mask covers OPC, RSV and the ARG bits outside ARGMASK. -/
def Command.wellFormed (c : Command) : Bool := opcodeRows.any (·.matches c.cmd)

end Sys2Proof
end

