-- ==== Sys2Proof/Decode.lean ====
section
/-! DEFINITION. Decode.lean: the decoder of spec 30_encoding.md R61, total on every command, which rejects by name,
and after it the encoder of R60, R62 and R63. -/

namespace Sys2Proof

/-- R61, R70: why a command word is illegal. All three are answered with ILLEGAL_COMMAND (60_exceptions.md R231). -/
inductive DecodeError where
  /-- OPC is not in the table of R62. -/
  | unknownOpcode
  /-- RSV = CMD[23:16] is not 0. -/
  | reservedNotZero
  /-- A bit of ARG outside ARGMASK is set. -/
  | argOutsideMask
  deriving DecidableEq, Repr

/-- R60: OPC = CMD[31:24]. -/
def opcField (w : CmdWord) : BitVec 8 := w.extractLsb' 24 8

/-- R60: RSV = CMD[23:16]. -/
def rsvField (w : CmdWord) : BitVec 8 := w.extractLsb' 16 8

/-- R60: ARG = CMD[15:0]. -/
def argField (w : CmdWord) : Arg := w.extractLsb' 0 16

/-- R62: the "ARG mask" column; none for an OPC that is not in the table. -/
def argMask (opc : BitVec 8) : Option Arg :=
  match opc.toNat with
  | 0x01 => some 0x0000#16
  | 0x02 => some 0x0000#16
  | 0x10 => some 0x0000#16
  | 0x11 => some 0x0000#16
  | 0x12 => some 0x0000#16
  | 0x20 => some 0x0000#16
  | 0x21 => some 0x0000#16
  | 0x22 => some 0x0000#16
  | 0x23 => some 0x0000#16
  | 0x24 => some 0x0000#16
  | 0x25 => some 0x0000#16
  | 0x26 => some 0x0000#16
  | 0x27 => some 0x0000#16
  | 0x28 => some 0x0000#16
  | 0x29 => some 0x0000#16
  | 0x2A => some 0x0000#16
  | 0x30 => some 0x007F#16
  | 0x31 => some 0x0000#16
  | 0x40 => some 0xFFFF#16
  | 0x41 => some 0x0000#16
  | 0x50 => some 0x0000#16
  | 0x60 => some 0x000F#16
  | 0x61 => some 0x0000#16
  | _ => none

/-- R21: RAIN_SEL as a bit, 0 = formula A, 1 = formula B. -/
def rainSelOfBit (b : Bool) : RainSel := if b then .formulaB else .formulaA

/-- R21: the bit of a RAIN_SEL value. -/
def rainSelBit : RainSel → BitVec 1
  | .formulaA => 0#1
  | .formulaB => 1#1

/-- R62, R63: the command of an opcode, with the operands of R63 taken from ARG and FRAME. -/
def instrOf (opc : BitVec 8) (arg : Arg) (f : Frame) : Option Instr :=
  match opc.toNat with
  | 0x01 => some (.crcCompute f)
  | 0x02 => some (.crcCheck f)
  | 0x10 => some (.hdrStationId f)
  | 0x11 => some (.hdrBatteryLow f)
  | 0x12 => some (.hdrSensorType f)
  | 0x20 => some (.decWindSpeed f)
  | 0x21 => some (.decWindDir f)
  | 0x22 => some (.decWindGust f)
  | 0x23 => some (.decRainRateA f)
  | 0x24 => some (.decRainRateB f)
  | 0x25 => some (.decRainCounter f)
  | 0x26 => some (.decTemperature f)
  | 0x27 => some (.decHumidity f)
  | 0x28 => some (.decSolar f)
  | 0x29 => some (.decUv f)
  | 0x2A => some (.decCapVoltage f)
  | 0x30 => some (.rainObserve (arg.extractLsb' 0 7))
  | 0x31 => some .rainStatus
  | 0x40 => some (.windObserve arg)
  | 0x41 => some .windStatus
  | 0x50 => some (.frameProcess f)
  | 0x60 => some (.cfgWrite (arg.extractLsb' 0 3) (rainSelOfBit (arg.getLsbD 3)))
  | 0x61 => some .cfgRead
  | _ => none

/-- R61: the decoder, its checks in the order of the rule. -/
def decode (c : Command) : Except DecodeError Instr :=
  match argMask (opcField c.cmd) with
  | none => .error .unknownOpcode
  | some mask =>
    if rsvField c.cmd ≠ 0#8 then .error .reservedNotZero
    else if argField c.cmd &&& ~~~mask ≠ 0#16 then .error .argOutsideMask
    else match instrOf (opcField c.cmd) (argField c.cmd) c.frame with
      | some i => .ok i
      | none => .error .unknownOpcode

/-- The command of an instruction whose bits are `w`, numbered as opcode_table.json numbers them: bits 31..0 are CMD,
the bits of FRAME count on from bit 32 (log entry 10), and every bit at `nbits` or above is 0. -/
def tableCommand (nbits w : Nat) : Command :=
  let v := w % 2 ^ nbits
  ⟨BitVec.ofNat 32 v, BitVec.ofNat 64 (v >>> 32)⟩

/-- The instruction the decoder reads from an instruction whose bits are `w`; none where it refuses. -/
def decodeTableWord (nbits w : Nat) : Option Instr :=
  match decode (tableCommand nbits w) with
  | .ok i => some i
  | .error _ => none

/-- R72: CMD = {OPC, 0x00, ARG}. -/
def cmdWord (opc : BitVec 8) (arg : Arg) : CmdWord := opc ++ 0x00#8 ++ arg

/-- R62, R63, R72: the command word and the frame of an instruction. A command that ignores FRAME is given a frame of
zeros, as the assembler of R72 does. -/
def encode : Instr → Command
  | .crcCompute f => ⟨cmdWord 0x01#8 0#16, f⟩
  | .crcCheck f => ⟨cmdWord 0x02#8 0#16, f⟩
  | .hdrStationId f => ⟨cmdWord 0x10#8 0#16, f⟩
  | .hdrBatteryLow f => ⟨cmdWord 0x11#8 0#16, f⟩
  | .hdrSensorType f => ⟨cmdWord 0x12#8 0#16, f⟩
  | .decWindSpeed f => ⟨cmdWord 0x20#8 0#16, f⟩
  | .decWindDir f => ⟨cmdWord 0x21#8 0#16, f⟩
  | .decWindGust f => ⟨cmdWord 0x22#8 0#16, f⟩
  | .decRainRateA f => ⟨cmdWord 0x23#8 0#16, f⟩
  | .decRainRateB f => ⟨cmdWord 0x24#8 0#16, f⟩
  | .decRainCounter f => ⟨cmdWord 0x25#8 0#16, f⟩
  | .decTemperature f => ⟨cmdWord 0x26#8 0#16, f⟩
  | .decHumidity f => ⟨cmdWord 0x27#8 0#16, f⟩
  | .decSolar f => ⟨cmdWord 0x28#8 0#16, f⟩
  | .decUv f => ⟨cmdWord 0x29#8 0#16, f⟩
  | .decCapVoltage f => ⟨cmdWord 0x2A#8 0#16, f⟩
  | .rainObserve c => ⟨cmdWord 0x30#8 (0#9 ++ c), 0#64⟩
  | .rainStatus => ⟨cmdWord 0x31#8 0#16, 0#64⟩
  | .windObserve h => ⟨cmdWord 0x40#8 h, 0#64⟩
  | .windStatus => ⟨cmdWord 0x41#8 0#16, 0#64⟩
  | .frameProcess f => ⟨cmdWord 0x50#8 0#16, f⟩
  | .cfgWrite e sel => ⟨cmdWord 0x60#8 (0#12 ++ rainSelBit sel ++ e), 0#64⟩
  | .cfgRead => ⟨cmdWord 0x61#8 0#16, 0#64⟩

/-- R62: the "uses FRAME" column. -/
def Instr.usesFrame : Instr → Bool
  | .crcCompute _ => true
  | .crcCheck _ => true
  | .hdrStationId _ => true
  | .hdrBatteryLow _ => true
  | .hdrSensorType _ => true
  | .decWindSpeed _ => true
  | .decWindDir _ => true
  | .decWindGust _ => true
  | .decRainRateA _ => true
  | .decRainRateB _ => true
  | .decRainCounter _ => true
  | .decTemperature _ => true
  | .decHumidity _ => true
  | .decSolar _ => true
  | .decUv _ => true
  | .decCapVoltage _ => true
  | .rainObserve _ => false
  | .rainStatus => false
  | .windObserve _ => false
  | .windStatus => false
  | .frameProcess _ => true
  | .cfgWrite _ _ => false
  | .cfgRead => false

end Sys2Proof
end

