-- ==== Sys2Proof/Machine/State.lean ====
section
/-! DEFINITION. Machine/State.lean: the state of the block (spec 10_state.md R20 to R32), the samples of its input
ports (30_encoding.md R74), the reasons a step can stop, and the state after reset (70_reset_and_hazards.md R260). -/

namespace Sys2Proof.Machine

/-- R24: the rain accumulator. -/
structure RainState where
  /-- Some observation has stored a baseline. -/
  primed   : Bool
  /-- The previous raw tip-counter value; meaningful only when primed. -/
  baseline : BitVec 7
  deriving DecidableEq, Repr

/-- R74: the levels of the input ports in one step. -/
structure PortSample where
  rst      : Bool
  cmdValid : Bool
  command  : Command
  rspReady : Bool
  deriving DecidableEq, Repr

/-- Every input port low: the host does nothing. -/
def PortSample.idle : PortSample := ⟨false, false, ⟨0#32, 0#64⟩, false⟩

/-- R20 to R30: the state of one instance of the block. The last three fields are the model's own: the input samples
still to come (log entry 2), the open parameters (log entry 5) and the counter of draws (log entry 4). -/
structure State where
  /-- CFG (R21). -/
  cfg       : BitVec 16
  /-- RAIN (R24). -/
  rain      : RainState
  /-- WIN: the logical window W, oldest first (R26). -/
  win       : List HeadingWord
  /-- RSP (R29), laid out as R64. -/
  rsp       : RspWord
  /-- RSP_VALID (R29). -/
  rspValid  : Bool
  /-- The command accepted and not yet committed, as sampled at acceptance (R74, R261). -/
  executing : Option Command
  /-- The input samples still to come, one a step; none listed means every port is low. -/
  inputs    : List PortSample
  /-- WIND_EPS and WIND_RMIN (R4). -/
  params    : WindParams
  /-- How many draws (R8) have been taken. -/
  draws     : Nat
  deriving DecidableEq, Repr

/-- Why the machine would stop with a fault. There is no constructor: no failure of the block is fatal (60_exceptions.md
R230, R234, R235), each is a status in a response. -/
inductive Fault
  deriving DecidableEq, Repr

/-- Why a step has no meaning. -/
inductive Refusal where
  /-- An instruction without a meaning, rejected by its table mnemonic in exec; safe. No arm of this model raises it. -/
  | notModelled (mnemonic : String)
  deriving DecidableEq, Repr

/-- R32, R260: the state after reset. RSP is unspecified there; 0 is the model's choice (log entry 1). -/
def State.reset : State where
  cfg       := 0#16
  rain      := ⟨false, 0#7⟩
  win       := []
  rsp       := 0#144
  rspValid  := false
  executing := none
  inputs    := []
  params    := WindParams.default
  draws     := 0

end Sys2Proof.Machine
end

