-- ==== Sys2Proof/Machine/Params.lean ====
section
/-! DEFINITION. Machine/Params.lean: the fixed parameters of spec 00_scope.md R3 that the rules use by value. -/

namespace Sys2Proof.Machine

/-- CRC_POLY. -/
abbrev crcPoly : BitVec 16 := 0x1021#16

/-- CRC_INIT. -/
abbrev crcInit : BitVec 16 := 0x0000#16

/-- WIND_SPEED_MAX, in mph. -/
abbrev windSpeedMax : Nat := 240

/-- WIND_GUST_MAX, in mph. -/
abbrev windGustMax : Nat := 240

/-- RAIN_RATE_MAX, in seconds. -/
abbrev rainRateMax : Nat := 3600

/-- RAIN_A_GUARD, in seconds; strict: rate A is valid only above it. -/
abbrev rainAGuard : Nat := 10

/-- The modulus of the rain counter, 2^RAIN_COUNTER_BITS. -/
abbrev rainModulus : Nat := 128

/-- RAIN_TIP, in inches per tip: the literal 0.01 as an exact rational (R6). -/
abbrev rainTip : ℚ := 1 / 100

/-- WIND_WINDOW, in samples. -/
abbrev windWindow : Nat := 30

/-- HEADING_Q: heading units per degree. -/
abbrev headingQ : Nat := 160

/-- Heading units in a full turn, 360 · HEADING_Q. -/
abbrev headingTurn : Nat := 57600

end Sys2Proof.Machine
end

