-- ==== Sys2Proof/Machine/Response.lean ====
section
/-! DEFINITION. Machine/Response.lean: the response record of spec 30_encoding.md R64 to R69 and its packing into the
144 bits of RSP. -/

namespace Sys2Proof.Machine

/-- R65: the status codes. -/
inductive Status where
  | ok
  | wrongFrameType
  | outOfRange
  | invalidChecksum
  | foreignStation
  | unrecognizedSensorType
  | insufficientData
  | illegalCommand
  deriving DecidableEq, Repr

/-- R65: the number of a status. -/
def statusCode : Status → BitVec 4
  | .ok => 0#4
  | .wrongFrameType => 1#4
  | .outOfRange => 2#4
  | .invalidChecksum => 3#4
  | .foreignStation => 4#4
  | .unrecognizedSensorType => 5#4
  | .insufficientData => 6#4
  | .illegalCommand => 7#4

/-- R68: the terminal outcomes of FRAME_PROCESS. -/
inductive FrameOutcome where
  | none
  | updated
  | rejected
  | unrecognized
  deriving DecidableEq, Repr

/-- R68: the number of an outcome. -/
def outcomeCode : FrameOutcome → BitVec 2
  | .none => 0#2
  | .updated => 1#2
  | .rejected => 2#2
  | .unrecognized => 3#2

/-- R64: the fields of a response. A field that is not named is 0 (R66). -/
structure Response where
  status     : BitVec 4  := 0
  flags      : BitVec 8  := 0
  value      : BitVec 32 := 0
  aux        : BitVec 32 := 0
  outcome    : BitVec 2  := 0
  reached    : BitVec 5  := 0
  hdrStation : BitVec 4  := 0
  hdrBattery : BitVec 1  := 0
  hdrType    : BitVec 4  := 0
  windSpeed  : BitVec 8  := 0
  windDirQ   : BitVec 16 := 0
  avgStatus  : BitVec 4  := 0
  avgDeg     : BitVec 9  := 0
  rainTips   : BitVec 7  := 0
  rainFirst  : BitVec 1  := 0
  deriving DecidableEq, Repr

/-- R64: the 144-bit word of a response, its reserved bits [143:137] 0. -/
def packResponse (r : Response) : RspWord :=
  0#7 ++ r.rainFirst ++ r.rainTips ++ r.avgDeg ++ r.avgStatus ++ r.windDirQ ++ r.windSpeed ++ r.hdrType ++
    r.hdrBattery ++ r.hdrStation ++ r.reached ++ r.outcome ++ r.aux ++ r.value ++ r.flags ++ r.status

/-- R64: the fields of a 144-bit word, each read at the bits the rule gives it. -/
def unpackResponse (w : RspWord) : Response where
  status     := w.extractLsb' 0 4
  flags      := w.extractLsb' 4 8
  value      := w.extractLsb' 12 32
  aux        := w.extractLsb' 44 32
  outcome    := w.extractLsb' 76 2
  reached    := w.extractLsb' 78 5
  hdrStation := w.extractLsb' 83 4
  hdrBattery := w.extractLsb' 87 1
  hdrType    := w.extractLsb' 88 4
  windSpeed  := w.extractLsb' 92 8
  windDirQ   := w.extractLsb' 100 16
  avgStatus  := w.extractLsb' 116 4
  avgDeg     := w.extractLsb' 120 9
  rainTips   := w.extractLsb' 129 7
  rainFirst  := w.extractLsb' 136 1

end Sys2Proof.Machine
end

