-- ==== Sys2Proof/Machine/Operands.lean ====
section
/-! DEFINITION. Machine/Operands.lean: every operand a command reads: the frame bytes and the fields cut out of them
(spec 20_memory.md R40, R41; 41_header.md R100 to R102), and the fields of CFG (10_state.md R21). -/

namespace Sys2Proof.Machine

/-- R40: `B(k) = FRAME[63-8k:56-8k]`. -/
def frameByte (f : Frame) (k : Fin 8) : Byte := f.extractLsb' (56 - 8 * k.val) 8

/-- R8: `B(k)` as an integer 0..255. -/
def byteNat (f : Frame) (k : Fin 8) : Nat := (frameByte f k).toNat

/-- R72: the frame whose bytes are written b0 first. -/
def frameOfBytes (b0 b1 b2 b3 b4 b5 b6 b7 : Byte) : Frame := b0 ++ b1 ++ b2 ++ b3 ++ b4 ++ b5 ++ b6 ++ b7

/-- R41, R83: the received checksum `B(6)*256 + B(7)`. -/
def receivedCrc (f : Frame) : BitVec 16 := frameByte f 6 ++ frameByte f 7

/-- R41: the payload word `P = B(3)*256 + B(4)`. -/
def payloadWord (f : Frame) : Nat := byteNat f 3 * 256 + byteNat f 4

/-- R100: the wire station ID `B(0)[2:0]`. -/
def wireStation (f : Frame) : BitVec 3 := (frameByte f 0).extractLsb' 0 3

/-- R100: the external station ID, the wire ID plus 1, as the 4-bit field HDR_STATION of R64. -/
def externalStation (f : Frame) : BitVec 4 := (wireStation f).zeroExtend 4 + 1#4

/-- R101: the battery-low bit `B(0)[3]`. -/
def batteryLow (f : Frame) : BitVec 1 := (frameByte f 0).extractLsb' 3 1

/-- R102: the sensor nibble `B(0)[7:4]`. -/
def sensorNibble (f : Frame) : BitVec 4 := (frameByte f 0).extractLsb' 4 4

/-- R102: the sensor types. -/
inductive SensorType where
  | capVoltage
  | uvIndex
  | rainSeconds
  | solarRadiation
  | outsideTemp
  | windGust
  | humidity
  | rainCount
  deriving DecidableEq, Repr

/-- R102: the nibble of a sensor type. -/
def nibbleOf : SensorType → BitVec 4
  | .capVoltage => 0x2#4
  | .uvIndex => 0x4#4
  | .rainSeconds => 0x5#4
  | .solarRadiation => 0x6#4
  | .outsideTemp => 0x8#4
  | .windGust => 0x9#4
  | .humidity => 0xA#4
  | .rainCount => 0xE#4

/-- R102: the sensor type of a nibble; none for the eight unrecognized nibbles. -/
def sensorTypeOf (n : BitVec 4) : Option SensorType :=
  match n.toNat with
  | 0x2 => some .capVoltage
  | 0x4 => some .uvIndex
  | 0x5 => some .rainSeconds
  | 0x6 => some .solarRadiation
  | 0x8 => some .outsideTemp
  | 0x9 => some .windGust
  | 0xA => some .humidity
  | 0xE => some .rainCount
  | _ => none

/-- R124: the heading word of a wire direction code `c = B(2)`: 0 for code 0, else `225*c + 48`. -/
def headingWord (c : Byte) : HeadingWord :=
  if c = 0#8 then 0#16 else BitVec.ofNat 16 (225 * c.toNat + 48)

/-- R21: CFG.EXP_STATION. -/
def cfgExpStation (cfg : BitVec 16) : BitVec 3 := cfg.extractLsb' 0 3

/-- R21: CFG.RAIN_SEL. -/
def cfgRainSel (cfg : BitVec 16) : RainSel := rainSelOfBit (cfg.getLsbD 3)

/-- R210: `zext_16(ARG[3:0])`, from the two fields of ARG. -/
def cfgOfFields (expStation : BitVec 3) (sel : RainSel) : BitVec 16 := 0#12 ++ rainSelBit sel ++ expStation

end Sys2Proof.Machine
end

