-- ==== Sys2Proof/Machine/Flags.lean ====
section
/-! DEFINITION. Machine/Flags.lean: the bits of the FLAGS and REACHED fields of a response (spec 30_encoding.md R67,
R69). The block has no persistent flags (10_state.md R23). -/

namespace Sys2Proof.Machine

/-- R67 bit 0: the solar or UV sensor is offline. -/
def flagOffline : BitVec 8 := 0x01#8

/-- R67 bit 1: the heavy-rain branch. -/
def flagHeavy : BitVec 8 := 0x02#8

/-- R67 bit 2: wind direction code 0, "no data". -/
def flagNoSignal : BitVec 8 := 0x04#8

/-- R67 bit 3: the observation established the rain baseline. -/
def flagFirst : BitVec 8 := 0x08#8

/-- R67 bit 4: rain-rate formula B was used. -/
def flagFormulaB : BitVec 8 := 0x10#8

/-- R67 bit 5: RAIN.primed after the command. -/
def flagPrimed : BitVec 8 := 0x20#8

/-- R67 bit 6: the wind window holds 30 samples after the command. -/
def flagFull : BitVec 8 := 0x40#8

/-- A flag that is set when a condition holds. -/
def flagIf (b : Bool) (flag : BitVec 8) : BitVec 8 := if b then flag else 0#8

/-- R69 bit 0: the checksum passed and the header was parsed. -/
def reachedHdr : BitVec 5 := 0x01#5

/-- R69 bit 1: wind speed and direction were decoded and applied. -/
def reachedWind : BitVec 5 := 0x02#5

/-- R69 bit 2: the heading was fed to WIN. -/
def reachedAvg : BitVec 5 := 0x04#5

/-- R69 bit 3: a field decoder was dispatched. -/
def reachedPayload : BitVec 5 := 0x08#5

/-- R69 bit 4: RAIN was observed. -/
def reachedRain : BitVec 5 := 0x10#5

end Sys2Proof.Machine
end

