-- ==== Sys2Proof/Machine/Ops.lean ====
section
/-! DEFINITION. Machine/Ops.lean: the operations every command ends with: `respond` and `raise` (spec 00_scope.md R8),
the commit they share (10_state.md R29, R31), and what raising a failure keeps (60_exceptions.md R233). The block has
no trap entry and no trap return (R235, R236): `raise` is its whole failure mechanism. -/

namespace Sys2Proof.Machine

/-- R29, R31: the response becomes visible together with the state writes already in `s`. -/
def commitResponse (r : Response) (s : State) : State :=
  { s with rsp := packResponse r, rspValid := true }

/-- R8: `respond(...)` ends the command and produces its response. `s` holds the command's state writes. -/
def respond (r : Response) (s : State) : Host.Outcome State Fault Refusal :=
  .next (commitResponse r s)

/-- R8, R233: `raise S(...)` ends the command with status `st` and the named fields `r`. `kept` is the state with the
writes the rule names as kept and no other. The block goes on: the next command decodes normally (R231, R234). -/
def raise (st : Status) (r : Response) (kept : State) : Host.Outcome State Fault Refusal :=
  respond { r with status := statusCode st } kept

/-- R231: ILLEGAL_COMMAND: status 7, every other field 0, no state written. -/
def raiseIllegal (s : State) : Host.Outcome State Fault Refusal :=
  raise .illegalCommand {} s

end Sys2Proof.Machine
end

