-- ==== Sys2Proof/Machine/Checksum.lean ====
section
/-! DEFINITION. Machine/Checksum.lean: the checksum validator CV (spec 40_checksum.md R80 to R85). -/

namespace Sys2Proof.Machine

/-- R80: one of the 8 rounds of a byte step; the 16-bit width is the mask. -/
def crcRound (c : BitVec 16) : BitVec 16 :=
  if c.getLsbD 15 then (c <<< 1) ^^^ crcPoly else c <<< 1

/-- R80: n rounds. -/
def crcRounds : Nat → BitVec 16 → BitVec 16
  | 0, c => c
  | n + 1, c => crcRounds n (crcRound c)

/-- R80: the byte step: XOR the byte into the high half, then 8 rounds. -/
def crcStep (c : BitVec 16) (b : Byte) : BitVec 16 :=
  crcRounds 8 (c ^^^ (b ++ 0#8))

/-- R81: the byte step folded over the listed bytes. -/
def crcFold (c : BitVec 16) (bs : List Byte) : BitVec 16 := bs.foldl crcStep c

/-- R81: CRC_SPAN, bytes 0 to 5 in order. -/
def crcSpan (f : Frame) : List Byte :=
  [frameByte f 0, frameByte f 1, frameByte f 2, frameByte f 3, frameByte f 4, frameByte f 5]

/-- R81: CRC(frame). -/
def frameCrc (f : Frame) : BitVec 16 := crcFold crcInit (crcSpan f)

/-- R83: the frame is valid when CRC = RCV and RCV ≠ 0. -/
def frameValid (f : Frame) : Bool := frameCrc f == receivedCrc f && receivedCrc f != 0#16

/-- R85, R200: `{r[15:0], c[15:0]}`. -/
def crcPair (f : Frame) : BitVec 32 := receivedCrc f ++ frameCrc f

/-- R84: CRC_COMPUTE. -/
def execCrcCompute (f : Frame) (s : State) : Host.Outcome State Fault Refusal :=
  respond { value := (frameCrc f).zeroExtend 32, aux := (receivedCrc f).zeroExtend 32 } s

/-- R85: CRC_CHECK. -/
def execCrcCheck (f : Frame) (s : State) : Host.Outcome State Fault Refusal :=
  if frameValid f then respond { value := 1#32, aux := crcPair f } s
  else raise .invalidChecksum { aux := crcPair f } s

end Sys2Proof.Machine
end

