-- ==== Sys2Proof/Machine/FieldDecoders.lean ====
section
/-! DEFINITION. Machine/FieldDecoders.lean: the eleven field decoders (spec 42_field_decoders.md): the template of R120
over the extraction, scale and range table of R121. The raw form of the ranges (R122) is a statement, not the
definition. -/

namespace Sys2Proof.Machine

/-- R121: the rows of the scale and sign table. -/
inductive Field where
  | windSpeed
  | windDir
  | windGust
  | rainRateA
  | rainRateB
  | rainCounter
  | temperature
  | humidity
  | solar
  | uv
  | capVoltage
  deriving DecidableEq, Repr

/-- R121, column "type": the sensor type a decoder handles; none for the two present in every frame. -/
def fieldType : Field → Option SensorType
  | .windSpeed => none
  | .windDir => none
  | .windGust => some .windGust
  | .rainRateA => some .rainSeconds
  | .rainRateB => some .rainSeconds
  | .rainCounter => some .rainCount
  | .temperature => some .outsideTemp
  | .humidity => some .humidity
  | .solar => some .solarRadiation
  | .uv => some .uvIndex
  | .capVoltage => some .capVoltage

/-- R127, R129: the heavy-rain bit `h = B(4)[6]`. -/
def heavyRain (f : Frame) : Bool := (frameByte f 4).getLsbD 6

/-- R134, R135: `B(3) == 0xFF`. -/
def sensorOffline (f : Frame) : Bool := frameByte f 3 == 0xFF#8

/-- R127: the raw seconds of formula A. -/
def rainARaw (f : Frame) : Int :=
  if heavyRain f then (byteNat f 3 : Int) + (((byteNat f 4 >>> 4 : Nat) : Int) - 4) * 256
  else ((byteNat f 3 >>> 4 : Nat) : Int) + (byteNat f 4 : Int) - 1

/-- R129: the raw value of formula B, `B(4)[5:4] * 250 + B(3)`. -/
def rainBRaw (f : Frame) : Int :=
  (((frameByte f 4).extractLsb' 4 2).toNat * 250 + byteNat f 3 : Nat)

/-- R121, column "raw = extract_X". -/
def fieldRaw (x : Field) (f : Frame) : Int :=
  match x with
  | .windSpeed => byteNat f 1
  | .windDir => byteNat f 2
  | .windGust => byteNat f 3
  | .rainRateA => rainARaw f
  | .rainRateB => rainBRaw f
  | .rainCounter => (byteNat f 3 &&& 0x7F : Nat)
  | .temperature => (payloadWord f >>> 4 : Nat)
  | .humidity => ((byteNat f 4 >>> 4) * 256 + byteNat f 3 : Nat)
  | .solar => if sensorOffline f then 0 else (payloadWord f >>> 4 : Nat)
  | .uv => if sensorOffline f then 0 else (payloadWord f >>> 4 : Nat)
  | .capVoltage => (byteNat f 3 * 4 + byteNat f 4 >>> 6 : Nat)

/-- R67, R121: the flags a decoder's extraction sets. -/
def fieldFlags (x : Field) (f : Frame) : BitVec 8 :=
  match x with
  | .windSpeed => 0#8
  | .windDir => flagIf (frameByte f 2 == 0#8) flagNoSignal
  | .windGust => 0#8
  | .rainRateA => flagIf (heavyRain f) flagHeavy
  | .rainRateB => flagFormulaB ||| flagIf (heavyRain f) flagHeavy
  | .rainCounter => 0#8
  | .temperature => 0#8
  | .humidity => 0#8
  | .solar => flagIf (sensorOffline f) flagOffline
  | .uv => flagIf (sensorOffline f) flagOffline
  | .capVoltage => 0#8

/-- R67: a flag is set in FLAGS. -/
def hasFlag (flags flag : BitVec 8) : Bool := flags &&& flag != 0#8

/-- R121, column "phys_X(raw, flags)": the exact physical value. -/
def fieldPhys (x : Field) (raw : Int) (flags : BitVec 8) : ℚ :=
  match x with
  | .windSpeed => raw
  | .windDir => if raw = 0 then 0 else raw * 45 / 32 + 3 / 10
  | .windGust => raw
  | .rainRateA => raw
  | .rainRateB => if hasFlag flags flagHeavy then raw / 16 else raw
  | .rainCounter => raw
  | .temperature => raw / 10
  | .humidity => raw / 10
  | .solar => if hasFlag flags flagOffline then 0 else (raw - 4) * 100 / 227 - 311 / 1250
  | .uv => if hasFlag flags flagOffline then 0 else (raw - 4) / 200
  | .capVoltage => raw / 100

/-- R121, column "valid range of phys"; the bounds are inclusive. -/
def fieldRange : Field → ℚ × ℚ
  | .windSpeed => (0, windSpeedMax)
  | .windDir => (0, 360)
  | .windGust => (0, windGustMax)
  | .rainRateA => (0, rainRateMax)
  | .rainRateB => (0, rainRateMax)
  | .rainCounter => (0, 127)
  | .temperature => (-100, 130)
  | .humidity => (0, 100)
  | .solar => (0, 2000)
  | .uv => (0, 16)
  | .capVoltage => (0, 10)

/-- R121, R128: the guard of formula A, `raw > 10`; no other field has one. -/
def fieldGuard (x : Field) (raw : Int) : Bool :=
  match x with
  | .windSpeed => true
  | .windDir => true
  | .windGust => true
  | .rainRateA => decide ((rainAGuard : Int) < raw)
  | .rainRateB => true
  | .rainCounter => true
  | .temperature => true
  | .humidity => true
  | .solar => true
  | .uv => true
  | .capVoltage => true

/-- R121: `valid_X(v, raw)`. -/
def fieldValid (x : Field) (v : ℚ) (raw : Int) : Bool :=
  decide ((fieldRange x).1 ≤ v) && decide (v ≤ (fieldRange x).2) && fieldGuard x raw

/-- R120: `aux_X`: only DEC_WIND_DIR has one, the heading word (R125). -/
def fieldAux (x : Field) (f : Frame) : BitVec 32 :=
  match x with
  | .windSpeed => 0#32
  | .windDir => (headingWord (frameByte f 2)).zeroExtend 32
  | .windGust => 0#32
  | .rainRateA => 0#32
  | .rainRateB => 0#32
  | .rainCounter => 0#32
  | .temperature => 0#32
  | .humidity => 0#32
  | .solar => 0#32
  | .uv => 0#32
  | .capVoltage => 0#32

/-- R120: the frame's nibble is the decoder's type, or the decoder has no type. -/
def fieldTypeMatches (x : Field) (f : Frame) : Bool :=
  match fieldType x with
  | none => true
  | some t => sensorNibble f == nibbleOf t

/-- R120: a decoder's status. -/
def fieldStatus (x : Field) (f : Frame) : Status :=
  if !fieldTypeMatches x f then .wrongFrameType
  else if fieldValid x (fieldPhys x (fieldRaw x f) (fieldFlags x f)) (fieldRaw x f) then .ok
  else .outOfRange

/-- R120: the fields a decoder's response names beside its status. -/
def fieldResult (x : Field) (f : Frame) : Response :=
  match fieldStatus x f with
  | .wrongFrameType => { aux := (sensorNibble f).zeroExtend 32 }
  | .ok => { value := BitVec.ofInt 32 (fieldRaw x f), flags := fieldFlags x f, aux := fieldAux x f }
  | _ => { value := BitVec.ofInt 32 (fieldRaw x f), flags := fieldFlags x f }

/-- R120: the decoder command of a field. -/
def execField (x : Field) (f : Frame) (s : State) : Host.Outcome State Fault Refusal :=
  match fieldStatus x f with
  | .ok => respond (fieldResult x f) s
  | st => raise st (fieldResult x f) s

/-- R123: DEC_WIND_SPEED. -/
def execDecWindSpeed (f : Frame) (s : State) : Host.Outcome State Fault Refusal := execField .windSpeed f s

/-- R125: DEC_WIND_DIR. -/
def execDecWindDir (f : Frame) (s : State) : Host.Outcome State Fault Refusal := execField .windDir f s

/-- R126: DEC_WIND_GUST. -/
def execDecWindGust (f : Frame) (s : State) : Host.Outcome State Fault Refusal := execField .windGust f s

/-- R128: DEC_RAIN_RATE_A. -/
def execDecRainRateA (f : Frame) (s : State) : Host.Outcome State Fault Refusal := execField .rainRateA f s

/-- R130: DEC_RAIN_RATE_B. -/
def execDecRainRateB (f : Frame) (s : State) : Host.Outcome State Fault Refusal := execField .rainRateB f s

/-- R131: DEC_RAIN_COUNTER. -/
def execDecRainCounter (f : Frame) (s : State) : Host.Outcome State Fault Refusal := execField .rainCounter f s

/-- R132: DEC_TEMPERATURE. -/
def execDecTemperature (f : Frame) (s : State) : Host.Outcome State Fault Refusal := execField .temperature f s

/-- R133: DEC_HUMIDITY. -/
def execDecHumidity (f : Frame) (s : State) : Host.Outcome State Fault Refusal := execField .humidity f s

/-- R134: DEC_SOLAR. -/
def execDecSolar (f : Frame) (s : State) : Host.Outcome State Fault Refusal := execField .solar f s

/-- R135: DEC_UV. -/
def execDecUv (f : Frame) (s : State) : Host.Outcome State Fault Refusal := execField .uv f s

/-- R136: DEC_CAP_VOLTAGE. -/
def execDecCapVoltage (f : Frame) (s : State) : Host.Outcome State Fault Refusal := execField .capVoltage f s

end Sys2Proof.Machine
end

