-- ==== Sys2Proof/Machine/Header.lean ====
section
/-! DEFINITION. Machine/Header.lean: the header commands (spec 41_header.md R103 to R105). -/

namespace Sys2Proof.Machine

/-- R103: HDR_STATION_ID. -/
def execHdrStationId (f : Frame) (s : State) : Host.Outcome State Fault Refusal :=
  respond { value := (externalStation f).zeroExtend 32 } s

/-- R104: HDR_BATTERY_LOW. -/
def execHdrBatteryLow (f : Frame) (s : State) : Host.Outcome State Fault Refusal :=
  respond { value := (batteryLow f).zeroExtend 32 } s

/-- R105: HDR_SENSOR_TYPE. -/
def execHdrSensorType (f : Frame) (s : State) : Host.Outcome State Fault Refusal :=
  match sensorTypeOf (sensorNibble f) with
  | some _ => respond { value := (sensorNibble f).zeroExtend 32 } s
  | none => raise .unrecognizedSensorType { value := (sensorNibble f).zeroExtend 32 } s

end Sys2Proof.Machine
end

