-- ==== Sys2Proof/Machine/Rain.lean ====
section
/-! DEFINITION. Machine/Rain.lean: the rain accumulator RAF (spec 43_rain_accumulator.md R160 to R164). -/

namespace Sys2Proof.Machine

/-- R160: `rain_observe(C)`: the new RAIN, the tips and whether this was the first observation. -/
def rainObserve (c : BitVec 7) (r : RainState) : RainState × BitVec 7 × Bool :=
  if !r.primed then (⟨true, c⟩, 0#7, true)
  else if c = r.baseline then (r, 0#7, false)
  else
    let tips : Nat :=
      if r.baseline.toNat ≤ c.toNat then c.toNat - r.baseline.toNat
      else (rainModulus - r.baseline.toNat) + c.toNat
    (⟨r.primed, c⟩, BitVec.ofNat 7 tips, false)

/-- R160: the delta of an observation in inches, tips × RAIN_TIP: the `delta_inches` of the component contract that R163
quotes. No field of the response carries it: VALUE and RAIN_TIPS carry the tips, and the host scales them (R166). -/
def rainDeltaInches (tips : BitVec 7) : ℚ := tips.toNat * rainTip

/-- R160: `observe(rawCounter) -> delta_inches`. -/
def rainObserveInches (c : BitVec 7) (r : RainState) : ℚ := rainDeltaInches (rainObserve c r).2.1

/-- R163: RAIN_OBSERVE. PRIMED is RAIN.primed after the command (R67). -/
def execRainObserve (c : BitVec 7) (s : State) : Host.Outcome State Fault Refusal :=
  let o := rainObserve c s.rain
  respond
    { value := o.2.1.zeroExtend 32, aux := o.1.baseline.zeroExtend 32,
      flags := flagIf o.2.2 flagFirst ||| flagIf o.1.primed flagPrimed }
    { s with rain := o.1 }

/-- R164: RAIN_STATUS. -/
def execRainStatus (s : State) : Host.Outcome State Fault Refusal :=
  respond { value := s.rain.baseline.zeroExtend 32, flags := flagIf s.rain.primed flagPrimed } s

end Sys2Proof.Machine
end

