-- ==== Sys2Proof/Machine/ExactSine.lean ====
section
/-! DEFINITION. Machine/ExactSine.lean: the exact sign of an integer combination of sines of rational angles, decided
with integers alone. The wind mean (spec 44_wind_averager.md R184 to R186) is a function of real numbers; every
comparison it makes is such a sign. How it decides: enclosures of growing precision settle every non-zero sum; a sum
that the relations between roots of unity cancel is 0; and beyond the last precision a non-zero sum is impossible.
Laws/ExactSine.lean proves the answer equal to the sign of the real number (log entry 6). -/

namespace Sys2Proof.Machine

/-- A term `(c, e)` stands for `c · sin(2π e / N)`. -/
abbrev SineTerm := Int × Nat

/-- n terms of the series of arctan(1/x), each rounded down to a multiple of 2^-q, scaled by 2^q. -/
def arctanInv (q x : Nat) : Nat → Int
  | 0 => 0
  | n + 1 =>
    if n % 2 = 0 then arctanInv q x n + (2 ^ q / ((2 * n + 1) * x ^ (2 * n + 1)) : Nat)
    else arctanInv q x n - (2 ^ q / ((2 * n + 1) * x ^ (2 * n + 1)) : Nat)

/-- About 2^q · π, by π = 16 arctan(1/5) - 4 arctan(1/239). -/
def piFix (q : Nat) : Nat := (16 * arctanInv q 5 (q / 4 + 2) - 4 * arctanInv q 239 (q / 4 + 2)).toNat

/-- About 2^q · (1 - t/(2k+2)(2k+3) · (1 - t/(2k+4)(2k+5) · …)), n factors, for b about 2^q · t. -/
def sineHorner (b q : Nat) : Nat → Nat → Nat
  | _, 0 => 2 ^ q
  | k, n + 1 => 2 ^ q - b * sineHorner b q (k + 1) n / (2 ^ q * ((2 * k + 2) * (2 * k + 3)))

/-- About 2^p · sin(π v / N) for 2v ≤ N, computed with 2p bits. -/
def sineQuarter (p v N : Nat) : Nat :=
  let q := 2 * p
  let a := piFix q * v / N
  a * sineHorner (a * a / 2 ^ q) q 0 (p / 4 + 4) / 2 ^ (q + p)

/-- About 2^p · sin(2π e / N). -/
def sineFix (p e N : Nat) : Int :=
  let v := 2 * (e % N)
  if 2 * v ≤ N then sineQuarter p v N
  else if v ≤ N then sineQuarter p (N - v) N
  else if 2 * v ≤ 3 * N then -(sineQuarter p (v - N) N : Int)
  else -(sineQuarter p (2 * N - v) N : Int)

/-- About 2^p times the sum of the terms. -/
def sineSumFix (p N : Nat) : List SineTerm → Int
  | [] => 0
  | t :: ts => t.1 * sineFix p t.2 N + sineSumFix p N ts

/-- The sum of the absolute coefficients. -/
def absCoefs : List SineTerm → Nat
  | [] => 0
  | t :: ts => t.1.natAbs + absCoefs ts

/-- The sign of the sum, where precision p settles it; each sine is enclosed to within 2 units of 2^-p. -/
def signAt (p N : Nat) (ts : List SineTerm) : Option Int :=
  let x := sineSumFix p N ts
  let e : Int := 2 * absCoefs ts
  if e < x then some 1 else if x < -e then some (-1) else none

/-- The first of the precisions p, 2p, 4p, … (`fuel` of them) that settles the sign. -/
def signLoop (N : Nat) (ts : List SineTerm) : Nat → Nat → Option Int
  | 0, _ => none
  | fuel + 1, p =>
    match signAt p N ts with
    | some x => some x
    | none => signLoop N ts fuel (2 * p)

/-- A precision at which every non-zero sum is settled. -/
def lastPrecision (N : Nat) (ts : List SineTerm) : Nat :=
  (Nat.log2 (2 * absCoefs ts) + 1) * (N + 1) + 2

/-- Adds c · ζ^e to a list of terms with distinct exponents. -/
def addTerm (c : Int) (e : Nat) : List SineTerm → List SineTerm
  | [] => if c = 0 then [] else [(c, e)]
  | t :: ts =>
    if e = t.2 then (if t.1 + c = 0 then ts else (t.1 + c, e) :: ts) else t :: addTerm c e ts

/-- The terms with equal exponents added up and zero coefficients dropped. -/
def collect : List SineTerm → List SineTerm
  | [] => []
  | t :: ts => addTerm t.1 t.2 (collect ts)

/-- The power of p in n, by at most `fuel` divisions. -/
def primePart (p : Nat) : Nat → Nat → Nat
  | 0, _ => 1
  | fuel + 1, n => if n % p = 0 then p * primePart p fuel (n / p) else 1

/-- The terms c · ζ^(e + jN/p) for j = 1 .. n. -/
def rotations (p N : Nat) (c : Int) (e : Nat) : Nat → List SineTerm
  | 0 => []
  | n + 1 => (c, (e + (n + 1) * (N / p)) % N) :: rotations p N c e n

/-- For a prime p that divides N, ζ^e = -(ζ^(e+N/p) + … + ζ^(e+(p-1)N/p)): used on the terms whose leading base-p
digit is p-1, it leaves terms that no relation of p joins. -/
def reducePrime (p N m : Nat) : List SineTerm → List SineTerm
  | [] => []
  | t :: ts =>
    if t.2 / m % p = p - 1 then rotations p N (-t.1) t.2 (p - 1) ++ reducePrime p N m ts
    else t :: reducePrime p N m ts

/-- `reducePrime`, where p divides N, and the terms collected. -/
def cancelPrime (p N : Nat) (ts : List SineTerm) : List SineTerm :=
  if N % p = 0 then collect (reducePrime p N (primePart p (Nat.log2 N) N / p) ts) else ts

/-- The sum of the terms as a combination of N-th roots of unity: 2i · c sin(2π e/N) = c ζ^e - c ζ^(N-e). -/
def rootTerms (N : Nat) : List SineTerm → List SineTerm
  | [] => []
  | t :: ts => (t.1, t.2 % N) :: (-t.1, (N - t.2 % N) % N) :: rootTerms N ts

/-- The relations of the primes 2, 3 and 5 (those of 57600) cancel the whole sum. -/
def sineSumVanishes (N : Nat) (ts : List SineTerm) : Bool :=
  (cancelPrime 5 N (cancelPrime 3 N (cancelPrime 2 N (collect (rootTerms N ts))))).isEmpty

/-- The sign, -1, 0 or 1, of `Σ c · sin(2π e / N)` over the terms. -/
def sineSumSign (N : Nat) (ts : List SineTerm) : Int :=
  match signLoop N ts 2 32 with
  | some x => x
  | none =>
    if sineSumVanishes N ts then 0
    else
      match signLoop N ts (Nat.log2 (lastPrecision N ts) + 1) 128 with
      | some x => x
      | none => 0

end Sys2Proof.Machine
end

