-- ==== Sys2Proof/Machine/Wind.lean ====
section
/-! DEFINITION. Machine/Wind.lean: the circular mean filter WDF (spec 44_wind_averager.md R180 to R188). The mean is
computed with integers: with N = 57600 · den parts in a full turn (den the denominator of WIND_EPS), every comparison
of the angle d of R185 with a rational angle is the sign of `Σ sin(2π (w·den - m)/N)`. Machine/Ideal.lean states R184
to R186 over the real numbers, and Laws/WindMean.lean proves that the two agree. -/

namespace Sys2Proof.Machine

/-- R184, R185: the sign of `Σ sin(φ_w - 2π m/N)` over the window, N = 57600 · den, for m ≤ N: where the resultant
is not 0, the sign of sin(d - 360 m/N degrees). -/
def rotatedSign (den : Nat) (w : List HeadingWord) (m : Nat) : Int :=
  sineSumSign (headingTurn * den) (w.map fun h => (1, h.toNat * den + (headingTurn * den - m)))

/-- R184: the sign of S = sumSin. -/
def sumSinSign (w : List HeadingWord) : Int := rotatedSign 1 w 0

/-- R184: the sign of C = sumCos; cos x = sin(x + 90°). -/
def sumCosSign (w : List HeadingWord) : Int := rotatedSign 1 w (headingTurn * 3 / 4)

/-- R184: `den² R² - num²` as a combination of sines: `R² = Σ cos(φ_v - φ_w)` over all pairs of the window. -/
def resultantTerms (t : Tolerance) (w : List HeadingWord) : List SineTerm :=
  (-((t.num : Int) * t.num), headingTurn / 4) ::
    w.flatMap fun v => w.map fun u =>
      (((t.den : Int) * t.den), v.toNat + (2 * headingTurn - u.toNat) + headingTurn / 4)

/-- R186: `R ≤ WIND_RMIN`. -/
def resultantWithin (t : Tolerance) (w : List HeadingWord) : Bool :=
  if t.num = 0 then sumSinSign w == 0 && sumCosSign w == 0
  else decide (sineSumSign headingTurn (resultantTerms t w) ≤ 0)

/-- R185, for R > 0: d < 180. -/
def meanInUpperHalf (w : List HeadingWord) : Bool :=
  decide (0 < sumSinSign w) || (sumSinSign w == 0 && decide (0 < sumCosSign w))

/-- R185, for R > 0: d ≥ 360 m/N degrees. -/
def meanAtLeast (den : Nat) (w : List HeadingWord) (m : Int) : Bool :=
  if m ≤ 0 then true
  else if (headingTurn * den : Nat) ≤ m then false
  else if meanInUpperHalf w then
    if (headingTurn * den : Nat) ≤ 2 * m then false else decide (0 ≤ rotatedSign den w m.toNat)
  else if 2 * m ≤ (headingTurn * den : Nat) then true
  else decide (0 ≤ rotatedSign den w m.toNat)

/-- R185, for R > 0: d ≤ 360 m/N degrees. -/
def meanAtMost (den : Nat) (w : List HeadingWord) (m : Int) : Bool :=
  if m < 0 then false
  else if (headingTurn * den : Nat) ≤ m then true
  else if meanInUpperHalf w then
    if (headingTurn * den : Nat) ≤ 2 * m then true else decide (rotatedSign den w m.toNat ≤ 0)
  else if 2 * m < (headingTurn * den : Nat) then false
  else decide (rotatedSign den w m.toNat ≤ 0)

/-- The largest n' = n + (a number of `bits` binary digits) with P n', for a P that holds up to some number and not
beyond it. -/
def searchUp (P : Nat → Bool) : Nat → Nat → Nat
  | 0, n => n
  | bits + 1, n => searchUp P bits (if P (n + 2 ^ bits) then n + 2 ^ bits else n)

/-- R186: `floor(d + 1/2)`, in 0..360: the largest n with d ≥ n - 1/2. -/
def meanRounded (w : List HeadingWord) : Nat :=
  searchUp (fun n => meanAtLeast 1 w (80 * (2 * (n : Int) - 1))) 9 0

/-- R186: `|d - (k + 1/2)| ≤ WIND_EPS`; a degree is 160 · den of the N parts of a turn. -/
def meanInBand (eps : Tolerance) (w : List HeadingWord) (k : Int) : Bool :=
  meanAtLeast eps.den w (80 * (2 * k + 1) * eps.den - 160 * eps.num) &&
    meanAtMost eps.den w (80 * (2 * k + 1) * eps.den + 160 * eps.num)

/-- The integers k near n, out to distance `span`: n - 1 - j and n + j for j ≤ span. -/
def tieCandidates (n span : Nat) : List Int :=
  (List.range (span + 1)).flatMap fun j => [(n : Int) - 1 - j, (n : Int) + j]

/-- R186: the k in whose band d lies. Only k within WIND_EPS of d can be, and 360 to each side reach every heading. -/
def meanTies (eps : Tolerance) (w : List HeadingWord) : List Int :=
  (tieCandidates (meanRounded w) (min (eps.num / eps.den) 360)).filter (meanInBand eps w)

/-- R186: the headings that MEAN(W) may be, one where the mean is not a draw. -/
def meanChoices (p : WindParams) (w : List HeadingWord) : List Nat :=
  if resultantWithin p.rmin w then List.range 360
  else
    match meanTies p.eps w with
    | [] => [meanRounded w % 360]
    | ks => ks.flatMap fun k => [(k % 360).toNat, ((k + 1) % 360).toNat]

/-- R8: the member of X a draw takes, its position a free value. -/
def drawFrom (xs : List Nat) (free : Nat) : Nat := xs.getD (free % xs.length) 0

/-- R8, R186: the mean and the number of draws after it: a draw where there is more than one choice. -/
def windMean (p : WindParams) (w : List HeadingWord) (draws : Nat) : Nat × Nat :=
  match meanChoices p w with
  | [n] => (n, draws)
  | xs => (drawFrom xs (Config.freeDraw draws), draws + 1)

/-- R182: `wind_observe(H)`: the state with WIN written, and the heading, or none for INSUFFICIENT. -/
def windObserve (h : HeadingWord) (s : State) : State × Option Nat :=
  if s.win.length < windWindow then ({ s with win := s.win ++ [h] }, none)
  else
    let w := s.win.drop 1 ++ [h]
    let m := windMean s.params w s.draws
    ({ s with win := w, draws := m.2 }, some m.1)

/-- R187, R188: FULL when |W| = 30. -/
def fullFlag (w : List HeadingWord) : BitVec 8 := flagIf (w.length == windWindow) flagFull

/-- R187: WIND_OBSERVE. INSUFFICIENT_DATA is an answer, and the append is kept (60_exceptions.md R233). -/
def execWindObserve (h : HeadingWord) (s : State) : Host.Outcome State Fault Refusal :=
  let o := windObserve h s
  let fields : Response := { aux := BitVec.ofNat 32 o.1.win.length, flags := fullFlag o.1.win }
  match o.2 with
  | none => raise .insufficientData fields o.1
  | some n => respond { fields with value := BitVec.ofNat 32 n } o.1

/-- R188: WIND_STATUS. -/
def execWindStatus (s : State) : Host.Outcome State Fault Refusal :=
  respond { value := BitVec.ofNat 32 s.win.length, flags := fullFlag s.win } s

end Sys2Proof.Machine
end

