-- ==== Sys2Proof/Machine/Sequencer.lean ====
section
/-! DEFINITION. Machine/Sequencer.lean: the frame sequencer SEQ and the configuration commands (spec
45_frame_pipeline.md R200 to R211). -/

namespace Sys2Proof.Machine

/-- R204: `dispatch(n, sel)`: the decoder of a sensor type. -/
def dispatchField (t : SensorType) (sel : RainSel) : Field :=
  match t with
  | .capVoltage => .capVoltage
  | .uvIndex => .uv
  | .rainSeconds => match sel with
    | .formulaA => .rainRateA
    | .formulaB => .rainRateB
  | .solarRadiation => .solar
  | .outsideTemp => .temperature
  | .windGust => .windGust
  | .humidity => .humidity
  | .rainCount => .rainCounter

/-- R200: the fields HDR_* and REACHED after the header stage. -/
def headerFields (f : Frame) : Response :=
  { reached := reachedHdr, hdrStation := externalStation f, hdrBattery := batteryLow f, hdrType := sensorNibble f }

/-- R200: the fields WIND_*, AVG_* and REACHED after the wind stage, for its averager result. -/
def windFields (f : Frame) (a : Option Nat) : Response :=
  { headerFields f with
    reached := reachedHdr ||| reachedWind ||| reachedAvg
    windSpeed := frameByte f 1
    windDirQ := headingWord (frameByte f 2)
    avgStatus := match a with
      | none => statusCode .insufficientData
      | some _ => statusCode .ok
    avgDeg := match a with
      | none => 0#9
      | some n => BitVec.ofNat 9 n }

/-- R200, stages FieldDispatched and Updated, on the state `s1` the wind stage left (its WIN write is kept by every
outcome, R205). -/
def payloadStage (f : Frame) (t : SensorType) (a : Option Nat) (s1 : State) : Host.Outcome State Fault Refusal :=
  let x := dispatchField t (cfgRainSel s1.cfg)
  let d := fieldResult x f
  let pay : Response := { windFields f a with
    reached := reachedHdr ||| reachedWind ||| reachedAvg ||| reachedPayload, value := d.value, flags := d.flags }
  match fieldStatus x f with
  | .ok =>
    match t with
    | .rainCount =>
      let o := rainObserve (d.value.extractLsb' 0 7) s1.rain
      respond
        { pay with
          outcome := outcomeCode .updated, aux := d.aux
          reached := reachedHdr ||| reachedWind ||| reachedAvg ||| reachedPayload ||| reachedRain
          flags := d.flags ||| flagIf o.2.2 flagFirst
          rainTips := o.2.1, rainFirst := BitVec.ofBool o.2.2 }
        { s1 with rain := o.1 }
    | _ => respond { pay with outcome := outcomeCode .updated, aux := d.aux } s1
  | st => raise st { pay with outcome := outcomeCode .rejected } s1

/-- R200, from the wind stage on: the heading is fed to WDF whatever the sensor nibble (R203). -/
def windStage (f : Frame) (s : State) : Host.Outcome State Fault Refusal :=
  let o := windObserve (headingWord (frameByte f 2)) s
  match sensorTypeOf (sensorNibble f) with
  | none =>
    raise .unrecognizedSensorType
      { windFields f o.2 with outcome := outcomeCode .unrecognized, value := (sensorNibble f).zeroExtend 32 } o.1
  | some t => payloadStage f t o.2 o.1

/-- R200: FRAME_PROCESS: the gates of R202 and the speed gate of R203, in the order of R232. -/
def execFrameProcess (f : Frame) (s : State) : Host.Outcome State Fault Refusal :=
  if !frameValid f then
    raise .invalidChecksum { outcome := outcomeCode .rejected, aux := crcPair f } s
  else if wireStation f ≠ cfgExpStation s.cfg then
    raise .foreignStation { headerFields f with outcome := outcomeCode .rejected } s
  else if windSpeedMax < byteNat f 1 then
    raise .outOfRange
      { headerFields f with outcome := outcomeCode .rejected, value := (frameByte f 1).zeroExtend 32 } s
  else windStage f s

/-- R210: CFG_WRITE. -/
def execCfgWrite (expStation : BitVec 3) (sel : RainSel) (s : State) : Host.Outcome State Fault Refusal :=
  let cfg := cfgOfFields expStation sel
  respond { value := cfg.zeroExtend 32 } { s with cfg := cfg }

/-- R211: CFG_READ. -/
def execCfgRead (s : State) : Host.Outcome State Fault Refusal :=
  respond { value := s.cfg.zeroExtend 32 } s

end Sys2Proof.Machine
end

