-- ==== Sys2Proof/Machine/Dispatch.lean ====
section
/-! DEFINITION. Machine/Dispatch.lean: the meaning of every command, one arm per constructor (spec 30_encoding.md R62). -/

namespace Sys2Proof.Machine

def exec (i : Instr) (s : State) : Host.Outcome State Fault Refusal :=
  match i with
  | .crcCompute f => Sys2Proof.Machine.execCrcCompute f s
  | .crcCheck f => Sys2Proof.Machine.execCrcCheck f s
  | .hdrStationId f => Sys2Proof.Machine.execHdrStationId f s
  | .hdrBatteryLow f => Sys2Proof.Machine.execHdrBatteryLow f s
  | .hdrSensorType f => Sys2Proof.Machine.execHdrSensorType f s
  | .decWindSpeed f => Sys2Proof.Machine.execDecWindSpeed f s
  | .decWindDir f => Sys2Proof.Machine.execDecWindDir f s
  | .decWindGust f => Sys2Proof.Machine.execDecWindGust f s
  | .decRainRateA f => Sys2Proof.Machine.execDecRainRateA f s
  | .decRainRateB f => Sys2Proof.Machine.execDecRainRateB f s
  | .decRainCounter f => Sys2Proof.Machine.execDecRainCounter f s
  | .decTemperature f => Sys2Proof.Machine.execDecTemperature f s
  | .decHumidity f => Sys2Proof.Machine.execDecHumidity f s
  | .decSolar f => Sys2Proof.Machine.execDecSolar f s
  | .decUv f => Sys2Proof.Machine.execDecUv f s
  | .decCapVoltage f => Sys2Proof.Machine.execDecCapVoltage f s
  | .rainObserve c => Sys2Proof.Machine.execRainObserve c s
  | .rainStatus => Sys2Proof.Machine.execRainStatus s
  | .windObserve h => Sys2Proof.Machine.execWindObserve h s
  | .windStatus => Sys2Proof.Machine.execWindStatus s
  | .frameProcess f => Sys2Proof.Machine.execFrameProcess f s
  | .cfgWrite e sel => Sys2Proof.Machine.execCfgWrite e sel s
  | .cfgRead => Sys2Proof.Machine.execCfgRead s

end Sys2Proof.Machine
end

