-- ==== Sys2Proof/Machine/Interface.lean ====
section
/-! DEFINITION. Machine/Interface.lean: the ports of spec 30_encoding.md R74 and what a step does with their levels:
reset (70_reset_and_hazards.md R260, R261), acceptance, commit, and taking a response (10_state.md R29, R31). -/

namespace Sys2Proof.Machine

/-- R74: cmd_ready: no command is executing and RSP_VALID = 0. -/
def cmdReady (s : State) : Bool := s.executing.isNone && !s.rspValid

/-- R74: the output ports cmd_ready, rsp_valid and rsp. -/
def outputPorts (s : State) : Bool × Bool × RspWord := (cmdReady s, s.rspValid, s.rsp)

/-- The levels of the input ports in this step: the next sample, or every port low where none is listed. -/
def sampleNow (s : State) : PortSample := s.inputs.headD PortSample.idle

/-- The state with this step's sample used up. -/
def dropSample (s : State) : State := { s with inputs := s.inputs.tail }

/-- R260, R261: rst gives every state element of the block its reset value, whatever was in flight. The model's own
fields are no state of the block and stay (log entry 7). -/
def resetBlock (s : State) : State :=
  { State.reset with inputs := s.inputs, params := s.params, draws := s.draws }

/-- R74: a command is accepted: cmd and frame are sampled. -/
def acceptCommand (c : Command) (s : State) : State := { s with executing := some c }

/-- R29, R74: the host takes the response. -/
def takeResponse (s : State) : State := { s with rspValid := false }

/-- R31, R61: the accepted command is decoded, executed and committed. -/
def commitCommand (c : Command) (s : State) : Host.Outcome State Fault Refusal :=
  match decode c with
  | .ok i => exec i { s with executing := none }
  | .error _ => raiseIllegal { s with executing := none }

/-- R74: what a step without rst does, given the levels of the input ports. -/
def stepPorts (p : PortSample) (s : State) : Host.Outcome State Fault Refusal :=
  match s.executing with
  | some c => commitCommand c s
  | none =>
    if s.rspValid then .next (if p.rspReady then takeResponse s else s)
    else .next (if p.cmdValid then acceptCommand p.command s else s)

/-- A command placed where the next step executes it: accepted, no response pending, and rst low in that step. The
input samples already listed follow after it. -/
def placeCommand (c : Command) (s : State) : State :=
  { s with executing := some c, rspValid := false, inputs := PortSample.idle :: s.inputs }

end Sys2Proof.Machine
end

