-- ==== Sys2Proof/Machine/Step.lean ====
section
/-! DEFINITION. Machine/Step.lean: one step of the machine: one sample of the input ports (spec 30_encoding.md R74). -/

namespace Sys2Proof.Machine

/-- One step: rst comes before everything else (70_reset_and_hazards.md R260, R261). -/
def step (s : State) : Host.Outcome State Fault Refusal :=
  if (sampleNow s).rst then .next (resetBlock (dropSample s))
  else stepPorts (sampleNow s) (dropSample s)

/-- The state whose next step executes the instruction with the given table bits (log entry 8). -/
def State.withFetchWord (s : State) (nbits w : Nat) : State := placeCommand (tableCommand nbits w) s

end Sys2Proof.Machine
end

