-- ==== Sys2Proof/Machine/Assembler.lean ====
section
/-! DEFINITION. Machine/Assembler.lean: the text form of a command and the pseudo-commands (spec 30_encoding.md R72,
R73): a line's characters, its parsed form, and the commands it stands for. The block itself reads no text. -/

namespace Sys2Proof.Machine

/-- R72, R73: a parsed line, its operands as written. A frame command may be written without its frame. -/
inductive AsmLine where
  | frameCommand (mnemonic : String) (f : Option Frame)
  | rainObserve (c : Nat)
  | windObserve (h : Nat)
  | cfgWrite (exp : Nat) (sel : RainSel)
  | plain (mnemonic : String)
  | windObserveDeg (d : Nat)
  | windObserveCode (c : Nat)
  | setStation (n : Nat)
  | setStationB (n : Nat)
  | checkAndProcess (f : Option Frame)
  deriving DecidableEq, Repr

/-- R72: the frame commands. -/
def frameCommands : List (String × (Frame → Instr)) :=
  [("CRC_COMPUTE", .crcCompute), ("CRC_CHECK", .crcCheck), ("HDR_STATION_ID", .hdrStationId),
   ("HDR_BATTERY_LOW", .hdrBatteryLow), ("HDR_SENSOR_TYPE", .hdrSensorType), ("DEC_WIND_SPEED", .decWindSpeed),
   ("DEC_WIND_DIR", .decWindDir), ("DEC_WIND_GUST", .decWindGust), ("DEC_RAIN_RATE_A", .decRainRateA),
   ("DEC_RAIN_RATE_B", .decRainRateB), ("DEC_RAIN_COUNTER", .decRainCounter), ("DEC_TEMPERATURE", .decTemperature),
   ("DEC_HUMIDITY", .decHumidity), ("DEC_SOLAR", .decSolar), ("DEC_UV", .decUv), ("DEC_CAP_VOLTAGE", .decCapVoltage),
   ("FRAME_PROCESS", .frameProcess)]

/-- R72: the commands written as a mnemonic alone. -/
def plainCommands : List (String × Instr) :=
  [("RAIN_STATUS", .rainStatus), ("WIND_STATUS", .windStatus), ("CFG_READ", .cfgRead)]

/-- R72: "An assembler that meets a frame command without a frame puts 0 in every frame byte." -/
def frameOrZero (f : Option Frame) : Frame := f.getD 0#64

/-- R210: `CFG_WRITE exp=e, sel=s`. -/
def asmCfgWrite (e : Nat) (sel : RainSel) : Option (List Instr) :=
  if e ≤ 7 then some [.cfgWrite (BitVec.ofNat 3 e) sel] else none

/-- R73: `SET_STATION n` and `SET_STATION_B n`, n in 1..8. -/
def asmSetStation (n : Nat) (sel : RainSel) : Option (List Instr) :=
  if 1 ≤ n then asmCfgWrite (n - 1) sel else none

/-- R63: `WIND_OBSERVE H`. -/
def asmWindObserve (h : Nat) : Option (List Instr) :=
  if h ≤ 65535 then some [.windObserve (BitVec.ofNat 16 h)] else none

/-- R72, R73: the commands a line stands for; none where an operand is out of its range or the mnemonic is unknown. -/
def assemble : AsmLine → Option (List Instr)
  | .frameCommand m f => (frameCommands.lookup m).map fun mk => [mk (frameOrZero f)]
  | .rainObserve c => if c ≤ 127 then some [.rainObserve (BitVec.ofNat 7 c)] else none
  | .windObserve h => asmWindObserve h
  | .cfgWrite e sel => asmCfgWrite e sel
  | .plain m => (plainCommands.lookup m).map fun i => [i]
  | .windObserveDeg d => if d ≤ 409 then asmWindObserve (160 * d) else none
  | .windObserveCode c =>
    if c ≤ 255 then asmWindObserve (if c = 0 then 0 else 225 * c + 48) else none
  | .setStation n => asmSetStation n .formulaA
  | .setStationB n => asmSetStation n .formulaB
  | .checkAndProcess f => some [.crcCheck (frameOrZero f), .frameProcess (frameOrZero f)]

/-- R72: the pairs (CMD, FRAME) of a line. -/
def assembleWords (l : AsmLine) : Option (List Command) := (assemble l).map (·.map encode)

/-! ### Text -/

/-- R72: a comment starts with `;`. -/
def stripComment (cs : List Char) : List Char := cs.takeWhile (· != ';')

/-- The word collected so far, where there is one. -/
def flushWord (word : List Char) : List (List Char) := if word.isEmpty then [] else [word]

/-- The words of a line; the characters `[`, `]`, `,` and `=` are words of their own (log entry 16). -/
def lineWords (word : List Char) : List Char → List (List Char)
  | [] => flushWord word
  | c :: cs =>
    if c = ' ' ∨ c = '\t' then flushWord word ++ lineWords [] cs
    else if c = '[' ∨ c = ']' ∨ c = ',' ∨ c = '=' then flushWord word ++ [c] :: lineWords [] cs
    else lineWords (word ++ [c]) cs

/-- A digit of a base up to 16, in either case. -/
def digitValue (base : Nat) (c : Char) : Option Nat :=
  let n := c.toNat
  let v := if 48 ≤ n ∧ n ≤ 57 then n - 48 else if 65 ≤ n ∧ n ≤ 70 then n - 55 else if 97 ≤ n ∧ n ≤ 102 then n - 87 else 16
  if v < base then some v else none

/-- Digits after the value of those before them. -/
def digitsValue (base acc : Nat) : List Char → Option Nat
  | [] => some acc
  | c :: cs => (digitValue base c).bind fun v => digitsValue base (acc * base + v) cs

/-- A non-empty numeral of a base. -/
def numeral (base : Nat) (w : List Char) : Option Nat := if w.isEmpty then none else digitsValue base 0 w

/-- An operand: decimal, or hexadecimal after `0x`, with any number of digits. R72 names both forms for C and H only, as
`0xNN` and `0xNNNN`; that `exp=` and the operands d, c and n of R73 take the same two, and that digits are not counted,
is the model's choice (log entry 16). -/
def operandValue : List Char → Option Nat
  | '0' :: 'x' :: w => numeral 16 w
  | w => numeral 10 w

/-- R72: one hexadecimal byte, of one or two digits (log entry 16). -/
def hexByte (w : List Char) : Option Byte :=
  if w.length ≤ 2 then (numeral 16 w).map (BitVec.ofNat 8 ·) else none

/-- R72: `[b0 b1 b2 b3 b4 b5 b6 b7]`, or nothing. -/
def frameOperand : List (List Char) → Option (Option Frame)
  | [] => some none
  | [['['], b0, b1, b2, b3, b4, b5, b6, b7, [']']] => do
    let x0 ← hexByte b0
    let x1 ← hexByte b1
    let x2 ← hexByte b2
    let x3 ← hexByte b3
    let x4 ← hexByte b4
    let x5 ← hexByte b5
    let x6 ← hexByte b6
    let x7 ← hexByte b7
    pure (some (frameOfBytes x0 x1 x2 x3 x4 x5 x6 x7))
  | _ => none

/-- A line with one numeric operand, in either form of `operandValue` (log entry 16). -/
def oneOperand (mk : Nat → AsmLine) : List (List Char) → Option AsmLine
  | [w] => (operandValue w).map mk
  | _ => none

/-- R72: `exp=<0..7>, sel=<A|B>`; the numeral after `exp=` in either form of `operandValue` (log entry 16). -/
def cfgOperands : List (List Char) → Option AsmLine
  | [['e', 'x', 'p'], ['='], e, [','], ['s', 'e', 'l'], ['='], ['A']] =>
    (operandValue e).map fun n => .cfgWrite n .formulaA
  | [['e', 'x', 'p'], ['='], e, [','], ['s', 'e', 'l'], ['='], ['B']] =>
    (operandValue e).map fun n => .cfgWrite n .formulaB
  | _ => none

/-- R72, R73: the operands of a mnemonic. -/
def parseOperands (m : String) (ws : List (List Char)) : Option AsmLine :=
  if m = "RAIN_OBSERVE" then oneOperand .rainObserve ws
  else if m = "WIND_OBSERVE" then oneOperand .windObserve ws
  else if m = "CFG_WRITE" then cfgOperands ws
  else if m = "WIND_OBSERVE_DEG" then oneOperand .windObserveDeg ws
  else if m = "WIND_OBSERVE_CODE" then oneOperand .windObserveCode ws
  else if m = "SET_STATION" then oneOperand .setStation ws
  else if m = "SET_STATION_B" then oneOperand .setStationB ws
  else if m = "CHECK_AND_PROCESS" then (frameOperand ws).map .checkAndProcess
  else if (plainCommands.lookup m).isSome then if ws.isEmpty then some (.plain m) else none
  else (frameOperand ws).map (.frameCommand m)

/-- R72: the commands of one line of text; a line without a mnemonic stands for none. -/
def assembleText (line : String) : Option (List Instr) :=
  match lineWords [] (stripComment line.toList) with
  | [] => some []
  | m :: ws => (parseOperands (String.ofList m) ws).bind assemble

/-! ### The shapes of R72 and R73 in writing -/

/-- A hexadecimal digit. -/
def hexDigit (n : Nat) : Char := Char.ofNat (if n < 10 then 48 + n else 55 + n)

/-- A numeral of a given number of hexadecimal digits. -/
def hexText : Nat → Nat → List Char
  | 0, _ => []
  | k + 1, n => hexText k (n / 16) ++ [hexDigit (n % 16)]

/-- R72: `[b0 b1 b2 b3 b4 b5 b6 b7]`, byte 0 first. -/
def frameText (f : Frame) : List Char :=
  '[' :: ((([0, 1, 2, 3, 4, 5, 6, 7] : List (Fin 8)).map fun k => hexText 2 (byteNat f k)).intersperse [' ']).flatten ++
    [']']

/-- R72: `sel=<A|B>`. -/
def selText : RainSel → Char
  | .formulaA => 'A'
  | .formulaB => 'B'

/-- A mnemonic and what follows it after a space. -/
def mnemonicLine (m : String) (rest : List Char) : String := String.ofList (m.toList ++ ' ' :: rest)

/-- A mnemonic and one number in decimal. -/
def operandLine (m : String) (n : Nat) : String := mnemonicLine m n.repr.toList

/-- R72: a mnemonic and one number in hexadecimal, of k digits. -/
def hexLine (m : String) (k n : Nat) : String := mnemonicLine m ('0' :: 'x' :: hexText k n)

/-- R72: a mnemonic and a frame, or the mnemonic alone. -/
def frameLine (m : String) : Option Frame → String
  | none => m
  | some f => mnemonicLine m (frameText f)

/-- R72: `exp=<0..7>, sel=<A|B>`. -/
def cfgText (e : Nat) (sel : RainSel) : List Char :=
  ['e', 'x', 'p'] ++ '=' :: (e.repr.toList ++ ',' :: ' ' :: (['s', 'e', 'l'] ++ '=' :: [selText sel]))

/-- R72, R73: a line of each shape. -/
def lineText : AsmLine → String
  | .frameCommand m f => frameLine m f
  | .rainObserve c => operandLine "RAIN_OBSERVE" c
  | .windObserve h => operandLine "WIND_OBSERVE" h
  | .cfgWrite e sel => mnemonicLine "CFG_WRITE" (cfgText e sel)
  | .plain m => m
  | .windObserveDeg d => operandLine "WIND_OBSERVE_DEG" d
  | .windObserveCode c => operandLine "WIND_OBSERVE_CODE" c
  | .setStation n => operandLine "SET_STATION" n
  | .setStationB n => operandLine "SET_STATION_B" n
  | .checkAndProcess f => frameLine "CHECK_AND_PROCESS" f

end Sys2Proof.Machine
end

