-- ==== Sys2Proof/Machine/Ideal.lean ====
section
/-! DEFINITION. Machine/Ideal.lean: spec 44_wind_averager.md R181, R184 to R186 as they stand, over the real numbers
(00_scope.md R7). No step of the machine uses this file; it is what the statements about the wind mean say. -/

namespace Sys2Proof.Machine

/-- `Σ c · sin(2π e / N)` over the terms: what `sineSumSign` decides the sign of. -/
noncomputable def sineSum (N : Nat) (ts : List SineTerm) : ℝ :=
  (ts.map fun t => (t.1 : ℝ) * Real.sin (2 * Real.pi * t.2 / N)).sum

/-- R181: φ = π·H/28800 radians. -/
noncomputable def headingAngle (h : HeadingWord) : ℝ := Real.pi * h.toNat / 28800

/-- R184: S = sumSin. -/
noncomputable def sumSin (w : List HeadingWord) : ℝ := (w.map fun h => Real.sin (headingAngle h)).sum

/-- R184: C = sumCos. -/
noncomputable def sumCos (w : List HeadingWord) : ℝ := (w.map fun h => Real.cos (headingAngle h)).sum

/-- R184: R = sqrt(S² + C²). -/
noncomputable def resultant (w : List HeadingWord) : ℝ := Real.sqrt (sumSin w ^ 2 + sumCos w ^ 2)

/-- R7, R185: θ = atan2(S, C) · 180/π, in (-180, 180]. -/
noncomputable def meanTheta (w : List HeadingWord) : ℝ := Complex.arg ⟨sumCos w, sumSin w⟩ * 180 / Real.pi

/-- R185: d, in [0, 360). -/
noncomputable def meanDegrees (w : List HeadingWord) : ℝ :=
  if meanTheta w < 0 then meanTheta w + 360 else meanTheta w

/-- R4: the value of an open parameter. -/
noncomputable def toleranceValue (t : Tolerance) : ℝ := (t.num : ℝ) / t.den

/-- R186: d lies within WIND_EPS of k + 1/2. -/
def nearTie (p : WindParams) (w : List HeadingWord) (k : ℤ) : Prop :=
  |meanDegrees w - (k + 1 / 2)| ≤ toleranceValue p.eps

/-- R186: MEAN(W) may be n: the three cases of the rule. Where the bands of several k overlap (WIND_EPS ≥ 1/2), each
admits its two headings (log entry 11). -/
def meanAdmits (p : WindParams) (w : List HeadingWord) (n : Nat) : Prop :=
  (resultant w ≤ toleranceValue p.rmin ∧ n < 360) ∨
  (toleranceValue p.rmin < resultant w ∧
    ∃ k : ℤ, nearTie p w k ∧ ((n : ℤ) = k % 360 ∨ (n : ℤ) = (k + 1) % 360)) ∨
  (toleranceValue p.rmin < resultant w ∧ (∀ k : ℤ, ¬ nearTie p w k) ∧ (n : ℤ) = round (meanDegrees w) % 360)

end Sys2Proof.Machine
end

