-- ==== Sys2Proof/Machine/Ring.lean ====
section
/-! DEFINITION. Machine/Ring.lean: the ring buffer of spec 10_state.md R27, a conforming implementation of WIN. State
holds the logical window; this file gives the other representation and its logical view, so that a statement can say
that the two cannot be told apart. -/

namespace Sys2Proof.Machine

/-- R27: storage buf[0..29], head in 0..29 and fill in 0..30. -/
structure RingWindow where
  buf  : Vector HeadingWord 30
  head : Fin 30
  fill : Fin 31
  deriving DecidableEq, Repr

/-- R32: head and fill are 0 at reset; the storage is unspecified (93 I11), here a parameter. -/
def ringReset (storage : Vector HeadingWord 30) : RingWindow := ⟨storage, 0, 0⟩

/-- R27: the logical W. -/
def ringLogical (r : RingWindow) : List HeadingWord :=
  if r.fill.val < 30 then r.buf.toList.take r.fill.val
  else r.buf.toList.drop r.head.val ++ r.buf.toList.take r.head.val

/-- R27: an append. -/
def ringAppend (h : HeadingWord) (r : RingWindow) : RingWindow :=
  if hf : r.fill.val < 30 then ⟨r.buf.set r.fill.val h hf, r.head, ⟨r.fill.val + 1, by omega⟩⟩
  else ⟨r.buf.set r.head.val h r.head.isLt, ⟨(r.head.val + 1) % 30, Nat.mod_lt _ (by omega)⟩, r.fill⟩

/-- R27: the states the ring buffer reaches: the head moves only once the buffer is full. -/
def ringWf (r : RingWindow) : Bool := decide (r.fill.val = 30) || decide (r.head.val = 0)

end Sys2Proof.Machine
end

