-- ==== Sys2Proof/Safety.lean ====
section
/-! DEFINITION. Safety.lean: what a legal response and a legal state of the block are. No step of the machine checks
any of it; statements say that every step keeps it. -/

namespace Sys2Proof.Machine

/-- R64 to R69, R206 (and 93_implementation_defined.md I12, I13): the responses the block can give. A status above 7, FLAGS bit 7, a
REACHED value no rule produces, or a FRAME_PROCESS field whose stage was not reached never holds anything. -/
abbrev LegalResponse (r : Response) : Prop :=
  r.status.toNat ≤ 7 ∧ r.flags.getLsbD 7 = false ∧
  r.reached ∈ [0b00000#5, 0b00001#5, 0b00111#5, 0b01111#5, 0b11111#5] ∧
  (r.outcome = 0#2 → r.reached = 0#5) ∧
  (if r.reached.getLsbD 0 then 1 ≤ r.hdrStation.toNat ∧ r.hdrStation.toNat ≤ 8
    else r.hdrStation = 0#4 ∧ r.hdrBattery = 0#1 ∧ r.hdrType = 0#4) ∧
  (if r.reached.getLsbD 1 then r.windSpeed.toNat ≤ 240 else r.windSpeed = 0#8 ∧ r.windDirQ = 0#16) ∧
  (if r.avgStatus = statusCode .ok ∧ r.reached.getLsbD 2 then r.avgDeg.toNat < 360 else r.avgDeg = 0#9) ∧
  (r.avgStatus = statusCode .ok ∨ r.avgStatus = statusCode .insufficientData ∧ r.reached.getLsbD 2) ∧
  (r.reached.getLsbD 4 = false → r.rainTips = 0#7 ∧ r.rainFirst = 0#1)

/-- R64: a legal 144-bit response word: its reserved bits are 0 and its fields are legal. -/
abbrev LegalRspWord (w : RspWord) : Prop := w.extractLsb' 137 7 = 0#7 ∧ LegalResponse (unpackResponse w)

/-- The invariant of the block: the window holds at most 30 samples (R26), CFG[15:4] is 0 (R22), an unprimed RAIN has
baseline 0 (R32, R164), no response is pending while a command executes (R74), and a pending response is legal. -/
abbrev Inv (s : State) : Prop :=
  s.win.length ≤ 30 ∧ s.cfg.extractLsb' 4 12 = 0#12 ∧ (s.rain.primed = false → s.rain.baseline = 0#7) ∧
  (s.executing.isSome = true → s.rspValid = false) ∧ (s.rspValid = true → LegalRspWord s.rsp)

end Sys2Proof.Machine
end

