-- ==== Sys2Proof/Certificates/Slice0/Obligations.lean ====
section
/-! DEFINITION. Certificates/Slice0/Obligations.lean: the statements about the model, and the vocabulary they are written
in. A statement that gives a command's whole next state as `{ s with … }` says its result, that the command completes,
and its frame: every field of State that is not named there keeps its value. -/

namespace Sys2Proof.Machine

/-! ### Vocabulary -/

/-- R62: every word that matches decodes to the command `mk` makes of the word and the frame. -/
abbrev EncodedAs (mtch mask : CmdWord) (mk : CmdWord → Frame → Instr) : Prop :=
  ∀ w f, w &&& mask = mtch → decode ⟨w, f⟩ = .ok (mk w f)

/-- A 32-bit field that holds a number. -/
abbrev num32 (n : Nat) : BitVec 32 := BitVec.ofNat 32 n

/-- The sensor nibble `N = B(0)[7:4]` as a number. -/
abbrev nibble (f : Frame) : Nat := byteNat f 0 / 16

/-- The nibbles that R102 maps to a sensor type. -/
abbrev knownNibbles : List Nat := [0x2, 0x4, 0x5, 0x6, 0x8, 0x9, 0xA, 0xE]

/-- R80 on numbers: a shift masked to 16 bits. -/
def maskedRound (c : Nat) : Nat :=
  if c.testBit 15 then ((c <<< 1) ^^^ 0x1021) &&& 0xFFFF else (c <<< 1) &&& 0xFFFF

/-- R82 on numbers: a shift that is not masked. -/
def unmaskedRound (c : Nat) : Nat := if c.testBit 15 then (c <<< 1) ^^^ 0x1021 else c <<< 1

/-- R80 on numbers: the byte step. -/
def crcStepNat (c b : Nat) : Nat := maskedRound^[8] (c ^^^ (b <<< 8))

/-- R72, R62: the frame commands and their words. -/
abbrev frameMnemonics : List (String × CmdWord) :=
  [("CRC_COMPUTE", 0x01000000#32), ("CRC_CHECK", 0x02000000#32), ("HDR_STATION_ID", 0x10000000#32),
   ("HDR_BATTERY_LOW", 0x11000000#32), ("HDR_SENSOR_TYPE", 0x12000000#32), ("DEC_WIND_SPEED", 0x20000000#32),
   ("DEC_WIND_DIR", 0x21000000#32), ("DEC_WIND_GUST", 0x22000000#32), ("DEC_RAIN_RATE_A", 0x23000000#32),
   ("DEC_RAIN_RATE_B", 0x24000000#32), ("DEC_RAIN_COUNTER", 0x25000000#32), ("DEC_TEMPERATURE", 0x26000000#32),
   ("DEC_HUMIDITY", 0x27000000#32), ("DEC_SOLAR", 0x28000000#32), ("DEC_UV", 0x29000000#32),
   ("DEC_CAP_VOLTAGE", 0x2A000000#32), ("FRAME_PROCESS", 0x50000000#32)]

/-- R120: the answer of a decoder whose raw value is in range, or not. -/
abbrev rangeAnswer (inRange : Bool) (raw : Int) (flags : BitVec 8) : Response :=
  { status := if inRange then 0#4 else 2#4, value := BitVec.ofInt 32 raw, flags := flags }

/-- R120: the answer of a decoder of sensor nibble n. -/
abbrev typedAnswer (n : Nat) (f : Frame) (r : Response) : Response :=
  if nibble f = n then r else { status := 1#4, aux := num32 (nibble f) }

/-- R121: the physical value that a decoder gives for a frame. -/
abbrev physOf (x : Field) (f : Frame) : ℚ := fieldPhys x (fieldRaw x f) (fieldFlags x f)

/-- R120: the range check that a decoder makes on a frame. -/
abbrev validOf (x : Field) (f : Frame) : Prop :=
  fieldValid x (physOf x f) (fieldRaw x f) = true

/-- R127: the raw seconds of formula A. -/
def rainANumber (f : Frame) : Int :=
  if byteNat f 4 / 64 % 2 = 0 then ((byteNat f 3 / 16 + byteNat f 4 : Nat) : Int) - 1
  else (byteNat f 3 : Int) + (((byteNat f 4 / 16 : Nat) : Int) - 4) * 256

/-- R67: the HEAVY flag of a RainSeconds frame. -/
abbrev heavyBits (f : Frame) : BitVec 8 := if byteNat f 4 / 64 % 2 = 1 then 0x02#8 else 0#8

/-- R160: the tips of an observation. -/
def tipsNumber (c : BitVec 7) (r : RainState) : Nat :=
  if r.primed = false then 0
  else if c = r.baseline then 0
  else if r.baseline.toNat ≤ c.toNat then c.toNat - r.baseline.toNat
  else (128 - r.baseline.toNat) + c.toNat

/-- R124: the heading word of a wire code. -/
abbrev headingNumber (c : Nat) : Nat := if c = 0 then 0 else 225 * c + 48

/-- R182 to R186: `wind_observe(q)` in state s leaves the window w and answers a: none for INSUFFICIENT. `d` is the
model's own counter of draws afterwards. -/
def WindStep (q : HeadingWord) (s : State) (w : List HeadingWord) (a : Option Nat) (d : Nat) : Prop :=
  if s.win.length < 30 then w = s.win ++ [q] ∧ a = none ∧ d = s.draws
  else w = s.win.drop 1 ++ [q] ∧ (∃ n, a = some n ∧ n < 360 ∧ meanAdmits s.params w n) ∧ s.draws ≤ d

/-- R83: the frame passes the checksum gate. -/
abbrev ChecksumPasses (f : Frame) : Prop := frameCrc f = receivedCrc f ∧ receivedCrc f ≠ 0#16

/-- R202: the frame is of the expected station. -/
abbrev StationPasses (f : Frame) (s : State) : Prop := byteNat f 0 % 8 = s.cfg.toNat % 8

/-- R202, R203: the frame reaches the wind stage. -/
abbrev ReachesWind (f : Frame) (s : State) : Prop :=
  ChecksumPasses f ∧ StationPasses f s ∧ byteNat f 1 ≤ 240

/-- R200: a response with the fields HDR_* of the frame. -/
abbrev withHeader (f : Frame) (r : Response) : Response :=
  { r with
    hdrStation := BitVec.ofNat 4 (byteNat f 0 % 8 + 1), hdrBattery := BitVec.ofNat 1 (byteNat f 0 / 8 % 2)
    hdrType := BitVec.ofNat 4 (nibble f) }

/-- R200: a response with the fields HDR_*, WIND_* and AVG_*. -/
abbrev withWind (f : Frame) (a : Option Nat) (r : Response) : Response :=
  { withHeader f r with
    windSpeed := BitVec.ofNat 8 (byteNat f 1), windDirQ := BitVec.ofNat 16 (headingNumber (byteNat f 2))
    avgStatus := if a = none then 6#4 else 0#4, avgDeg := BitVec.ofNat 9 (a.getD 0) }

/-- R204: the decoder command that FRAME_PROCESS dispatches. -/
def dispatchedCommand (f : Frame) (s : State) : Option Instr :=
  match nibble f with
  | 0x2 => some (.decCapVoltage f)
  | 0x4 => some (.decUv f)
  | 0x5 => some (if s.cfg.getLsbD 3 then .decRainRateB f else .decRainRateA f)
  | 0x6 => some (.decSolar f)
  | 0x8 => some (.decTemperature f)
  | 0x9 => some (.decWindGust f)
  | 0xA => some (.decHumidity f)
  | 0xE => some (.decRainCounter f)
  | _ => none

/-- R62: the commands whose "writes state" column is "no". -/
def writesNothing : Instr → Bool
  | .rainObserve _ => false
  | .windObserve _ => false
  | .frameProcess _ => false
  | .cfgWrite _ _ => false
  | .crcCompute _ => true
  | .crcCheck _ => true
  | .hdrStationId _ => true
  | .hdrBatteryLow _ => true
  | .hdrSensorType _ => true
  | .decWindSpeed _ => true
  | .decWindDir _ => true
  | .decWindGust _ => true
  | .decRainRateA _ => true
  | .decRainRateB _ => true
  | .decRainCounter _ => true
  | .decTemperature _ => true
  | .decHumidity _ => true
  | .decSolar _ => true
  | .decUv _ => true
  | .decCapVoltage _ => true
  | .rainStatus => true
  | .windStatus => true
  | .cfgRead => true

/-- R230: the statuses a legal command can give. -/
def statusesOf : Instr → List Nat
  | .crcCompute _ => [0]
  | .crcCheck _ => [0, 3]
  | .hdrStationId _ => [0]
  | .hdrBatteryLow _ => [0]
  | .hdrSensorType _ => [0, 5]
  | .decWindSpeed _ => [0, 2]
  | .decWindDir _ => [0]
  | .decWindGust _ => [0, 1, 2]
  | .decRainRateA _ => [0, 1, 2]
  | .decRainRateB _ => [0, 1]
  | .decRainCounter _ => [0, 1]
  | .decTemperature _ => [0, 1, 2]
  | .decHumidity _ => [0, 1, 2]
  | .decSolar _ => [0, 1, 2]
  | .decUv _ => [0, 1, 2]
  | .decCapVoltage _ => [0, 1, 2]
  | .rainObserve _ => [0]
  | .rainStatus => [0]
  | .windObserve _ => [0, 6]
  | .windStatus => [0]
  | .frameProcess _ => [0, 2, 3, 4, 5]
  | .cfgWrite _ _ => [0]
  | .cfgRead => [0]

/-- The fields of the response a state holds. -/
abbrev State.response (s : State) : Response := unpackResponse s.rsp

end Sys2Proof.Machine

open Sys2Proof Sys2Proof.Machine

/-! ### Encoding -/

/-- Words written out from R62 and R63 decode to the commands they stand for. -/
def Obligations.SampleWordsDecode : Prop :=
  ∀ f : Frame,
    decode ⟨0x02000000#32, f⟩ = .ok (.crcCheck f) ∧
    decode ⟨0x12000000#32, f⟩ = .ok (.hdrSensorType f) ∧
    decode ⟨0x2A000000#32, f⟩ = .ok (.decCapVoltage f) ∧
    decode ⟨0x30000032#32, f⟩ = .ok (.rainObserve 50#7) ∧
    decode ⟨0x40003870#32, f⟩ = .ok (.windObserve 14448#16) ∧
    decode ⟨0x50000000#32, f⟩ = .ok (.frameProcess f) ∧
    decode ⟨0x6000000A#32, f⟩ = .ok (.cfgWrite 2#3 .formulaB) ∧
    decode ⟨0x61000000#32, f⟩ = .ok .cfgRead

/-- R60, R62, R63: decoding gives every encoded command back with every operand; a command that does not use FRAME
decodes the same whatever FRAME holds. -/
def Obligations.DecodeOfEncode : Prop :=
  ∀ (i : Instr) (g : Frame),
    decode (encode i) = .ok i ∧ (i.usesFrame = false → decode { encode i with frame := g } = .ok i)

/-- R60 to R63: a command word that decodes is the encoding of what it decodes to, and so is the frame of a command
that uses it: no two commands share a word. -/
def Obligations.EncodeOfDecode : Prop :=
  ∀ (c : Command) (i : Instr), decode c = .ok i →
    (encode i).cmd = c.cmd ∧ (i.usesFrame = true → (encode i).frame = c.frame)

/-- R62, R70: the decoder accepts a command exactly when its word matches a row of the opcode table, and then exactly
one row. -/
def Obligations.LegalWordsAreTableRows : Prop :=
  ∀ c : Command,
    ((∃ i, decode c = .ok i) ↔ ∃ r ∈ opcodeRows, c.cmd &&& r.mask = r.mtch) ∧
    ∀ r ∈ opcodeRows, ∀ r' ∈ opcodeRows, c.cmd &&& r.mask = r.mtch → c.cmd &&& r'.mask = r'.mtch → r = r'

/-- R61: the decoder's checks in their order: the opcode, then RSV, then the ARG bits outside ARGMASK; and a refused
word is answered by ILLEGAL_COMMAND, STATUS 7 and every other field 0, with no state written. -/
def Obligations.DecodeChecksInOrder : Prop :=
  ∀ (c : Command) (s : State),
    (argMask (c.cmd.extractLsb' 24 8) = none → decode c = .error .unknownOpcode) ∧
    (∀ m, argMask (c.cmd.extractLsb' 24 8) = some m → c.cmd.extractLsb' 16 8 ≠ 0#8 →
      decode c = .error .reservedNotZero) ∧
    (∀ m, argMask (c.cmd.extractLsb' 24 8) = some m → c.cmd.extractLsb' 16 8 = 0#8 →
      c.cmd.extractLsb' 0 16 &&& ~~~m ≠ 0#16 → decode c = .error .argOutsideMask) ∧
    (∀ m, argMask (c.cmd.extractLsb' 24 8) = some m → c.cmd.extractLsb' 16 8 = 0#8 →
      c.cmd.extractLsb' 0 16 &&& ~~~m = 0#16 →
      ∃ i, decode c = .ok i ∧ commitCommand c s = exec i { s with executing := none }) ∧
    (∀ e, decode c = .error e →
      commitCommand c s = .next { s with executing := none, rsp := 7#144, rspValid := true })

/-- R40, R41: the bytes of a frame, the received checksum and the payload word, as parts of the 64-bit number. -/
def Obligations.FrameBytesBigEndian : Prop :=
  ∀ f : Frame,
    (∀ k : Fin 8, byteNat f k = f.toNat / 2 ^ (56 - 8 * k.val) % 256) ∧
    (receivedCrc f).toNat = byteNat f 6 * 256 + byteNat f 7 ∧
    payloadWord f = byteNat f 3 * 256 + byteNat f 4 ∧
    frameOfBytes (frameByte f 0) (frameByte f 1) (frameByte f 2) (frameByte f 3) (frameByte f 4) (frameByte f 5)
      (frameByte f 6) (frameByte f 7) = f

/-- R72, R73: every pseudo-command and its expansion over the whole range of its operand, and the pair (CMD, FRAME) of
every mnemonic of every shape; a frame command without a frame gets zeros. The lines here are parsed ones; their
characters are AssemblerText. -/
def Obligations.AssemblerLines : Prop :=
  (∀ d : Nat, d ≤ 409 → assemble (.windObserveDeg d) = some [.windObserve (BitVec.ofNat 16 (160 * d))]) ∧
  assemble (.windObserveCode 0) = some [.windObserve 0#16] ∧
  (∀ c : Nat, 1 ≤ c → c ≤ 255 →
    assemble (.windObserveCode c) = some [.windObserve (BitVec.ofNat 16 (225 * c + 48))]) ∧
  (∀ n : Nat, 1 ≤ n → n ≤ 8 →
    assemble (.setStation n) = some [.cfgWrite (BitVec.ofNat 3 (n - 1)) .formulaA] ∧
    assemble (.setStationB n) = some [.cfgWrite (BitVec.ofNat 3 (n - 1)) .formulaB]) ∧
  (∀ f : Frame, assemble (.checkAndProcess (some f)) = some [.crcCheck f, .frameProcess f]) ∧
  assemble (.checkAndProcess none) = some [.crcCheck 0#64, .frameProcess 0#64] ∧
  (∀ p ∈ frameMnemonics, ∀ f : Frame,
    assembleWords (.frameCommand p.1 (some f)) = some [⟨p.2, f⟩] ∧
    assembleWords (.frameCommand p.1 none) = some [⟨p.2, 0#64⟩]) ∧
  (∀ c : Nat, c ≤ 127 → assembleWords (.rainObserve c) = some [⟨BitVec.ofNat 32 (0x30000000 + c), 0#64⟩]) ∧
  (∀ h : Nat, h ≤ 65535 → assembleWords (.windObserve h) = some [⟨BitVec.ofNat 32 (0x40000000 + h), 0#64⟩]) ∧
  (∀ e : Nat, e ≤ 7 →
    assembleWords (.cfgWrite e .formulaA) = some [⟨BitVec.ofNat 32 (0x60000000 + e), 0#64⟩] ∧
    assembleWords (.cfgWrite e .formulaB) = some [⟨BitVec.ofNat 32 (0x60000008 + e), 0#64⟩]) ∧
  (∀ b0 b1 b2 b3 b4 b5 b6 b7 : Byte,
    assembleWords (.frameCommand "FRAME_PROCESS" (some (frameOfBytes b0 b1 b2 b3 b4 b5 b6 b7))) =
      some [⟨0x50000000#32, b0 ++ b1 ++ b2 ++ b3 ++ b4 ++ b5 ++ b6 ++ b7⟩]) ∧
  assembleWords (.plain "RAIN_STATUS") = some [⟨0x31000000#32, 0#64⟩] ∧
  assembleWords (.plain "WIND_STATUS") = some [⟨0x41000000#32, 0#64⟩] ∧
  assembleWords (.plain "CFG_READ") = some [⟨0x61000000#32, 0#64⟩]

/-! ### Response -/

/-- R64: where each field of a response stands in RSP. -/
def Obligations.ResponseLayout : Prop :=
  ∀ r : Response,
    (packResponse r).extractLsb' 0 4 = r.status ∧
    (packResponse r).extractLsb' 4 8 = r.flags ∧
    (packResponse r).extractLsb' 12 32 = r.value ∧
    (packResponse r).extractLsb' 44 32 = r.aux ∧
    (packResponse r).extractLsb' 76 2 = r.outcome ∧
    (packResponse r).extractLsb' 78 5 = r.reached ∧
    (packResponse r).extractLsb' 83 4 = r.hdrStation ∧
    (packResponse r).extractLsb' 87 1 = r.hdrBattery ∧
    (packResponse r).extractLsb' 88 4 = r.hdrType ∧
    (packResponse r).extractLsb' 92 8 = r.windSpeed ∧
    (packResponse r).extractLsb' 100 16 = r.windDirQ ∧
    (packResponse r).extractLsb' 116 4 = r.avgStatus ∧
    (packResponse r).extractLsb' 120 9 = r.avgDeg ∧
    (packResponse r).extractLsb' 129 7 = r.rainTips ∧
    (packResponse r).extractLsb' 136 1 = r.rainFirst ∧
    (packResponse r).extractLsb' 137 7 = 0#7

/-! ### The ports, reset and the step -/

/-- R31, R61, R74: when a command is executing and rst is low, a step is the meaning of the decoded command, on the
state with the command taken out and this step's input sample used up. -/
def Obligations.StepRunsDecodedCommand : Prop :=
  ∀ (s : State) (c : Command) (i : Instr),
    s.executing = some c → (s.inputs.headD PortSample.idle).rst = false → decode c = .ok i →
    step s = exec i { s with executing := none, inputs := s.inputs.tail }

/-- The next step after withFetchWord runs the instruction that the decoder reads from the same bits (log entries 8
and 10). -/
def Obligations.FetchedWordRuns : Prop :=
  ∀ (s : State) (nbits w : Nat) (i : Instr), decodeTableWord nbits w = some i →
    step (s.withFetchWord nbits w) = exec i { s with executing := none, rspValid := false }

/-- R231: a command whose word matches no row answers STATUS 7 with every other field 0 and writes no state, and the
next command is executed as if it had not been there. The second clause compares two runs whose draw counters are equal,
so a heading drawn by the next command is the same in both: that is the model's choice (log entry 4), and R231 says only
that the next command decodes normally. -/
def Obligations.IllegalCommandAnswer : Prop :=
  ∀ (s : State) (c : Command), s.executing = some c → (s.inputs.headD PortSample.idle).rst = false →
    c.wellFormed = false →
    step s = .next { s with executing := none, inputs := s.inputs.tail, rsp := 7#144, rspValid := true } ∧
    ∀ d : Command,
      commitCommand d { s with executing := some d, rsp := 7#144, rspValid := false } =
        commitCommand d { s with executing := some d }

/-- R260: while rst is high every state element of the block takes its reset value, whatever was in flight (R261),
and the block is idle (R262). RSP is not stated: the spec leaves it open. -/
def Obligations.ResetFromAnyState : Prop :=
  ∀ s : State, (s.inputs.headD PortSample.idle).rst = true →
    ∃ t, step s = .next t ∧ t.cfg = 0#16 ∧ t.rain.primed = false ∧ t.rain.baseline = 0#7 ∧ t.win = [] ∧
      t.rspValid = false ∧ t.executing = none ∧ cmdReady t = true

/-- R32, R260: the state after reset. -/
def Obligations.ResetState : Prop :=
  State.reset.cfg = 0#16 ∧ State.reset.rain.primed = false ∧ State.reset.rain.baseline = 0#7 ∧
  State.reset.win = [] ∧ State.reset.rspValid = false ∧ State.reset.executing = none ∧
  cmdReady State.reset = true

/-- R29, R74: cmd_ready, acceptance, and the waits: with rst low a command is taken exactly when it is offered and the
block is ready, with the word and frame of that step, and a response is cleared exactly when the host takes it. That a
command offered while a response is pending leaves no trace is 93_implementation_defined.md I21 and log entry 9 (R75
gives no outcome for a host that breaks the handshake), and that taking a response and accepting the next command are two
steps is log entry 20. -/
def Obligations.PortsHandshake : Prop :=
  ∀ s : State, (s.inputs.headD PortSample.idle).rst = false →
    (cmdReady s = true ↔ s.executing = none ∧ s.rspValid = false) ∧
    (outputPorts s).2.1 = s.rspValid ∧ (outputPorts s).2.2 = s.rsp ∧
    (cmdReady s = true → (s.inputs.headD PortSample.idle).cmdValid = true →
      step s = .next
        { s with executing := some (s.inputs.headD PortSample.idle).command, inputs := s.inputs.tail }) ∧
    (cmdReady s = true → (s.inputs.headD PortSample.idle).cmdValid = false →
      step s = .next { s with inputs := s.inputs.tail }) ∧
    (s.executing = none → s.rspValid = true → (s.inputs.headD PortSample.idle).rspReady = true →
      step s = .next { s with rspValid := false, inputs := s.inputs.tail }) ∧
    (s.executing = none → s.rspValid = true → (s.inputs.headD PortSample.idle).rspReady = false →
      step s = .next { s with inputs := s.inputs.tail })

/-- R29, R31, R74: a whole exchange: a ready block is offered a legal command, executes it, and the host takes the
response: three steps leave exactly what the command's meaning leaves, with RSP_VALID clear. That the exchange takes three
consecutive samples is the model's choice (log entries 3 and 20): R275 leaves the latency open. -/
def Obligations.CommandExchange : Prop :=
  ∀ (s t : State) (i : Instr) (p q : PortSample) (rest : List PortSample),
    s.executing = none → s.rspValid = false →
    s.inputs = ⟨false, true, encode i, false⟩ :: p :: q :: rest →
    p.rst = false → q.rst = false → q.rspReady = true →
    exec i { s with inputs := rest } = .next t →
    Host.Core.run Sys2Proof.core 3 s = .next { t with rspValid := false }

/-- R4, R234: no step stops the machine or changes the open parameters, and a step that executes a command always ends
it with a response. -/
def Obligations.EveryStepAnswers : Prop :=
  ∀ s : State, ∃ t, step s = .next t ∧ t.params = s.params ∧
    (s.executing.isSome = true → (s.inputs.headD PortSample.idle).rst = false →
      t.executing = none ∧ t.rspValid = true)

/-- R23, R49, R66: what a command does depends on no earlier response: RSP, RSP_VALID and the port samples are not
read. The two runs start from equal draw counters, so a free draw is held equal in both (log entry 4): the statement does
not say that two runs of the block draw the same heading. -/
def Obligations.ResponseRegisterNotRead : Prop :=
  ∀ (i : Instr) (s t : State) (w : RspWord) (v : Bool) (ps : List PortSample), exec i s = .next t →
    exec i { s with rsp := w, rspValid := v, inputs := ps } = .next { t with inputs := ps }

/-- The invariant of Safety.lean holds at reset. -/
def Obligations.InvariantAtReset : Prop := Inv State.reset

/-- R22, R26, R64 to R69, R74, R206: every step from a state that meets the invariant leaves a state that meets it. -/
def Obligations.InvariantKept : Prop := ∀ s t : State, Inv s → step s = .next t → Inv t

/-! ### Checksum -/

/-- R80, R81: the frame checksum in number arithmetic. -/
def Obligations.FrameCrcArithmetic : Prop :=
  (∀ (c : BitVec 16) (b : Byte), (crcStep c b).toNat = crcStepNat c.toNat b.toNat) ∧
  ∀ f : Frame, (frameCrc f).toNat =
    crcStepNat (crcStepNat (crcStepNat (crcStepNat (crcStepNat (crcStepNat 0 (byteNat f 0)) (byteNat f 1))
      (byteNat f 2)) (byteNat f 3)) (byteNat f 4)) (byteNat f 5)

/-- R82: masking once, after the 8 shifts of a byte, gives the same 16 bits as masking after every shift. -/
def Obligations.MaskOncePerByte : Prop :=
  ∀ (c : BitVec 16) (b : Byte),
    (crcStep c b).toNat = unmaskedRound^[8] (c.toNat ^^^ (b.toNat <<< 8)) &&& 0xFFFF

/-- R86.1: the checksum is linear over GF(2). -/
def Obligations.CrcLinear : Prop :=
  ∀ f g : Frame, frameCrc (f ^^^ g) = frameCrc f ^^^ frameCrc g

/-- R86.2: every one of the 64 single-bit flips of a valid frame is invalid, and no prefix with one bit set has a
checksum below 0x022D, the smallest there is. -/
def Obligations.SingleBitFlipRejected : Prop :=
  (∀ k : Nat, 16 ≤ k → k < 64 → 0x022D ≤ (frameCrc (1#64 <<< k)).toNat) ∧
  (∃ k : Nat, 16 ≤ k ∧ k < 64 ∧ (frameCrc (1#64 <<< k)).toNat = 0x022D) ∧
  ∀ (f : Frame) (k : Nat), k < 64 → frameValid f = true → frameValid (f ^^^ (1#64 <<< k)) = false

/-- R86.3: exactly 2^32 of the 2^48 prefixes have checksum 0, and as many have any other checksum; a prefix of checksum 0
makes no valid frame, whatever bytes 6 and 7 hold, and any other prefix makes exactly one. -/
def Obligations.PrefixesPerCrc : Prop :=
  (∀ c : BitVec 16, Nat.card (Subtype fun p : BitVec 48 => frameCrc (p ++ 0#16) = c) = 2 ^ 32) ∧
  ∀ (p : BitVec 48) (q : BitVec 16),
    frameValid (p ++ q) = true ↔ q = frameCrc (p ++ 0#16) ∧ frameCrc (p ++ 0#16) ≠ 0#16

/-- R83, R84, R85: CRC_COMPUTE, and CRC_CHECK with the zero guard. -/
def Obligations.CrcCommandResults : Prop :=
  EncodedAs 0x01000000#32 0xFFFFFFFF#32 (fun _ f => .crcCompute f) ∧
  EncodedAs 0x02000000#32 0xFFFFFFFF#32 (fun _ f => .crcCheck f) ∧
  (∀ f : Frame, frameValid f = true ↔ ChecksumPasses f) ∧
  (∀ f : Frame, frameCrc f = 0#16 → frameValid f = false) ∧
  ∀ (f : Frame) (s : State),
    exec (.crcCompute f) s = .next
      { s with
        rsp := packResponse
          { value := num32 (frameCrc f).toNat, aux := num32 (byteNat f 6 * 256 + byteNat f 7) }
        rspValid := true } ∧
    exec (.crcCheck f) s = .next
      { s with
        rsp := packResponse
          { status := if ChecksumPasses f then 0#4 else 3#4
            value := if ChecksumPasses f then 1#32 else 0#32
            aux := num32 ((byteNat f 6 * 256 + byteNat f 7) * 65536 + (frameCrc f).toNat) }
        rspValid := true }

/-! ### Header -/

/-- R103, R104, R105: the three header commands. -/
def Obligations.HeaderResults : Prop :=
  EncodedAs 0x10000000#32 0xFFFFFFFF#32 (fun _ f => .hdrStationId f) ∧
  EncodedAs 0x11000000#32 0xFFFFFFFF#32 (fun _ f => .hdrBatteryLow f) ∧
  EncodedAs 0x12000000#32 0xFFFFFFFF#32 (fun _ f => .hdrSensorType f) ∧
  ∀ (f : Frame) (s : State),
    exec (.hdrStationId f) s = .next
      { s with rsp := packResponse { value := num32 (byteNat f 0 % 8 + 1) }, rspValid := true } ∧
    exec (.hdrBatteryLow f) s = .next
      { s with rsp := packResponse { value := num32 (byteNat f 0 / 8 % 2) }, rspValid := true } ∧
    exec (.hdrSensorType f) s = .next
      { s with
        rsp := packResponse
          { status := if nibble f ∈ knownNibbles then 0#4 else 5#4, value := num32 (nibble f) }
        rspValid := true }

/-! ### Field decoders -/

/-- R123, R125: the two decoders of fields present in every frame. -/
def Obligations.WindDecoderResults : Prop :=
  EncodedAs 0x20000000#32 0xFFFFFFFF#32 (fun _ f => .decWindSpeed f) ∧
  EncodedAs 0x21000000#32 0xFFFFFFFF#32 (fun _ f => .decWindDir f) ∧
  ∀ (f : Frame) (s : State),
    exec (.decWindSpeed f) s = .next
      { s with rsp := packResponse (rangeAnswer (byteNat f 1 ≤ 240) (byteNat f 1) 0#8), rspValid := true } ∧
    exec (.decWindDir f) s = .next
      { s with
        rsp := packResponse
          { value := num32 (byteNat f 2), flags := if byteNat f 2 = 0 then 0x04#8 else 0#8
            aux := num32 (headingNumber (byteNat f 2)) }
        rspValid := true }

/-- R126, R131, R132, R133, R136: the payload decoders with one extraction and an upper bound. -/
def Obligations.PlainDecoderResults : Prop :=
  EncodedAs 0x22000000#32 0xFFFFFFFF#32 (fun _ f => .decWindGust f) ∧
  EncodedAs 0x25000000#32 0xFFFFFFFF#32 (fun _ f => .decRainCounter f) ∧
  EncodedAs 0x26000000#32 0xFFFFFFFF#32 (fun _ f => .decTemperature f) ∧
  EncodedAs 0x27000000#32 0xFFFFFFFF#32 (fun _ f => .decHumidity f) ∧
  EncodedAs 0x2A000000#32 0xFFFFFFFF#32 (fun _ f => .decCapVoltage f) ∧
  ∀ (f : Frame) (s : State),
    exec (.decWindGust f) s = .next
      { s with
        rsp := packResponse (typedAnswer 0x9 f (rangeAnswer (byteNat f 3 ≤ 240) (byteNat f 3) 0#8))
        rspValid := true } ∧
    exec (.decRainCounter f) s = .next
      { s with
        rsp := packResponse (typedAnswer 0xE f (rangeAnswer true (byteNat f 3 % 128 : Nat) 0#8))
        rspValid := true } ∧
    exec (.decTemperature f) s = .next
      { s with
        rsp := packResponse (typedAnswer 0x8 f
          (rangeAnswer ((byteNat f 3 * 256 + byteNat f 4) / 16 ≤ 1300)
            ((byteNat f 3 * 256 + byteNat f 4) / 16 : Nat) 0#8))
        rspValid := true } ∧
    exec (.decHumidity f) s = .next
      { s with
        rsp := packResponse (typedAnswer 0xA f
          (rangeAnswer (byteNat f 4 / 16 * 256 + byteNat f 3 ≤ 1000)
            (byteNat f 4 / 16 * 256 + byteNat f 3 : Nat) 0#8))
        rspValid := true } ∧
    exec (.decCapVoltage f) s = .next
      { s with
        rsp := packResponse (typedAnswer 0x2 f
          (rangeAnswer (byteNat f 3 * 4 + byteNat f 4 / 64 ≤ 1000) (byteNat f 3 * 4 + byteNat f 4 / 64 : Nat) 0#8))
        rspValid := true }

/-- R127 to R130: the two rain-rate formulas; formula A has the strict guard of 10 s, formula B none. -/
def Obligations.RainRateResults : Prop :=
  EncodedAs 0x23000000#32 0xFFFFFFFF#32 (fun _ f => .decRainRateA f) ∧
  EncodedAs 0x24000000#32 0xFFFFFFFF#32 (fun _ f => .decRainRateB f) ∧
  ∀ (f : Frame) (s : State),
    exec (.decRainRateA f) s = .next
      { s with
        rsp := packResponse (typedAnswer 0x5 f
          (rangeAnswer (0 ≤ rainANumber f && rainANumber f ≤ 3600 && 10 < rainANumber f) (rainANumber f)
            (heavyBits f)))
        rspValid := true } ∧
    exec (.decRainRateB f) s = .next
      { s with
        rsp := packResponse (typedAnswer 0x5 f
          (rangeAnswer true (byteNat f 4 / 16 % 4 * 250 + byteNat f 3 : Nat) (0x10#8 ||| heavyBits f)))
        rspValid := true }

/-- R134, R135: solar radiation and UV index: B(3) = 0xFF is offline, value 0 and OK whatever B(4) holds. -/
def Obligations.SolarUvResults : Prop :=
  EncodedAs 0x28000000#32 0xFFFFFFFF#32 (fun _ f => .decSolar f) ∧
  EncodedAs 0x29000000#32 0xFFFFFFFF#32 (fun _ f => .decUv f) ∧
  ∀ (f : Frame) (s : State),
    exec (.decSolar f) s = .next
      { s with
        rsp := packResponse (typedAnswer 0x6 f
          (if byteNat f 3 = 255 then { flags := 0x01#8 }
            else rangeAnswer (5 ≤ (byteNat f 3 * 256 + byteNat f 4) / 16)
              ((byteNat f 3 * 256 + byteNat f 4) / 16 : Nat) 0#8))
        rspValid := true } ∧
    exec (.decUv f) s = .next
      { s with
        rsp := packResponse (typedAnswer 0x4 f
          (if byteNat f 3 = 255 then { flags := 0x01#8 }
            else rangeAnswer
              (4 ≤ (byteNat f 3 * 256 + byteNat f 4) / 16 && (byteNat f 3 * 256 + byteNat f 4) / 16 ≤ 3204)
              ((byteNat f 3 * 256 + byteNat f 4) / 16 : Nat) 0#8))
        rspValid := true }

/-- R121, R122: for every frame, the check on the exact physical value, with its bounds, is the check on the raw
integer; an OFFLINE value is always in range. -/
def Obligations.RangeCheckOnRaw : Prop :=
  ∀ f : Frame,
    (validOf .windSpeed f ↔ byteNat f 1 ≤ 240) ∧
    (validOf .windDir f ∧ 0 ≤ physOf .windDir f ∧ physOf .windDir f ≤ 57423 / 160) ∧
    (validOf .windGust f ↔ byteNat f 3 ≤ 240) ∧
    (validOf .rainRateA f ↔ 11 ≤ fieldRaw .rainRateA f) ∧
    (-1 ≤ fieldRaw .rainRateA f ∧ fieldRaw .rainRateA f ≤ 3071) ∧
    (validOf .rainRateB f ∧ 0 ≤ physOf .rainRateB f ∧ physOf .rainRateB f ≤ 1005) ∧
    validOf .rainCounter f ∧
    (validOf .temperature f ↔ fieldRaw .temperature f ≤ 1300) ∧
    (validOf .temperature f ↔ -100 ≤ (fieldRaw .temperature f : ℚ) / 10 ∧ (fieldRaw .temperature f : ℚ) / 10 ≤ 130) ∧
    0 ≤ physOf .temperature f ∧
    (validOf .humidity f ↔ fieldRaw .humidity f ≤ 1000) ∧
    (validOf .humidity f ↔ 0 ≤ (fieldRaw .humidity f : ℚ) / 10 ∧ (fieldRaw .humidity f : ℚ) / 10 ≤ 100) ∧
    (byteNat f 3 ≠ 255 →
      (validOf .solar f ↔ 5 ≤ fieldRaw .solar f) ∧
      (validOf .solar f ↔ 0 ≤ ((fieldRaw .solar f : ℚ) - 4) * 100 / 227 - 311 / 1250 ∧
        ((fieldRaw .solar f : ℚ) - 4) * 100 / 227 - 311 / 1250 ≤ 2000) ∧
      (validOf .uv f ↔ 4 ≤ fieldRaw .uv f ∧ fieldRaw .uv f ≤ 3204) ∧
      (validOf .uv f ↔ 0 ≤ ((fieldRaw .uv f : ℚ) - 4) / 200 ∧ ((fieldRaw .uv f : ℚ) - 4) / 200 ≤ 16)) ∧
    (byteNat f 3 = 255 → physOf .solar f = 0 ∧ validOf .solar f ∧ physOf .uv f = 0 ∧ validOf .uv f) ∧
    (validOf .capVoltage f ↔ fieldRaw .capVoltage f ≤ 1000) ∧
    (validOf .capVoltage f ↔
      0 ≤ (fieldRaw .capVoltage f : ℚ) / 100 ∧ (fieldRaw .capVoltage f : ℚ) / 100 ≤ 10)

/-- R124: the heading word is the decoded heading in units of 1/160 degree, with no loss. -/
def Obligations.HeadingWordExact : Prop :=
  ∀ c : Byte,
    ((headingWord c).toNat : ℚ) / 160 = (if c = 0#8 then 0 else (c.toNat : ℚ) * 45 / 32 + 3 / 10) ∧
    (c ≠ 0#8 → (headingWord c).toNat = 225 * c.toNat + 48 ∧ 273 ≤ (headingWord c).toNat ∧
      (headingWord c).toNat ≤ 57423)

/-! ### Rain accumulator -/

/-- R160, R163: RAIN_OBSERVE, and the delta of the observation in inches. -/
def Obligations.RainObserveResult : Prop :=
  EncodedAs 0x30000000#32 0xFFFFFF80#32 (fun w _ => .rainObserve (w.extractLsb' 0 7)) ∧
  ∀ (c : BitVec 7) (s : State), exec (.rainObserve c) s = .next
    { s with
      rain := ⟨true, c⟩
      rsp := packResponse
        { value := num32 (tipsNumber c s.rain), aux := num32 c.toNat
          flags := if s.rain.primed then 0x20#8 else 0x28#8 }
      rspValid := true } ∧
    rainObserveInches c s.rain = (tipsNumber c s.rain : ℚ) / 100

/-- R161: a primed observation equal to the baseline writes no state and counts nothing, and so does any repeat. -/
def Obligations.RainRepeatIsNoOp : Prop :=
  ∀ (c : BitVec 7) (s : State),
    (s.rain.primed = true → c = s.rain.baseline →
      exec (.rainObserve c) s = .next
        { s with rsp := packResponse { aux := num32 c.toNat, flags := 0x20#8 }, rspValid := true }) ∧
    ∀ t, exec (.rainObserve c) s = .next t →
      ∃ u, exec (.rainObserve c) t = .next u ∧ u.rain = t.rain ∧ u.response.value = 0#32

/-- R162: while primed the tips are the difference mod 128, from 1 to 127 when the value changed; a first observation
gives 0. -/
def Obligations.RainTipsModulo128 : Prop :=
  ∀ (c : BitVec 7) (r : RainState),
    (r.primed = true → ((rainObserve c r).2.1.toNat : ℤ) = ((c.toNat : ℤ) - r.baseline.toNat) % 128) ∧
    (r.primed = true → c ≠ r.baseline →
      1 ≤ (rainObserve c r).2.1.toNat ∧ (rainObserve c r).2.1.toNat ≤ 127) ∧
    (r.primed = false → (rainObserve c r).2.1 = 0#7)

/-- R164, R188, R211: the three commands that only report state: RAIN_STATUS, WIND_STATUS and CFG_READ. -/
def Obligations.StatusCommandResults : Prop :=
  EncodedAs 0x31000000#32 0xFFFFFFFF#32 (fun _ _ => .rainStatus) ∧
  EncodedAs 0x41000000#32 0xFFFFFFFF#32 (fun _ _ => .windStatus) ∧
  EncodedAs 0x61000000#32 0xFFFFFFFF#32 (fun _ _ => .cfgRead) ∧
  ∀ s : State,
    exec .rainStatus s = .next
      { s with
        rsp := packResponse
          { value := num32 s.rain.baseline.toNat, flags := if s.rain.primed then 0x20#8 else 0#8 }
        rspValid := true } ∧
    exec .windStatus s = .next
      { s with
        rsp := packResponse
          { value := num32 s.win.length, flags := if s.win.length = 30 then 0x40#8 else 0#8 }
        rspValid := true } ∧
    exec .cfgRead s = .next
      { s with rsp := packResponse { value := num32 s.cfg.toNat }, rspValid := true }

/-! ### Wind averager -/

/-- R182 to R187: WIND_OBSERVE for every window: the append and INSUFFICIENT_DATA while it holds fewer than 30 samples,
then the shift and a heading that the real-number rule of the mean admits. How bands of WIND_EPS that overlap admit
headings is log entry 11. The headings a full window can answer are exactly those the rule admits: the free value of log
entry 4 picks one of them, and each is the pick of some free value; at an exact tie both neighbours are among them. -/
def Obligations.WindObserveResult : Prop :=
  EncodedAs 0x40000000#32 0xFFFF0000#32 (fun w _ => .windObserve (w.extractLsb' 0 16)) ∧
  (∀ (h : HeadingWord) (s : State), ∃ (w : List HeadingWord) (a : Option Nat) (d : Nat),
    WindStep h s w a d ∧
    exec (.windObserve h) s = .next
      { s with
        win := w, draws := d
        rsp := packResponse
          { status := if a = none then 6#4 else 0#4, value := num32 (a.getD 0), aux := num32 w.length
            flags := if w.length = 30 then 0x40#8 else 0#8 }
        rspValid := true }) ∧
  (∀ (h : HeadingWord) (s t : State), 30 ≤ s.win.length → exec (.windObserve h) s = .next t →
    t.response.value = num32 (drawFrom (meanChoices s.params t.win) (Config.freeDraw s.draws))) ∧
  (∀ (p : WindParams) (w : List HeadingWord) (n : Nat),
    (n ∈ meanChoices p w ↔ meanAdmits p w n) ∧
    (meanAdmits p w n ↔ ∃ free, drawFrom (meanChoices p w) free = n)) ∧
  ∀ (p : WindParams) (w : List HeadingWord) (k : Nat), toleranceValue p.rmin < resultant w →
    meanDegrees w = (k : ℝ) + 1 / 2 → k ∈ meanChoices p w ∧ (k + 1) % 360 ∈ meanChoices p w

/-- R183, R272: an observation reports INSUFFICIENT_DATA exactly while fewer than 30 samples stood in the window before
it, the 30th included; no command shortens the window, and an observation lengthens it up to 30. -/
def Obligations.WarmUpThirtySamples : Prop :=
  ∀ (i : Instr) (s t : State), s.win.length ≤ 30 → exec i s = .next t →
    s.win.length ≤ t.win.length ∧ t.win.length ≤ 30 ∧
    (∀ h, i = .windObserve h →
      t.win.length = min (s.win.length + 1) 30 ∧ (t.response.status = 6#4 ↔ s.win.length < 30)) ∧
    (∀ f, i = .frameProcess f → t.response.reached.getLsbD 2 = true →
      t.win.length = min (s.win.length + 1) 30 ∧ (t.response.avgStatus = 6#4 ↔ s.win.length < 30))

/-- R189.1, with the default parameters: 30 copies of one heading that is not half way between two degrees give that
heading rounded. -/
def Obligations.IdenticalHeadingsMean : Prop :=
  ∀ (h : HeadingWord) (s : State), s.params = WindParams.default → s.win = List.replicate 30 h →
    h.toNat % 160 ≠ 80 →
    exec (.windObserve h) s = .next
      { s with
        rsp := packResponse
          { value := num32 ((h.toNat + 80) / 160 % 360), aux := 30#32, flags := 0x40#8 }
        rspValid := true }

/-- R189.2, with the default parameters: 15 headings of 10 degrees and 15 of 350 degrees, in any order, give 0. -/
def Obligations.SymmetricHeadingsMean : Prop :=
  ∀ (h : HeadingWord) (s : State), s.params = WindParams.default → s.win.length = 30 →
    (s.win.drop 1 ++ [h]).Perm (List.replicate 15 1600#16 ++ List.replicate 15 56000#16) →
    exec (.windObserve h) s = .next
      { s with
        win := s.win.drop 1 ++ [h]
        rsp := packResponse { value := 0#32, aux := 30#32, flags := 0x40#8 }
        rspValid := true }

/-- R186, R189.4: thirty equally spaced headings have resultant 0, so the mean may be any of the 360 headings. -/
def Obligations.EquallySpacedHeadingsDraw : Prop :=
  ∀ (p : WindParams) (w : List HeadingWord),
    w.Perm ((List.range 30).map fun k => BitVec.ofNat 16 (1920 * k)) →
    resultant w = 0 ∧ ∀ n : Nat, n < 360 ↔ n ∈ meanChoices p w

/-- R4: larger parameters only admit more headings, for every window. -/
def Obligations.ParametersOnlyAdmitMore : Prop :=
  ∀ (p q : WindParams) (w : List HeadingWord),
    p.eps.num * q.eps.den ≤ q.eps.num * p.eps.den → p.rmin.num * q.rmin.den ≤ q.rmin.num * p.rmin.den →
    ∀ n ∈ meanChoices p w, n ∈ meanChoices q w

/-- R180: a heading word of a full turn or more has the unit vector of the word less a full turn. -/
def Obligations.HeadingsPastFullTurn : Prop :=
  ∀ (h : HeadingWord), 57600 ≤ h.toNat →
    Real.cos (headingAngle h) = Real.cos (headingAngle (h - 57600#16)) ∧
    Real.sin (headingAngle h) = Real.sin (headingAngle (h - 57600#16))

/-- R27: the ring buffer: its logical view is empty at reset, an append does to it what R182 does to the window, and
the head stays 0 until it is full. -/
def Obligations.RingBufferRefinesWindow : Prop :=
  (∀ b : Vector HeadingWord 30, ringLogical (ringReset b) = [] ∧ ringWf (ringReset b) = true) ∧
  ∀ (r : RingWindow) (h : HeadingWord), ringWf r = true →
    ringWf (ringAppend h r) = true ∧
    (ringLogical r).length = r.fill.val ∧
    ringLogical (ringAppend h r) =
      if r.fill.val < 30 then ringLogical r ++ [h] else (ringLogical r).drop 1 ++ [h]

/-! ### Frame sequencer -/

/-- R202: the two gates that reject the whole frame and write no state. -/
def Obligations.WholeFrameGates : Prop :=
  EncodedAs 0x50000000#32 0xFFFFFFFF#32 (fun _ f => .frameProcess f) ∧
  ∀ (f : Frame) (s : State),
    (¬ ChecksumPasses f → exec (.frameProcess f) s = .next
      { s with
        rsp := packResponse
          { status := 3#4, outcome := 2#2
            aux := num32 ((byteNat f 6 * 256 + byteNat f 7) * 65536 + (frameCrc f).toNat) }
        rspValid := true }) ∧
    (ChecksumPasses f → ¬ StationPasses f s → exec (.frameProcess f) s = .next
      { s with
        rsp := packResponse (withHeader f { status := 4#4, outcome := 2#2, reached := 0b00001#5 })
        rspValid := true })

/-- R203: the speed gate: a wind speed above 240 rejects the frame, feeds no heading and writes no state. -/
def Obligations.WindSpeedGate : Prop :=
  ∀ (f : Frame) (s : State), ChecksumPasses f → StationPasses f s → 240 < byteNat f 1 →
    exec (.frameProcess f) s = .next
      { s with
        rsp := packResponse
          (withHeader f { status := 2#4, outcome := 2#2, reached := 0b00001#5, value := num32 (byteNat f 1) })
        rspValid := true }

/-- R203, R205, R206: an unrecognized sensor nibble: the heading is fed and the WIN write kept. -/
def Obligations.UnrecognizedNibbleFrame : Prop :=
  ∀ (f : Frame) (s : State), ReachesWind f s → nibble f ∉ knownNibbles →
    ∃ (w : List HeadingWord) (a : Option Nat) (d : Nat),
      WindStep (BitVec.ofNat 16 (headingNumber (byteNat f 2))) s w a d ∧
      exec (.frameProcess f) s = .next
        { s with
          win := w, draws := d
          rsp := packResponse (withWind f a
            { status := 5#4, outcome := 3#2, reached := 0b00111#5, value := num32 (nibble f) })
          rspValid := true }

/-- R137, R204, R205, R206: a payload the decoder rejects: STATUS, VALUE and FLAGS of the standalone command, OUTCOME
REJECTED, the WIN write kept. -/
def Obligations.PayloadRejectedFrame : Prop :=
  ∀ (f : Frame) (s : State) (i : Instr) (r : Response), ReachesWind f s → dispatchedCommand f s = some i →
    exec i s = .next { s with rsp := packResponse r, rspValid := true } → r.status ≠ 0#4 →
    ∃ (w : List HeadingWord) (a : Option Nat) (d : Nat),
      WindStep (BitVec.ofNat 16 (headingNumber (byteNat f 2))) s w a d ∧
      exec (.frameProcess f) s = .next
        { s with
          win := w, draws := d
          rsp := packResponse (withWind f a
            { status := r.status, outcome := 2#2, reached := 0b01111#5, value := r.value, flags := r.flags })
          rspValid := true }

/-- R137, R204, R206: a payload other than the rain counter that decodes: the standalone command's VALUE and FLAGS,
OUTCOME UPDATED, AUX 0. -/
def Obligations.PayloadAppliedFrame : Prop :=
  ∀ (f : Frame) (s : State) (i : Instr) (r : Response), ReachesWind f s → dispatchedCommand f s = some i →
    exec i s = .next { s with rsp := packResponse r, rspValid := true } → r.status = 0#4 → nibble f ≠ 0xE →
    ∃ (w : List HeadingWord) (a : Option Nat) (d : Nat),
      WindStep (BitVec.ofNat 16 (headingNumber (byteNat f 2))) s w a d ∧
      exec (.frameProcess f) s = .next
        { s with
          win := w, draws := d
          rsp := packResponse (withWind f a
            { outcome := 1#2, reached := 0b01111#5, value := r.value, flags := r.flags })
          rspValid := true }

/-- R160, R204, R206: a rain-counter frame: the counter is decoded and observed. -/
def Obligations.RainCounterFrame : Prop :=
  ∀ (f : Frame) (s : State), ReachesWind f s → nibble f = 0xE →
    ∃ (w : List HeadingWord) (a : Option Nat) (d : Nat),
      WindStep (BitVec.ofNat 16 (headingNumber (byteNat f 2))) s w a d ∧
      exec (.frameProcess f) s = .next
        { s with
          win := w, draws := d, rain := ⟨true, BitVec.ofNat 7 (byteNat f 3)⟩
          rsp := packResponse (withWind f a
            { outcome := 1#2, reached := 0b11111#5, value := num32 (byteNat f 3 % 128)
              flags := if s.rain.primed then 0#8 else 0x08#8
              rainTips := BitVec.ofNat 7 (tipsNumber (BitVec.ofNat 7 (byteNat f 3)) s.rain)
              rainFirst := if s.rain.primed then 0#1 else 1#1 })
          rspValid := true }

/-- R232: the first cause in the order of the rule is the one FRAME_PROCESS reports. -/
def Obligations.CausePriority : Prop :=
  ∀ (f : Frame) (s t : State), exec (.frameProcess f) s = .next t →
    (¬ ChecksumPasses f → t.response.status = 3#4) ∧
    (ChecksumPasses f → ¬ StationPasses f s → t.response.status = 4#4) ∧
    (ChecksumPasses f → StationPasses f s → 240 < byteNat f 1 → t.response.status = 2#4) ∧
    (ReachesWind f s → nibble f ∉ knownNibbles → t.response.status = 5#4) ∧
    (ReachesWind f s → ∀ i u, dispatchedCommand f s = some i → exec i s = .next u →
      t.response.status = u.response.status) ∧
    (dispatchedCommand f s = none ↔ nibble f ∉ knownNibbles)

/-- R208: the same frame again changes RAIN no further, and a frame that reaches the wind stage is fed once more. -/
def Obligations.RepeatedFrame : Prop :=
  ∀ (f : Frame) (s t u : State), exec (.frameProcess f) s = .next t → exec (.frameProcess f) t = .next u →
    u.rain = t.rain ∧
    (ReachesWind f s →
      u.win = (if t.win.length < 30 then t.win else t.win.drop 1) ++
        [BitVec.ofNat 16 (headingNumber (byteNat f 2))]) ∧
    (¬ ReachesWind f s → u.win = s.win)

/-- R210: CFG_WRITE. -/
def Obligations.CfgWriteResult : Prop :=
  EncodedAs 0x60000000#32 0xFFFFFFF0#32
    (fun w _ => .cfgWrite (w.extractLsb' 0 3) (if w.getLsbD 3 then .formulaB else .formulaA)) ∧
  ∀ (e : BitVec 3) (s : State),
    exec (.cfgWrite e .formulaA) s = .next
      { s with
        cfg := BitVec.ofNat 16 e.toNat, rsp := packResponse { value := num32 e.toNat }, rspValid := true } ∧
    exec (.cfgWrite e .formulaB) s = .next
      { s with
        cfg := BitVec.ofNat 16 (e.toNat + 8), rsp := packResponse { value := num32 (e.toNat + 8) }
        rspValid := true }

/-! ### The whole machine -/

/-- R22: only CFG_WRITE writes CFG, and only CFG_READ and FRAME_PROCESS read it. The second clause compares two runs that
start from equal draw counters, so a free draw is held equal in both (log entry 4). -/
def Obligations.CfgWritersAndReaders : Prop :=
  ∀ (i : Instr) (s t : State), exec i s = .next t →
    ((∀ e sel, i ≠ .cfgWrite e sel) → t.cfg = s.cfg) ∧
    ((∀ e sel, i ≠ .cfgWrite e sel) → i ≠ .cfgRead → (∀ f, i ≠ .frameProcess f) →
      ∀ c : BitVec 16, exec i { s with cfg := c } = .next { t with cfg := c }) ∧
    (∀ e sel, i = .cfgWrite e sel → ∀ c : BitVec 16, exec i { s with cfg := c } = .next t)

/-- R24, R25: RAIN is written only by RAIN_OBSERVE, and by FRAME_PROCESS on a rain-counter frame that passes every
gate; nothing clears primed. -/
def Obligations.RainWriters : Prop :=
  ∀ (i : Instr) (s t : State), exec i s = .next t →
    (s.rain.primed = true → t.rain.primed = true) ∧
    (t.rain ≠ s.rain →
      (∃ c, i = .rainObserve c) ∨ ∃ f, i = .frameProcess f ∧ ReachesWind f s ∧ nibble f = 0xE)

/-- R28: WIN is written by WIND_OBSERVE, always, and by FRAME_PROCESS exactly when the checksum, station and wind-speed
gates have passed; by nothing else. -/
def Obligations.WinWriters : Prop :=
  ∀ (i : Instr) (s t : State), exec i s = .next t →
    (t.win = s.win ∨ (∃ h, i = .windObserve h) ∨ ∃ f, i = .frameProcess f ∧ ReachesWind f s) ∧
    (∀ h, i = .windObserve h → t.win = (if s.win.length < 30 then s.win else s.win.drop 1) ++ [h]) ∧
    (∀ f, i = .frameProcess f → ReachesWind f s →
      t.win = (if s.win.length < 30 then s.win else s.win.drop 1) ++
        [BitVec.ofNat 16 (headingNumber (byteNat f 2))])

/-- R45: what issuing a command again does, row by row of the table. -/
def Obligations.ReissuedCommand : Prop :=
  ∀ (i : Instr) (s t : State), exec i s = .next t →
    (writesNothing i = true → t = { s with rsp := t.rsp, rspValid := true } ∧ exec i t = .next t) ∧
    (∀ e sel, i = .cfgWrite e sel → exec i t = .next t) ∧
    (∀ c, i = .rainObserve c → ∃ u, exec i t = .next u ∧ u.rain = t.rain ∧ u.response.value = 0#32) ∧
    (∀ h, i = .windObserve h → ∃ u, exec i t = .next u ∧
      u.win = (if t.win.length < 30 then t.win else t.win.drop 1) ++ [h]) ∧
    (∀ f, i = .frameProcess f → ∃ u, exec i t = .next u ∧ u.rain = t.rain ∧
      (ReachesWind f s → u.win = (if t.win.length < 30 then t.win else t.win.drop 1) ++
        [BitVec.ofNat 16 (headingNumber (byteNat f 2))])) ∧
    takeResponse t = { t with rspValid := false }

/-- R233: what a command that ends with a status other than OK leaves: CFG and RAIN as they were, and WIN as it was but
for the append of WIND_OBSERVE and of the wind stage of FRAME_PROCESS. -/
def Obligations.FailureKeepsState : Prop :=
  ∀ (i : Instr) (s t : State), exec i s = .next t → t.response.status ≠ 0#4 →
    t.cfg = s.cfg ∧ t.rain = s.rain ∧
    (t.win ≠ s.win → (∃ h, i = .windObserve h ∧ t.response.status = 6#4) ∨
      ∃ f, i = .frameProcess f ∧ t.response.reached.getLsbD 2 = true)

/-- R230: the statuses each command can give; no other cause exists. -/
def Obligations.StatusesPerCommand : Prop :=
  ∀ (i : Instr) (s t : State), exec i s = .next t → t.response.status.toNat ∈ statusesOf i

/-! ### Text -/

/-- R72, R73: a line of each shape, in characters, assembles to the commands its parsed form stands for; hexadecimal C and
H as R72 writes them; a comment does not count. The one space between words and the decimal numerals of `exp=` and of the
operands of R73 are details that R72 leaves open (log entry 16). -/
def Obligations.AssemblerText : Prop :=
  (∀ l : AsmLine, (∀ m f, l = .frameCommand m f → m ∈ frameMnemonics.map Prod.fst) →
    (∀ m, l = .plain m → m ∈ ["RAIN_STATUS", "WIND_STATUS", "CFG_READ"]) →
    assembleText (lineText l) = assemble l) ∧
  (∀ c : Nat, c ≤ 127 → assembleText (hexLine "RAIN_OBSERVE" 2 c) =
    some [.rainObserve (BitVec.ofNat 7 c)]) ∧
  (∀ h : Nat, h ≤ 65535 → assembleText (hexLine "WIND_OBSERVE" 4 h) =
    some [.windObserve (BitVec.ofNat 16 h)]) ∧
  ∀ l c : List Char, assembleText (String.ofList (l ++ ';' :: c)) = assembleText (String.ofList l)
end

