-- ==== Sys2Proof/Laws/Response.lean ====
section
/-! SUPPORT. Laws/Response.lean: the fields of a packed response (spec 30_encoding.md R64) and what `respond` and `raise`
answer. -/

namespace Sys2Proof.Machine

theorem extract_append_low {m n : Nat} (x : BitVec m) (y : BitVec n) (i len : Nat) (h : i + len ≤ n) :
    (x ++ y).extractLsb' i len = y.extractLsb' i len := by
  ext j hj
  simp only [BitVec.getElem_extractLsb', BitVec.getLsbD_append]
  simp [show i + j < n by omega]

theorem extract_append_high {m n : Nat} (x : BitVec m) (y : BitVec n) (i len : Nat) (h : n ≤ i) :
    (x ++ y).extractLsb' i len = x.extractLsb' (i - n) len := by
  ext j hj
  simp only [BitVec.getElem_extractLsb', BitVec.getLsbD_append]
  simp [show ¬ i + j < n by omega, show i + j - n = i - n + j by omega]

/-- R64: the fields of the word are those of the response. -/
@[simp] theorem unpack_pack (r : Response) : unpackResponse (packResponse r) = r := by
  unfold unpackResponse packResponse
  congr 1 <;>
  repeat' first
    | exact (extract_append_low _ _ _ _ (by decide)).trans BitVec.extractLsb'_eq_self
    | refine (extract_append_high _ _ _ _ (by decide)).trans ?_

/-- R64: the reserved bits of the word are 0. -/
@[simp] theorem pack_reserved (r : Response) : (packResponse r).extractLsb' 137 7 = 0#7 := by
  unfold packResponse
  repeat' first
    | exact (extract_append_low _ _ _ _ (by decide)).trans BitVec.extractLsb'_eq_self
    | refine (extract_append_high _ _ _ _ (by decide)).trans ?_
  exact BitVec.extractLsb'_eq_self

theorem respond_eq (r : Response) (s : State) :
    respond r s = .next { s with rsp := packResponse r, rspValid := true } := rfl

theorem raise_eq (st : Status) (r : Response) (s : State) :
    raise st r s = .next { s with rsp := packResponse { r with status := statusCode st }, rspValid := true } := rfl

/-- A legal response packs into a legal word. -/
theorem legal_pack {r : Response} (h : LegalResponse r) : LegalRspWord (packResponse r) :=
  ⟨pack_reserved r, by rw [unpack_pack]; exact h⟩

end Sys2Proof.Machine
end

