-- ==== Sys2Proof/Laws/Operands.lean ====
section
/-! SUPPORT. Laws/Operands.lean: the operands of a command as numbers: frame bytes, header fields, payload bits
(spec 20_memory.md R40, R41; 41_header.md R100 to R102). -/

namespace Sys2Proof.Machine

theorem byteNat_lt (f : Frame) (k : Fin 8) : byteNat f k < 256 := (frameByte f k).isLt

theorem byteNat_eq (f : Frame) (k : Fin 8) : byteNat f k = f.toNat / 2 ^ (56 - 8 * k.val) % 256 := by
  simp [byteNat, frameByte, BitVec.extractLsb'_toNat, Nat.shiftRight_eq_div_pow]

theorem receivedCrc_toNat (f : Frame) : (receivedCrc f).toNat = byteNat f 6 * 256 + byteNat f 7 := by
  have := byteNat_lt f 7
  rw [receivedCrc, BitVec.toNat_append, ← Nat.shiftLeft_add_eq_or_of_lt (by exact this)]
  simp [byteNat, Nat.shiftLeft_eq]

/-- R102: the sensor nibble as a number. -/
theorem sensorNibble_toNat (f : Frame) : (sensorNibble f).toNat = byteNat f 0 / 16 := by
  have := byteNat_lt f 0
  simp only [sensorNibble, BitVec.extractLsb'_toNat, byteNat, Nat.shiftRight_eq_div_pow] at *
  omega

theorem sensorNibble_zeroExtend (f : Frame) :
    (sensorNibble f).zeroExtend 32 = BitVec.ofNat 32 (byteNat f 0 / 16) := by
  rw [← sensorNibble_toNat]
  exact BitVec.eq_of_toNat_eq (by simp)

theorem sensorNibble_ofNat (f : Frame) : sensorNibble f = BitVec.ofNat 4 (byteNat f 0 / 16) := by
  rw [← sensorNibble_toNat]; simp

theorem sensorNibble_beq (f : Frame) (t : SensorType) :
    (sensorNibble f == nibbleOf t) = decide (byteNat f 0 / 16 = (nibbleOf t).toNat) := by
  rw [← sensorNibble_toNat, Bool.eq_iff_iff]
  simp [BitVec.toNat_eq]

theorem wireStation_toNat (f : Frame) : (wireStation f).toNat = byteNat f 0 % 8 := by
  simp [wireStation, BitVec.extractLsb'_toNat, byteNat]

theorem externalStation_ofNat (f : Frame) : externalStation f = BitVec.ofNat 4 (byteNat f 0 % 8 + 1) := by
  apply BitVec.eq_of_toNat_eq
  have := wireStation_toNat f
  simp [externalStation, BitVec.toNat_add, this]

theorem externalStation_toNat (f : Frame) : (externalStation f).toNat = byteNat f 0 % 8 + 1 := by
  rw [externalStation_ofNat, BitVec.toNat_ofNat]; omega

theorem batteryLow_ofNat (f : Frame) : batteryLow f = BitVec.ofNat 1 (byteNat f 0 / 8 % 2) := by
  apply BitVec.eq_of_toNat_eq
  simp [batteryLow, BitVec.extractLsb'_toNat, byteNat, Nat.shiftRight_eq_div_pow]

theorem cfgExpStation_toNat (cfg : BitVec 16) : (cfgExpStation cfg).toNat = cfg.toNat % 8 := by
  simp [cfgExpStation, BitVec.extractLsb'_toNat]

theorem station_ne_iff (f : Frame) (s : State) :
    wireStation f ≠ cfgExpStation s.cfg ↔ ¬ byteNat f 0 % 8 = s.cfg.toNat % 8 := by
  rw [Ne, BitVec.toNat_eq, wireStation_toNat, cfgExpStation_toNat]

theorem frameByte_eq_iff (f : Frame) (k : Fin 8) (b : Byte) : frameByte f k = b ↔ byteNat f k = b.toNat := by
  rw [BitVec.toNat_eq, byteNat]

/-- R124: the heading word as a number. -/
theorem headingWord_ofNat (f : Frame) : headingWord (frameByte f 2) =
    BitVec.ofNat 16 (if byteNat f 2 = 0 then 0 else 225 * byteNat f 2 + 48) := by
  unfold headingWord
  simp only [frameByte_eq_iff, BitVec.toNat_ofNat, Nat.zero_mod]
  split_ifs <;> rfl

theorem frameByte_ofNat (f : Frame) (k : Fin 8) : frameByte f k = BitVec.ofNat 8 (byteNat f k) := by
  simp [byteNat]

/-- R102: the unrecognized nibbles. -/
theorem sensorTypeOf_eq_none_iff (f : Frame) :
    sensorTypeOf (sensorNibble f) = none ↔ byteNat f 0 / 16 ∉ [0x2, 0x4, 0x5, 0x6, 0x8, 0x9, 0xA, 0xE] := by
  rw [← sensorNibble_toNat]
  generalize sensorNibble f = n
  revert n
  decide

/-- R102: a nibble has a type exactly when it is that type's nibble. -/
theorem sensorTypeOf_eq_some_iff (n : BitVec 4) (t : SensorType) : sensorTypeOf n = some t ↔ n = nibbleOf t := by
  revert n
  cases t <;> decide

/-- R40: a frame is its bytes, byte 0 first. -/
theorem frameOfBytes_frameByte (f : Frame) :
    frameOfBytes (frameByte f 0) (frameByte f 1) (frameByte f 2) (frameByte f 3) (frameByte f 4) (frameByte f 5)
      (frameByte f 6) (frameByte f 7) = f := by
  unfold frameOfBytes frameByte
  rw [BitVec.extractLsb'_append_extractLsb'_eq_extractLsb' (by rfl),
    BitVec.extractLsb'_append_extractLsb'_eq_extractLsb' (by rfl),
    BitVec.extractLsb'_append_extractLsb'_eq_extractLsb' (by rfl),
    BitVec.extractLsb'_append_extractLsb'_eq_extractLsb' (by rfl),
    BitVec.extractLsb'_append_extractLsb'_eq_extractLsb' (by rfl),
    BitVec.extractLsb'_append_extractLsb'_eq_extractLsb' (by rfl),
    BitVec.extractLsb'_append_extractLsb'_eq_extractLsb' (by rfl)]
  exact BitVec.extractLsb'_eq_self

end Sys2Proof.Machine
end

