-- ==== Sys2Proof/Laws/Assembler.lean ====
section
/-! SUPPORT. Laws/Assembler.lean: lines of text (spec 30_encoding.md R72, R73): comments, words, numerals and frames. -/

namespace Sys2Proof.Machine

/-! ### Comments and words -/

/-- A character that neither ends a word nor starts a comment. -/
abbrev isWordChar (c : Char) : Prop :=
  ¬ (c = ' ' ∨ c = '\t') ∧ ¬ (c = '[' ∨ c = ']' ∨ c = ',' ∨ c = '=') ∧ c ≠ ';'

/-- R72: a comment does not count. -/
theorem stripComment_comment (l c : List Char) : stripComment (l ++ ';' :: c) = stripComment l := by
  unfold stripComment
  induction l with
  | nil => simp
  | cons a l ih => by_cases h : a = ';' <;> simp [h, ih]

theorem stripComment_of_forall {l : List Char} (h : ∀ c ∈ l, c ≠ ';') : stripComment l = l :=
  List.takeWhile_eq_self_iff.mpr (by simpa using h)

theorem lineWords_append {w : List Char} (h : ∀ c ∈ w, isWordChar c) (acc cs : List Char) :
    lineWords acc (w ++ cs) = lineWords (acc ++ w) cs := by
  induction w generalizing acc with
  | nil => simp
  | cons a w ih =>
    obtain ⟨h1, h2, -⟩ := h a (by simp)
    rw [List.cons_append, lineWords, if_neg h1, if_neg h2, ih (fun c hc => h c (by simp [hc]))]
    simp

/-- A word at the end of a line. -/
theorem lineWords_last {w : List Char} (h : ∀ c ∈ w, isWordChar c) (hw : w ≠ []) : lineWords [] w = [w] := by
  have := lineWords_append h [] []
  simp_all [lineWords, flushWord]

/-- A word before a space. -/
theorem lineWords_space {w : List Char} (h : ∀ c ∈ w, isWordChar c) (hw : w ≠ []) (cs : List Char) :
    lineWords [] (w ++ ' ' :: cs) = w :: lineWords [] cs := by
  rw [lineWords_append h]
  simp [lineWords, flushWord, hw]

/-- A word before a character that is a word of its own. -/
theorem lineWords_punct {w : List Char} (h : ∀ c ∈ w, isWordChar c) (hw : w ≠ []) {p : Char}
    (hp : p = '[' ∨ p = ']' ∨ p = ',' ∨ p = '=') (cs : List Char) :
    lineWords [] (w ++ p :: cs) = w :: [p] :: lineWords [] cs := by
  rw [lineWords_append h]
  have : ¬ (p = ' ' ∨ p = '\t') := by rcases hp with rfl | rfl | rfl | rfl <;> decide
  simp [lineWords, flushWord, hw, hp, this]

/-! ### Numerals -/

theorem digitValue_hexDigit {n : Nat} (h : n < 16) : digitValue 16 (hexDigit n) = some n := by
  have : ∀ n < 16, digitValue 16 (hexDigit n) = some n := by decide
  exact this n h

theorem digitValue_digitChar {n : Nat} (h : n < 10) : digitValue 10 n.digitChar = some n := by
  have : ∀ n < 10, digitValue 10 n.digitChar = some n := by decide
  exact this n h

theorem digitsValue_append (base acc : Nat) (u v : List Char) :
    digitsValue base acc (u ++ v) = (digitsValue base acc u).bind fun a => digitsValue base a v := by
  induction u generalizing acc with
  | nil => rfl
  | cons c u ih => cases h : digitValue base c <;> simp [digitsValue, h, ih]

theorem length_hexText (k n : Nat) : (hexText k n).length = k := by
  induction k generalizing n with
  | zero => rfl
  | succ k ih => simp [hexText, ih]

theorem hexText_ne_nil (k n : Nat) : hexText (k + 1) n ≠ [] := by simp [hexText]

/-- A hexadecimal numeral is read back. -/
theorem digitsValue_hexText {k n : Nat} (h : n < 16 ^ k) : digitsValue 16 0 (hexText k n) = some n := by
  induction k generalizing n with
  | zero => simp_all [hexText, digitsValue]
  | succ k ih =>
    rw [hexText, digitsValue_append, ih (by rw [pow_succ] at h; omega)]
    simp only [Option.bind_some, digitsValue, digitValue_hexDigit (Nat.mod_lt n (by norm_num))]
    congr 1
    omega

/-- A decimal numeral is read back. -/
theorem digitsValue_toDigits (n : Nat) : digitsValue 10 0 (Nat.toDigits 10 n) = some n := by
  induction n using Nat.strong_induction_on with
  | _ n ih =>
    by_cases h : n < 10
    · simp [Nat.toDigits_of_lt_base h, digitsValue, digitValue_digitChar h]
    · rw [Nat.toDigits_of_base_le (by norm_num) (not_lt.mp h), digitsValue_append, ih _ (by omega)]
      simp only [Option.bind_some, digitsValue, digitValue_digitChar (Nat.mod_lt n (by norm_num))]
      congr 1
      omega

theorem isWordChar_hexDigit (n : Nat) : isWordChar (hexDigit (n % 16)) := by
  have : ∀ n < 16, isWordChar (hexDigit n) := by decide
  exact this _ (Nat.mod_lt n (by norm_num))

theorem isWordChar_of_mem_hexText {k n : Nat} {c : Char} (h : c ∈ hexText k n) : isWordChar c := by
  induction k generalizing n with
  | zero => simp [hexText] at h
  | succ k ih =>
    rcases List.mem_append.mp h with h | h
    · exact ih h
    · rw [List.mem_singleton.mp h]
      exact isWordChar_hexDigit n

theorem isWordChar_of_isDigit {c : Char} (h : c.isDigit = true) : isWordChar c ∧ c ≠ 'x' := by
  refine ⟨⟨?_, ?_, ?_⟩, ?_⟩
  · rintro (rfl | rfl) <;> simp at h
  · rintro (rfl | rfl | rfl | rfl) <;> simp at h
  · rintro rfl
    simp at h
  · rintro rfl
    simp at h

theorem isDigit_of_mem_repr {n : Nat} {c : Char} (h : c ∈ n.repr.toList) : c.isDigit = true :=
  Nat.isDigit_of_mem_toDigits (b := 10) (n := n) (by norm_num) le_rfl (by rwa [Nat.toList_repr] at h)

theorem isWordChar_of_mem_repr {n : Nat} {c : Char} (h : c ∈ n.repr.toList) : isWordChar c :=
  (isWordChar_of_isDigit (isDigit_of_mem_repr h)).1

theorem repr_toList_ne_nil (n : Nat) : n.repr.toList ≠ [] := by
  rw [Nat.toList_repr]
  exact Nat.toDigits_ne_nil

/-- R72: the decimal form of an operand. -/
theorem operandValue_repr (n : Nat) : operandValue n.repr.toList = some n := by
  have hx : ∀ w, n.repr.toList ≠ '0' :: 'x' :: w := fun w e =>
    (isWordChar_of_isDigit (isDigit_of_mem_repr (n := n) (c := 'x') (by simp [e]))).2 rfl
  have h := digitsValue_toDigits n
  rw [← Nat.toList_repr] at h
  unfold operandValue
  split
  · next w e => exact absurd e (hx w)
  · simpa [numeral, repr_toList_ne_nil] using h

/-- R72: the hexadecimal form of an operand. -/
theorem operandValue_hexText {k n : Nat} (h : n < 16 ^ (k + 1)) :
    operandValue ('0' :: 'x' :: hexText (k + 1) n) = some n := by
  simp [operandValue, numeral, hexText_ne_nil, digitsValue_hexText h]

/-! ### Lines -/

/-- A line whose words are known. -/
theorem assembleText_of_words {cs m : List Char} {ws : List (List Char)} (hs : ∀ c ∈ cs, c ≠ ';')
    (h : lineWords [] cs = m :: ws) :
    assembleText (String.ofList cs) = (parseOperands (String.ofList m) ws).bind assemble := by
  unfold assembleText
  rw [String.toList_ofList, stripComment_of_forall hs, h]

/-- R72: a comment at the end of a line does not count. -/
theorem assembleText_comment (l c : List Char) :
    assembleText (String.ofList (l ++ ';' :: c)) = assembleText (String.ofList l) := by
  simp only [assembleText, String.toList_ofList, stripComment_comment]

/-- What a mnemonic is made of. -/
abbrev isMnemonic (m : String) : Prop := m.toList ≠ [] ∧ (m.toList.all fun c => decide (isWordChar c)) = true

theorem isMnemonic.isWordChar {m : String} (h : isMnemonic m) : ∀ c ∈ m.toList, isWordChar c := fun c hc =>
  of_decide_eq_true (List.all_eq_true.mp h.2 c hc)

/-- A mnemonic and its operands. -/
theorem assembleText_mnemonic {m : String} (hm : isMnemonic m) {rest : List Char} (hr : ∀ c ∈ rest, c ≠ ';') :
    assembleText (mnemonicLine m rest) = (parseOperands m (lineWords [] rest)).bind assemble := by
  have hs : ∀ c ∈ m.toList ++ ' ' :: rest, c ≠ ';' := fun c hc => by
    rcases List.mem_append.mp hc with h | h
    · exact (hm.isWordChar c h).2.2
    · rcases List.mem_cons.mp h with rfl | h
      · decide
      · exact hr c h
  rw [mnemonicLine, assembleText_of_words hs (lineWords_space hm.isWordChar hm.1 rest), String.ofList_toList]

/-- A mnemonic and one operand. -/
theorem assembleText_oneOperand {m : String} (hm : isMnemonic m) {w : List Char} (hw : ∀ c ∈ w, isWordChar c)
    (hw' : w ≠ []) :
    assembleText (mnemonicLine m w) = (parseOperands m [w]).bind assemble := by
  rw [assembleText_mnemonic hm fun c hc => (hw c hc).2.2, lineWords_last hw hw']

/-- R72: an operand in decimal. -/
theorem assembleText_operandLine {m : String} (hm : isMnemonic m) {mk : Nat → AsmLine}
    (hp : ∀ ws, parseOperands m ws = oneOperand mk ws) (n : Nat) :
    assembleText (operandLine m n) = assemble (mk n) := by
  rw [operandLine, assembleText_oneOperand hm (fun c => isWordChar_of_mem_repr) (repr_toList_ne_nil n), hp]
  simp only [oneOperand, operandValue_repr, Option.map_some, Option.bind_some]

/-- R72: an operand in hexadecimal. -/
theorem assembleText_hexLine {m : String} (hm : isMnemonic m) {mk : Nat → AsmLine}
    (hp : ∀ ws, parseOperands m ws = oneOperand mk ws) {k n : Nat} (h : n < 16 ^ (k + 1)) :
    assembleText (hexLine m (k + 1) n) = assemble (mk n) := by
  rw [hexLine, assembleText_oneOperand hm (fun c hc => ?_) (by simp), hp]
  · simp [oneOperand, operandValue_hexText h]
  · simp only [List.mem_cons] at hc
    rcases hc with rfl | rfl | hc
    · decide
    · decide
    · exact isWordChar_of_mem_hexText hc

/-- The words of a frame. -/
theorem lineWords_frameText (f : Frame) :
    lineWords [] (frameText f) =
      [['['], hexText 2 (byteNat f 0), hexText 2 (byteNat f 1), hexText 2 (byteNat f 2), hexText 2 (byteNat f 3),
        hexText 2 (byteNat f 4), hexText 2 (byteNat f 5), hexText 2 (byteNat f 6), hexText 2 (byteNat f 7), [']']] := by
  have hw := fun (n : Nat) (c : Char) (hc : c ∈ hexText 2 n) => isWordChar_of_mem_hexText hc
  have hn := fun n => hexText_ne_nil 1 n
  simp only [frameText, List.map_cons, List.map_nil, List.intersperse, List.flatten_cons, List.flatten_nil,
    List.append_assoc, List.nil_append, List.cons_append, List.append_nil]
  rw [lineWords, if_neg (by decide), if_pos (by decide)]
  simp only [lineWords_space (hw _) (hn _), lineWords_punct (hw _) (hn _) (p := ']') (by decide), flushWord]
  rfl

theorem hexByte_hexText (f : Frame) (k : Fin 8) : hexByte (hexText 2 (byteNat f k)) = some (frameByte f k) := by
  have h : byteNat f k < 16 ^ 2 := (frameByte f k).isLt
  rw [hexByte, if_pos (by rw [length_hexText]), numeral, if_neg (by simp [hexText_ne_nil]), digitsValue_hexText h]
  simp [byteNat]

/-- R72: a frame in writing is read back. -/
theorem frameOperand_frameText (f : Frame) : frameOperand (lineWords [] (frameText f)) = some (some f) := by
  rw [lineWords_frameText]
  simp [frameOperand, hexByte_hexText, frameOfBytes_frameByte]

theorem ne_semicolon_of_mem_frameText {f : Frame} {c : Char} (h : c ∈ frameText f) : c ≠ ';' := by
  simp only [frameText, List.mem_append, List.mem_cons, List.not_mem_nil, or_false, List.mem_flatten] at h
  obtain (rfl | ⟨w, hw, h⟩) | rfl := h
  · decide
  · have hi : w = [' '] ∨ ∃ n, w = hexText 2 n := by
      simp only [List.map_cons, List.map_nil, List.intersperse, List.mem_cons, List.not_mem_nil, or_false] at hw
      tauto
    obtain rfl | ⟨n, rfl⟩ := hi
    · rw [List.mem_singleton.mp h]
      decide
    · exact (isWordChar_of_mem_hexText h).2.2
  · decide

/-- R72: a mnemonic with a frame or without one. -/
theorem assembleText_frameLine {m : String} (hm : isMnemonic m) {mk : Option Frame → AsmLine}
    (hp : ∀ ws, parseOperands m ws = (frameOperand ws).map mk) (f : Option Frame) :
    assembleText (frameLine m f) = assemble (mk f) := by
  cases f with
  | none =>
    have h := assembleText_of_words (fun c hc => (hm.isWordChar c hc).2.2) (lineWords_last hm.isWordChar hm.1)
    rw [String.ofList_toList, hp] at h
    exact h
  | some f =>
    rw [frameLine, assembleText_mnemonic hm fun c => ne_semicolon_of_mem_frameText, hp, frameOperand_frameText]
    rfl

/-- R72: the words of CFG_WRITE's operands. -/
theorem parseOperands_cfgWrite (e : Nat) (sel : RainSel) :
    parseOperands "CFG_WRITE"
      [['e', 'x', 'p'], ['='], e.repr.toList, [','], ['s', 'e', 'l'], ['='], [selText sel]] =
      some (.cfgWrite e sel) := by
  have h : ∀ ws, parseOperands "CFG_WRITE" ws = cfgOperands ws := fun ws => by simp [parseOperands]
  rw [h]
  cases sel <;> simp only [cfgOperands, selText, operandValue_repr, Option.map_some]

theorem lineWords_cfg (e : Nat) (sel : RainSel) :
    lineWords [] (cfgText e sel) =
      [['e', 'x', 'p'], ['='], e.repr.toList, [','], ['s', 'e', 'l'], ['='], [selText sel]] := by
  have he : ∀ c ∈ ['e', 'x', 'p'], isWordChar c := fun c hc =>
    of_decide_eq_true (List.all_eq_true.mp (by decide : (['e', 'x', 'p'].all fun c => decide (isWordChar c)) = true) c hc)
  have hl : lineWords [] (' ' :: (['s', 'e', 'l'] ++ '=' :: [selText sel])) =
      [['s', 'e', 'l'], ['='], [selText sel]] := by
    cases sel <;> decide +kernel
  rw [cfgText, lineWords_punct he (List.cons_ne_nil _ _) (.inr (.inr (.inr rfl))),
    lineWords_punct (fun c => isWordChar_of_mem_repr) (repr_toList_ne_nil e) (.inr (.inr (.inl rfl))), hl]
theorem ne_semicolon_of_mem_cfg {e : Nat} {sel : RainSel} {c : Char} (h : c ∈ cfgText e sel) : c ≠ ';' := by
  have hs : selText sel ≠ ';' := by cases sel <;> decide
  simp only [cfgText, List.cons_append, List.nil_append, List.mem_cons, List.mem_append, List.not_mem_nil, or_false] at h
  obtain rfl | rfl | rfl | rfl | h | rfl | rfl | rfl | rfl | rfl | rfl | rfl := h
  case inr.inr.inr.inr.inl => exact (isWordChar_of_mem_repr h).2.2
  all_goals first | exact hs | decide

/-- R72: CFG_WRITE. -/
theorem assembleText_cfgText (e : Nat) (sel : RainSel) :
    assembleText (mnemonicLine "CFG_WRITE" (cfgText e sel)) = assemble (.cfgWrite e sel) := by
  rw [assembleText_mnemonic (by decide +kernel) fun c => ne_semicolon_of_mem_cfg, lineWords_cfg,
    parseOperands_cfgWrite, Option.bind_some]

end Sys2Proof.Machine
end

