-- ==== Sys2Proof/Laws/Checksum.lean ====
section
/-! SUPPORT. Laws/Checksum.lean: the CRC rounds over GF(2) (spec 40_checksum.md R80): each is linear and injective. -/

namespace Sys2Proof.Machine

/-- R80: a round as a shift and a masked polynomial. -/
theorem crcRound_getLsbD (c : BitVec 16) (i : Nat) : (crcRound c).getLsbD i =
    ((c <<< 1).getLsbD i ^^ (c.getLsbD 15 && crcPoly.getLsbD i)) := by
  unfold crcRound
  cases h : c.getLsbD 15
  · simp
  · rw [if_pos rfl, BitVec.getLsbD_xor, Bool.true_and]

/-- R86.1 for one round. -/
theorem crcRound_xor (a b : BitVec 16) : crcRound (a ^^^ b) = crcRound a ^^^ crcRound b := by
  apply BitVec.eq_of_getLsbD_eq
  intro i hi
  simp only [crcRound_getLsbD, BitVec.getLsbD_xor, BitVec.getLsbD_shiftLeft]
  generalize a.getLsbD 15 = a15, b.getLsbD 15 = b15, crcPoly.getLsbD i = p, a.getLsbD (i - 1) = x,
    b.getLsbD (i - 1) = y, decide (i < 1) = z, decide (i < 16) = v
  revert a15 b15 p x y z v
  decide

theorem crcRounds_xor (n : Nat) (a b : BitVec 16) :
    crcRounds n (a ^^^ b) = crcRounds n a ^^^ crcRounds n b := by
  induction n generalizing a b with
  | zero => rfl
  | succ n ih => simp only [crcRounds, crcRound_xor, ih]

theorem append_zero_xor (a b : Byte) : (a ^^^ b) ++ 0#8 = (a ++ 0#8) ^^^ (b ++ 0#8) := by
  apply BitVec.eq_of_getLsbD_eq
  intro i hi
  simp only [BitVec.getLsbD_append, BitVec.getLsbD_xor]
  split_ifs <;> simp

/-- R86.1 for one byte step. -/
theorem crcStep_xor (c d : BitVec 16) (a b : Byte) :
    crcStep (c ^^^ d) (a ^^^ b) = crcStep c a ^^^ crcStep d b := by
  unfold crcStep
  rw [← crcRounds_xor, append_zero_xor]
  congr 1
  ac_rfl

theorem crcRound_eq_zero {c : BitVec 16} (h : crcRound c = 0#16) : c = 0#16 := by
  have hb := fun i => crcRound_getLsbD c i
  simp only [h, BitVec.getLsbD_zero, BitVec.getLsbD_shiftLeft] at hb
  have h15 : c.getLsbD 15 = false := by
    have := hb 0
    simpa [crcPoly] using this
  apply BitVec.eq_of_getLsbD_eq
  intro i hi
  rcases Nat.lt_or_ge i 15 with hlt | hge
  · have := hb (i + 1)
    simp only [h15, Bool.false_and, Bool.xor_false, Nat.add_sub_cancel] at this
    simpa [show i + 1 < 16 by omega] using this.symm
  · rw [show i = 15 by omega, h15, BitVec.getLsbD_zero]

/-- A round loses nothing: the constant term of the polynomial is 1. -/
theorem crcRound_injective : Function.Injective crcRound := by
  intro a b h
  have : crcRound (a ^^^ b) = 0#16 := by rw [crcRound_xor, h, BitVec.xor_self]
  exact BitVec.xor_eq_zero_iff.mp (crcRound_eq_zero this)

theorem crcRounds_injective (n : Nat) : Function.Injective (crcRounds n) := by
  induction n with
  | zero => exact fun _ _ h => h
  | succ n ih => exact fun a b h => crcRound_injective (ih h)

/-- Distinct registers stay distinct through a byte. -/
theorem crcStep_injective (b : Byte) : Function.Injective (crcStep · b) := fun c d h => by
  have := crcRounds_injective 8 h
  simpa using this

end Sys2Proof.Machine
end

