-- ==== Sys2Proof/Laws/Decode.lean ====
section
/-! SUPPORT. Laws/Decode.lean: the fields of a command word (spec 30_encoding.md R60), and the decoder and the opcode
table on a word made of its fields. -/

namespace Sys2Proof

open Sys2Proof.Machine

theorem opcField_append (opc rsv : BitVec 8) (arg : Arg) : opcField (opc ++ rsv ++ arg) = opc := by
  unfold opcField
  rw [extract_append_high _ _ _ _ (by decide)]
  exact (extract_append_high _ _ _ _ (by decide)).trans BitVec.extractLsb'_eq_self

theorem rsvField_append (opc rsv : BitVec 8) (arg : Arg) : rsvField (opc ++ rsv ++ arg) = rsv := by
  unfold rsvField
  rw [extract_append_high _ _ _ _ (by decide)]
  exact (extract_append_low _ _ _ _ (by decide)).trans BitVec.extractLsb'_eq_self

theorem argField_append (opc rsv : BitVec 8) (arg : Arg) : argField (opc ++ rsv ++ arg) = arg := by
  unfold argField
  exact (extract_append_low _ _ _ _ (by decide)).trans BitVec.extractLsb'_eq_self

@[simp] theorem opcField_cmdWord (opc : BitVec 8) (arg : Arg) : opcField (cmdWord opc arg) = opc :=
  opcField_append _ _ _

@[simp] theorem rsvField_cmdWord (opc : BitVec 8) (arg : Arg) : rsvField (cmdWord opc arg) = 0#8 :=
  rsvField_append _ _ _

@[simp] theorem argField_cmdWord (opc : BitVec 8) (arg : Arg) : argField (cmdWord opc arg) = arg :=
  argField_append _ _ _

/-- R60: a word is its three fields. -/
theorem fields_append (w : CmdWord) : opcField w ++ rsvField w ++ argField w = w := by
  apply BitVec.eq_of_getLsbD_eq
  intro i hi
  simp only [opcField, rsvField, argField, BitVec.getLsbD_append, BitVec.getLsbD_extractLsb']
  split_ifs with h1 h2
  · simp [h1]
  · simp [h2, show 16 + (i - 16) = i by omega]
  · simp [show 24 + (i - 16 - 8) = i by omega, show i - 16 - 8 < 8 by omega]

/-- R60, R72: a word with RSV = 0 is the word of its opcode and argument. -/
theorem cmdWord_fields {w : CmdWord} (h : rsvField w = 0#8) : cmdWord (opcField w) (argField w) = w := by
  have := fields_append w
  rwa [h] at this

/-- R61 on a word whose RSV is 0 and whose ARG stays inside the mask. -/
theorem decode_cmdWord {opc : BitVec 8} {arg m : Arg} {f : Frame} {i : Instr} (hm : argMask opc = some m)
    (ha : arg &&& ~~~m = 0#16) (hi : instrOf opc arg f = some i) : decode ⟨cmdWord opc arg, f⟩ = .ok i := by
  simp [decode, hm, ha, hi]

/-- R61: a command is accepted exactly when its three checks pass, and then `instrOf` reads it. -/
theorem decode_eq_ok_iff (c : Command) (i : Instr) : decode c = .ok i ↔
    ∃ m, argMask (opcField c.cmd) = some m ∧ rsvField c.cmd = 0#8 ∧ argField c.cmd &&& ~~~m = 0#16 ∧
      instrOf (opcField c.cmd) (argField c.cmd) c.frame = some i := by
  unfold decode
  cases argMask (opcField c.cmd) with
  | none => simp
  | some m =>
    by_cases h1 : rsvField c.cmd = 0#8 <;> by_cases h2 : argField c.cmd &&& ~~~m = 0#16 <;>
      cases instrOf (opcField c.cmd) (argField c.cmd) c.frame <;> simp [h1, h2]

/-- R62: every opcode of the table has a meaning. -/
theorem instrOf_isSome (opc : BitVec 8) (arg : Arg) (f : Frame) : (instrOf opc arg f).isSome = (argMask opc).isSome := by
  unfold instrOf argMask
  split <;> simp_all

/-- R62: an opcode the table does not list is not one of the 23. -/
theorem argMask_of_instrOf {opc : BitVec 8} {arg : Arg} {f : Frame} {i : Instr} (h : instrOf opc arg f = some i) :
    ∃ m, argMask opc = some m := by
  have := instrOf_isSome opc arg f
  rw [h] at this
  exact Option.isSome_iff_exists.mp this.symm

/-- R62: the match/mask form of a row, field by field. -/
theorem and_mask_eq_iff (w : CmdWord) (opc : BitVec 8) (m : Arg) :
    w &&& (0xFFFF#16 ++ ~~~m) = opc ++ 0#8 ++ 0#16 ↔
      opcField w = opc ∧ rsvField w = 0#8 ∧ argField w &&& ~~~m = 0#16 := by
  have e : w &&& (0xFFFF#16 ++ ~~~m) = opcField w ++ rsvField w ++ (argField w &&& ~~~m) := by
    conv_lhs => rw [← fields_append w]
    apply BitVec.eq_of_getLsbD_eq
    intro i hi
    simp only [BitVec.getLsbD_and, BitVec.getLsbD_append]
    by_cases hlt : i < 16
    · simp [hlt]
    · have hb : ∀ j : Fin 16, (65535#16).getLsbD j = true := by decide
      simp only [hlt, if_false, hb ⟨i - 16, by omega⟩, Bool.and_true]
  rw [e]
  constructor
  · intro h
    have h1 := congrArg opcField h
    have h2 := congrArg rsvField h
    have h3 := congrArg argField h
    rw [opcField_append, opcField_append] at h1
    rw [rsvField_append, rsvField_append] at h2
    rw [argField_append, argField_append] at h3
    exact ⟨h1, h2, h3⟩
  · rintro ⟨h1, h2, h3⟩
    rw [h1, h2, h3]

/-- R61, R62: a word that matches a row decodes to the command of the row's opcode. -/
theorem decode_of_matches {opc : BitVec 8} {m : Arg} {w : CmdWord} {f : Frame} {i : Instr} (hm : argMask opc = some m)
    (hw : w &&& (0xFFFF#16 ++ ~~~m) = opc ++ 0#8 ++ 0#16) (hi : instrOf opc (argField w) f = some i) :
    decode ⟨w, f⟩ = .ok i := by
  obtain ⟨h1, h2, h3⟩ := (and_mask_eq_iff w opc m).mp hw
  exact (decode_eq_ok_iff _ _).mpr ⟨m, by rw [h1]; exact hm, h2, h3, by rw [h1]; exact hi⟩

/-- R63: the operands of RAIN_OBSERVE and CFG_WRITE, cut out of the word itself. -/
theorem argField_parts (w : CmdWord) : (argField w).extractLsb' 0 7 = w.extractLsb' 0 7 ∧
    (argField w).extractLsb' 0 3 = w.extractLsb' 0 3 ∧ (argField w).getLsbD 3 = w.getLsbD 3 := by
  refine ⟨?_, ?_, by simp [argField]⟩ <;> (ext i hi; simp [argField])

end Sys2Proof
end

