-- ==== Sys2Proof/Laws/RootSums.lean ====
section
/-! SUPPORT. Laws/RootSums.lean: integer combinations of N-th roots of unity. The cancelling of Machine/ExactSine.lean
keeps the sum (`sineSum_eq_zero_of_vanishes`), and a non-zero sum of sines is bounded below by the norm of an algebraic
integer (`one_le_abs_sineSum`). -/

namespace Sys2Proof.Laws

open Sys2Proof.Machine

/-- ζ = exp(2πi/N). -/
noncomputable def zeta (N : ℕ) : ℂ := Complex.exp (2 * Real.pi * Complex.I / N)

/-- Σ c · ζ^e over the terms. -/
noncomputable def rootSum (N : ℕ) (ts : List SineTerm) : ℂ := (ts.map fun t => (t.1 : ℂ) * zeta N ^ t.2).sum

@[simp] theorem rootSum_nil (N : ℕ) : rootSum N [] = 0 := rfl

@[simp] theorem rootSum_cons (N : ℕ) (t : SineTerm) (ts : List SineTerm) :
    rootSum N (t :: ts) = t.1 * zeta N ^ t.2 + rootSum N ts := by simp [rootSum]

@[simp] theorem rootSum_append (N : ℕ) (ts us : List SineTerm) :
    rootSum N (ts ++ us) = rootSum N ts + rootSum N us := by simp [rootSum]

theorem zeta_primitive {N : ℕ} (hN : 0 < N) : IsPrimitiveRoot (zeta N) N :=
  Complex.isPrimitiveRoot_exp N hN.ne'

theorem zeta_pow_mod {N : ℕ} (hN : 0 < N) (e : ℕ) : zeta N ^ (e % N) = zeta N ^ e :=
  (pow_eq_pow_mod e (zeta_primitive hN).pow_eq_one).symm

theorem rootSum_addTerm (N : ℕ) (c : ℤ) (e : ℕ) (ts : List SineTerm) :
    rootSum N (addTerm c e ts) = c * zeta N ^ e + rootSum N ts := by
  induction ts with
  | nil =>
    unfold addTerm
    split_ifs with h
    · simp [h]
    · simp
  | cons t ts ih =>
    unfold addTerm
    split_ifs with h1 h2
    · have : (t.1 : ℂ) + c = 0 := by exact_mod_cast h2
      rw [rootSum_cons, h1, ← add_assoc, ← add_mul, add_comm (c : ℂ), this]; simp
    · rw [rootSum_cons, rootSum_cons, h1]; push_cast; ring
    · rw [rootSum_cons, ih, rootSum_cons]; ring

@[simp] theorem rootSum_collect (N : ℕ) (ts : List SineTerm) : rootSum N (collect ts) = rootSum N ts := by
  induction ts with
  | nil => rfl
  | cons t ts ih => rw [collect, rootSum_addTerm, ih, rootSum_cons]

theorem rootSum_rotations {N : ℕ} (hN : 0 < N) (p : ℕ) (c : ℤ) (e n : ℕ) :
    rootSum N (rotations p N c e n) =
      c * zeta N ^ e * (∑ j ∈ Finset.range (n + 1), (zeta N ^ (N / p)) ^ j - 1) := by
  induction n with
  | zero => simp [rotations]
  | succ n ih =>
    rw [rotations, rootSum_cons, ih, Finset.sum_range_succ _ (n + 1)]
    have e1 : (zeta N ^ (N / p)) ^ (n + 1) = zeta N ^ ((n + 1) * (N / p)) := by rw [← pow_mul, mul_comm]
    simp only [zeta_pow_mod hN, pow_add (zeta N) e, e1]
    ring

theorem rootSum_reducePrime {N p : ℕ} (hN : 0 < N) (hp : 1 < p) (hpN : p ∣ N) (m : ℕ) (ts : List SineTerm) :
    rootSum N (reducePrime p N m ts) = rootSum N ts := by
  induction ts with
  | nil => rfl
  | cons t ts ih =>
    unfold reducePrime
    split_ifs with h
    · rw [rootSum_append, rootSum_rotations hN, ih, rootSum_cons, Nat.sub_add_cancel hp.le]
      have hprim : IsPrimitiveRoot (zeta N ^ (N / p)) p :=
        (zeta_primitive hN).pow hN (Nat.div_mul_cancel hpN).symm
      rw [hprim.geom_sum_eq_zero hp]
      push_cast; ring
    · rw [rootSum_cons, ih, rootSum_cons]

theorem rootSum_cancelPrime {N p : ℕ} (hN : 0 < N) (hp : 1 < p) (ts : List SineTerm) :
    rootSum N (cancelPrime p N ts) = rootSum N ts := by
  unfold cancelPrime
  split_ifs with h
  · rw [rootSum_collect, rootSum_reducePrime hN hp (Nat.dvd_of_mod_eq_zero h)]
  · rfl

/-- ζ^e - ζ^-e = 2i sin(2πe/N). -/
theorem zeta_pow_sub {N : ℕ} (hN : 0 < N) (e : ℕ) :
    zeta N ^ (e % N) - zeta N ^ ((N - e % N) % N) = 2 * Complex.I * Real.sin (2 * Real.pi * e / N) := by
  have hle : e % N ≤ N := (Nat.mod_lt e hN).le
  have hinv : zeta N ^ (N - e % N) = (zeta N ^ e)⁻¹ := by
    have : zeta N ^ (N - e % N) * zeta N ^ (e % N) = 1 := by
      rw [← pow_add, Nat.sub_add_cancel hle, (zeta_primitive hN).pow_eq_one]
    rw [zeta_pow_mod hN] at this
    exact eq_inv_of_mul_eq_one_left this
  rw [zeta_pow_mod hN, zeta_pow_mod hN, hinv]
  have hexp : zeta N ^ e = Complex.exp ((2 * Real.pi * e / N : ℝ) * Complex.I) := by
    rw [zeta, ← Complex.exp_nat_mul]
    congr 1
    push_cast
    ring
  rw [hexp, ← Complex.exp_neg, ← neg_mul, Complex.exp_mul_I, Complex.exp_mul_I, Complex.cos_neg, Complex.sin_neg,
    Complex.ofReal_sin]
  ring

theorem rootSum_rootTerms {N : ℕ} (hN : 0 < N) (ts : List SineTerm) :
    rootSum N (rootTerms N ts) = 2 * Complex.I * sineSum N ts := by
  induction ts with
  | nil => simp [rootTerms, sineSum]
  | cons t ts ih =>
    have := zeta_pow_sub hN t.2
    simp only [rootTerms, rootSum_cons, ih, sineSum, List.map_cons, List.sum_cons]
    push_cast at *
    linear_combination (t.1 : ℂ) * this

/-- Where the relations of 2, 3 and 5 cancel the sum, it is 0. -/
theorem sineSum_eq_zero_of_vanishes {N : ℕ} (hN : 0 < N) {ts : List SineTerm} (h : sineSumVanishes N ts = true) :
    sineSum N ts = 0 := by
  have h0 : rootSum N (rootTerms N ts) = 0 := by
    rw [← rootSum_collect, ← rootSum_cancelPrime hN (p := 2) (by norm_num),
      ← rootSum_cancelPrime hN (p := 3) (by norm_num), ← rootSum_cancelPrime hN (p := 5) (by norm_num),
      List.isEmpty_iff.mp h, rootSum_nil]
  rw [rootSum_rootTerms hN] at h0
  have : (sineSum N ts : ℂ) = 0 := by simpa [Complex.I_ne_zero] using h0
  exact_mod_cast this

theorem isIntegral_term_sum {A : Type*} [CommRing A] {x : A} (hx : IsIntegral ℤ x) (ts : List SineTerm) :
    IsIntegral ℤ (ts.map fun t => (t.1 : A) * x ^ t.2).sum := by
  induction ts with
  | nil => exact isIntegral_zero
  | cons t ts ih =>
    rw [List.map_cons, List.sum_cons]
    exact ((isIntegral_intCast t.1).mul (hx.pow t.2)).add ih

theorem norm_term_sum_le {z : ℂ} (hz : ‖z‖ = 1) (ts : List SineTerm) :
    ‖(ts.map fun t => (t.1 : ℂ) * z ^ t.2).sum‖ ≤ absCoefs ts := by
  induction ts with
  | nil => simp [absCoefs]
  | cons t ts ih =>
    rw [List.map_cons, List.sum_cons, absCoefs]
    refine (norm_add_le _ _).trans ?_
    push_cast
    refine add_le_add ?_ ih
    rw [norm_mul, norm_pow, hz, one_pow, mul_one, Complex.norm_intCast]
    simp

/-- An algebraic integer of a cyclotomic field whose conjugates are at most B is 0 or at least B^-N. -/
theorem one_le_norm_rootSum_of_extension {N : ℕ} (hN : 0 < N) (K : Type) [Field K] [Algebra ℚ K]
    [IsCyclotomicExtension {N} ℚ K] (ts : List SineTerm) (h : rootSum N ts ≠ 0) :
    1 ≤ ‖rootSum N ts‖ * (absCoefs ts : ℝ) ^ N := by
  classical
  have : NeZero N := ⟨hN.ne'⟩
  have : FiniteDimensional ℚ K := IsCyclotomicExtension.finiteDimensional {N} ℚ K
  have hζ : IsPrimitiveRoot (IsCyclotomicExtension.zeta N ℚ (K)) N :=
    IsCyclotomicExtension.zeta_spec N ℚ (K)
  generalize IsCyclotomicExtension.zeta N ℚ (K) = ζ at hζ
  have hirr : Irreducible (Polynomial.cyclotomic N ℚ) := Polynomial.cyclotomic.irreducible_rat hN
  obtain ⟨α, hαdef⟩ : ∃ α : K, α = (ts.map fun t => (t.1 : K) * ζ ^ t.2).sum :=
    ⟨_, rfl⟩
  have hα : ∀ σ : K →ₐ[ℚ] ℂ, σ α = (ts.map fun t => (t.1 : ℂ) * (σ ζ) ^ t.2).sum := by
    intro σ
    rw [hαdef, map_list_sum, List.map_map]
    congr 1
    exact List.map_congr_left fun t _ => by simp
  have hσζ : ∀ σ : K →ₐ[ℚ] ℂ, ‖σ ζ‖ = 1 := fun σ =>
    (hζ.map_of_injective σ.injective).norm'_eq_one hN.ne'
  obtain ⟨σ₀, hσ₀⟩ : ∃ σ : K →ₐ[ℚ] ℂ, σ ζ = zeta N := by
    have hmem : zeta N ∈ primitiveRoots N ℂ := (mem_primitiveRoots hN).mpr (zeta_primitive hN)
    refine ⟨(hζ.embeddingsEquivPrimitiveRoots ℂ hirr).symm ⟨zeta N, hmem⟩, ?_⟩
    have := congrArg Subtype.val ((hζ.embeddingsEquivPrimitiveRoots ℂ hirr).apply_symm_apply ⟨zeta N, hmem⟩)
    rwa [IsPrimitiveRoot.embeddingsEquivPrimitiveRoots_apply_coe] at this
  have hα₀ : σ₀ α = rootSum N ts := by rw [hα, hσ₀, rootSum]
  have hα0 : α ≠ 0 := fun h0 => h (by rw [← hα₀, h0, map_zero])
  have hint : IsIntegral ℤ α := by
    rw [hαdef]
    exact isIntegral_term_sum (hζ.isIntegral hN) ts
  -- the norm is a non-zero integer
  obtain ⟨z, hz⟩ := IsIntegrallyClosed.isIntegral_iff.mp (Algebra.isIntegral_norm ℚ hint)
  have hz0 : z ≠ 0 := by
    rintro rfl
    rw [map_zero] at hz
    exact hα0 (Algebra.norm_eq_zero_iff.mp hz.symm)
  have hprod := Algebra.norm_eq_prod_embeddings ℚ ℂ α
  rw [← hz] at hprod
  have hnorm : 1 ≤ ∏ σ : K →ₐ[ℚ] ℂ, ‖σ α‖ := by
    rw [← norm_prod, ← hprod]
    have : (1 : ℝ) ≤ |(z : ℝ)| := by exact_mod_cast Int.one_le_abs hz0
    simpa using this
  have hB : ∀ σ : K →ₐ[ℚ] ℂ, ‖σ α‖ ≤ absCoefs ts := fun σ => by
    rw [hα]; exact norm_term_sum_le (hσζ σ) ts
  have hB1 : (1 : ℝ) ≤ absCoefs ts := by
    have : absCoefs ts ≠ 0 := by
      intro h0
      have := hB σ₀
      rw [h0, Nat.cast_zero] at this
      exact h (by rw [← hα₀]; exact norm_le_zero_iff.mp this)
    exact_mod_cast Nat.one_le_iff_ne_zero.mpr this
  rw [← Finset.mul_prod_erase _ _ (Finset.mem_univ σ₀), hα₀] at hnorm
  refine hnorm.trans (mul_le_mul_of_nonneg_left ?_ (norm_nonneg _))
  calc _ ≤ ∏ _σ ∈ Finset.univ.erase σ₀, (absCoefs ts : ℝ) :=
        Finset.prod_le_prod (fun _ _ => norm_nonneg _) fun σ _ => hB σ
    _ = (absCoefs ts : ℝ) ^ (Finset.univ.erase σ₀).card := by rw [Finset.prod_const]
    _ ≤ (absCoefs ts : ℝ) ^ N := by
        refine pow_le_pow_right₀ hB1 ?_
        refine (Finset.card_erase_le).trans ?_
        rw [Finset.card_univ, AlgHom.card,
          IsCyclotomicExtension.finrank (n := N) (K) hirr]
        exact Nat.totient_le N

/-- A sum of N-th roots of unity with absolute coefficients adding up to B is 0 or at least B^-N. -/
theorem one_le_norm_rootSum {N : ℕ} (hN : 0 < N) (ts : List SineTerm) (h : rootSum N ts ≠ 0) :
    1 ≤ ‖rootSum N ts‖ * (absCoefs ts : ℝ) ^ N := by
  have : NeZero N := ⟨hN.ne'⟩
  have : NeZero ((N : ℕ) : ℚ) := ⟨by exact_mod_cast hN.ne'⟩
  exact @one_le_norm_rootSum_of_extension N hN (CyclotomicField N ℚ) _ (CyclotomicField.algebra N ℚ)
    (CyclotomicField.isCyclotomicExtension N ℚ) ts h

theorem absCoefs_rootTerms (N : ℕ) (ts : List SineTerm) : absCoefs (rootTerms N ts) = 2 * absCoefs ts := by
  induction ts with
  | nil => rfl
  | cons t ts ih => simp only [rootTerms, absCoefs, ih, Int.natAbs_neg]; ring

/-- A sum of sines is 0 or at least (2B)^-N / 2. -/
theorem one_le_abs_sineSum {N : ℕ} (hN : 0 < N) {ts : List SineTerm} (h : sineSum N ts ≠ 0) :
    1 ≤ 2 * |sineSum N ts| * (2 * absCoefs ts : ℝ) ^ N := by
  have h0 : rootSum N (rootTerms N ts) ≠ 0 := by
    rw [rootSum_rootTerms hN]
    simpa [Complex.I_ne_zero] using h
  have := one_le_norm_rootSum hN (rootTerms N ts) h0
  rw [rootSum_rootTerms hN, absCoefs_rootTerms] at this
  push_cast at this
  simpa [Complex.norm_real] using this

end Sys2Proof.Laws
end

