-- ==== Sys2Proof/Laws/SineEnclosure.lean ====
section
/-! SUPPORT. Laws/SineEnclosure.lean: the fixed-point sine of Machine/ExactSine.lean lies within 2 units of 2^-p of the
real sine (`abs_sineFix_sub_le`), by the alternating series of arctan and sin. -/

namespace Sys2Proof.Laws

open Sys2Proof.Machine Finset

/-- The partial sums of an alternating series are within the first term left out. -/
theorem alternating_error {f : ℕ → ℝ} {l : ℝ} (hf : Antitone f)
    (h : Filter.Tendsto (fun n => ∑ i ∈ range n, (-1) ^ i * f i) Filter.atTop (nhds l)) (n : ℕ) :
    |∑ i ∈ range n, (-1) ^ i * f i - l| ≤ f n := by
  obtain ⟨k, rfl | rfl⟩ := n.even_or_odd'
  · have h1 := hf.alternating_series_le_tendsto h k
    have h2 := hf.tendsto_le_alternating_series h k
    rw [sum_range_succ, pow_mul] at h2
    rw [abs_le]
    constructor <;> simp at * <;> linarith
  · have h1 := hf.tendsto_le_alternating_series h k
    have h2 := hf.alternating_series_le_tendsto h (k + 1)
    rw [show 2 * (k + 1) = 2 * k + 1 + 1 by ring, sum_range_succ _ (2 * k + 1)] at h2
    have h3 : ((-1 : ℝ)) ^ (2 * k + 1) = -1 := by rw [pow_succ, pow_mul]; norm_num
    rw [h3] at h2
    rw [abs_le]
    constructor <;> linarith

/-- A rounded-down quotient of naturals is within 1 below the real quotient. -/
theorem nat_div_error (a b : ℕ) (hb : 0 < b) :
    |((a / b : ℕ) : ℝ) - (a : ℝ) / b| ≤ 1 := by
  have hb' : (0 : ℝ) < b := by exact_mod_cast hb
  have h1 : ((a / b : ℕ) : ℝ) ≤ (a : ℝ) / b := Nat.cast_div_le
  have h2 : (a : ℝ) / b < ((a / b : ℕ) : ℝ) + 1 := by
    rw [div_lt_iff₀ hb']
    exact_mod_cast Nat.lt_div_mul_add (a := a) hb |>.trans_eq (by ring)
  rw [abs_le]
  constructor <;> linarith

/-- The series of arctan y, as an alternating sum. -/
theorem arctan_tendsto {y : ℝ} (hy : ‖y‖ < 1) :
    Filter.Tendsto (fun n => ∑ i ∈ range n, (-1) ^ i * (y ^ (2 * i + 1) / (2 * i + 1 : ℕ))) Filter.atTop
      (nhds (Real.arctan y)) := by
  simpa only [mul_div_assoc] using (Real.hasSum_arctan hy).tendsto_sum_nat

theorem arctanInv_partial (q x n : ℕ) (hx : 0 < x) :
    |(arctanInv q x n : ℝ) - 2 ^ q * ∑ i ∈ range n, (-1) ^ i * ((1 / x : ℝ) ^ (2 * i + 1) / (2 * i + 1 : ℕ))| ≤ n := by
  induction n with
  | zero => simp [arctanInv]
  | succ n ih =>
    have hpos : 0 < (2 * n + 1) * x ^ (2 * n + 1) := by positivity
    have hd := nat_div_error (2 ^ q) _ hpos
    have hx' : (x : ℝ) ≠ 0 := by exact_mod_cast hx.ne'
    have hq : ((2 ^ q : ℕ) : ℝ) / ((2 * n + 1) * x ^ (2 * n + 1) : ℕ) =
        2 ^ q * ((1 / x : ℝ) ^ (2 * n + 1) / (2 * n + 1 : ℕ)) := by
      rw [one_div, inv_pow]
      push_cast
      field_simp
    rw [hq] at hd
    rw [sum_range_succ, mul_add]
    simp only [arctanInv]
    generalize 2 ^ q / ((2 * n + 1) * x ^ (2 * n + 1)) = d at hd ⊢
    generalize (1 / x : ℝ) ^ (2 * n + 1) / (2 * n + 1 : ℕ) = y at hd ⊢
    generalize ∑ i ∈ range n, (-1) ^ i * ((1 / x : ℝ) ^ (2 * i + 1) / (2 * i + 1 : ℕ)) = Y at ih ⊢
    rw [abs_le] at *
    rcases Nat.even_or_odd n with he | ho
    · simp only [Nat.even_iff.mp he, if_true, he.neg_one_pow]
      push_cast
      constructor <;> linarith
    · simp only [Nat.odd_iff.mp ho, one_ne_zero, if_false, ho.neg_one_pow]
      push_cast
      constructor <;> linarith

theorem arctanInv_error (q x n : ℕ) (hx : 2 ≤ x) :
    |(arctanInv q x n : ℝ) - 2 ^ q * Real.arctan (1 / x)| ≤ n + 2 ^ q * (1 / x : ℝ) ^ (2 * n + 1) := by
  have hx0 : (0 : ℝ) < x := by exact_mod_cast (by omega : 0 < x)
  have hx2 : (2 : ℝ) ≤ x := by exact_mod_cast hx
  have hy1 : (1 / x : ℝ) ≤ 1 := by rw [div_le_one hx0]; linarith
  have hy0 : (0 : ℝ) ≤ 1 / x := by positivity
  have hy : ‖(1 / x : ℝ)‖ < 1 := by
    rw [Real.norm_of_nonneg hy0, div_lt_one hx0]; linarith
  have hanti : Antitone fun i : ℕ => (1 / x : ℝ) ^ (2 * i + 1) / (2 * i + 1 : ℕ) := by
    refine antitone_nat_of_succ_le fun i => ?_
    apply div_le_div₀ (by positivity) (pow_le_pow_of_le_one hy0 hy1 (by omega)) (by positivity)
    exact_mod_cast (by omega : 2 * i + 1 ≤ 2 * (i + 1) + 1)
  have h1 := alternating_error hanti (arctan_tendsto hy) n
  have h2 := arctanInv_partial q x n (by omega)
  have h3 : (1 / x : ℝ) ^ (2 * n + 1) / (2 * n + 1 : ℕ) ≤ (1 / x : ℝ) ^ (2 * n + 1) :=
    div_le_self (by positivity) (by exact_mod_cast (by omega : 1 ≤ 2 * n + 1))
  have hq : (0 : ℝ) < 2 ^ q := by positivity
  calc _ = |((arctanInv q x n : ℝ) - 2 ^ q * ∑ i ∈ range n, (-1) ^ i * ((1 / x : ℝ) ^ (2 * i + 1) / (2 * i + 1 : ℕ)))
        + 2 ^ q * ((∑ i ∈ range n, (-1) ^ i * ((1 / x : ℝ) ^ (2 * i + 1) / (2 * i + 1 : ℕ))) - Real.arctan (1 / x))| := by
        congr 1; ring
    _ ≤ n + 2 ^ q * (1 / x : ℝ) ^ (2 * n + 1) := by
        refine (abs_add_le _ _).trans (add_le_add h2 ?_)
        rw [abs_mul, abs_of_pos hq]
        exact mul_le_mul_of_nonneg_left (h1.trans h3) hq.le

/-- The fixed-point π. -/
theorem piFix_error (q : ℕ) : |(piFix q : ℝ) - 2 ^ q * Real.pi| ≤ 5 * q + 41 := by
  set n := q / 4 + 2 with hn
  have hpi : Real.pi = 16 * Real.arctan (1 / (5 : ℕ)) - 4 * Real.arctan (1 / (239 : ℕ)) := by
    have := Real.four_mul_arctan_inv_5_sub_arctan_inv_239
    norm_num at this ⊢
    linarith
  have h5 := arctanInv_error q 5 n (by norm_num)
  have h239 := arctanInv_error q 239 n (by norm_num)
  have hq : (2 : ℝ) ^ q ≤ 8 * 16 ^ (q / 4) := by
    have : q ≤ 4 * (q / 4) + 3 := by omega
    calc (2 : ℝ) ^ q ≤ 2 ^ (4 * (q / 4) + 3) := pow_le_pow_right₀ (by norm_num) this
      _ = 8 * 16 ^ (q / 4) := by rw [pow_add, pow_mul]; norm_num; ring
  have key : (2 : ℝ) ^ q * (1 / 5) ^ (2 * n + 1) ≤ 1 / 40 := by
    have e : ((1 : ℝ) / 5) ^ (2 * n + 1) = (1 / 25) ^ (q / 4) * (1 / 3125) := by
      rw [hn, show 2 * (q / 4 + 2) + 1 = 2 * (q / 4) + 5 by ring, pow_add, pow_mul]; norm_num
    have h16 : (16 : ℝ) ^ (q / 4) * (1 / 25) ^ (q / 4) ≤ 1 := by
      rw [← mul_pow]; exact pow_le_one₀ (by norm_num) (by norm_num)
    rw [e]
    have : (0 : ℝ) ≤ (1 / 25) ^ (q / 4) * (1 / 3125) := by positivity
    calc _ ≤ 8 * 16 ^ (q / 4) * ((1 / 25) ^ (q / 4) * (1 / 3125) : ℝ) := mul_le_mul_of_nonneg_right hq this
      _ = 8 / 3125 * ((16 : ℝ) ^ (q / 4) * (1 / 25) ^ (q / 4)) := by ring
      _ ≤ 1 / 40 := by linarith
  have key2 : (2 : ℝ) ^ q * (1 / 239) ^ (2 * n + 1) ≤ 1 / 40 := by
    refine le_trans (mul_le_mul_of_nonneg_left ?_ (by positivity)) key
    exact pow_le_pow_left₀ (by norm_num) (by norm_num) _
  have hz : |((16 * arctanInv q 5 n - 4 * arctanInv q 239 n : ℤ) : ℝ) - 2 ^ q * Real.pi| ≤ 5 * q + 41 := by
    have hnq : (20 : ℝ) * n ≤ 5 * q + 40 := by
      exact_mod_cast (by omega : 20 * n ≤ 5 * q + 40)
    rw [hpi]
    push_cast at *
    rw [abs_le] at *
    constructor <;> linarith
  have hpos : (0 : ℝ) ≤ 2 ^ q * Real.pi := by positivity
  unfold piFix
  rw [← hn]
  set z : ℤ := 16 * arctanInv q 5 n - 4 * arctanInv q 239 n
  rcases le_total 0 z with h | h
  · rw [show ((z.toNat : ℕ) : ℝ) = (z : ℝ) by exact_mod_cast Int.toNat_of_nonneg h]; exact hz
  · rw [Int.toNat_of_nonpos h]
    have : (z : ℝ) ≤ 0 := by exact_mod_cast h
    rw [abs_le] at *
    push_cast
    constructor <;> linarith

/-- The real value of the Horner scheme of `sineHorner`. -/
noncomputable def hornerReal (t : ℝ) : ℕ → ℕ → ℝ
  | _, 0 => 1
  | k, n + 1 => 1 - t / ((2 * k + 2) * (2 * k + 3)) * hornerReal t (k + 1) n

theorem hornerReal_mem {t : ℝ} (h0 : 0 ≤ t) (h1 : t ≤ 6) (k n : ℕ) :
    0 ≤ hornerReal t k n ∧ hornerReal t k n ≤ 1 := by
  induction n generalizing k with
  | zero => simp [hornerReal]
  | succ n ih =>
    obtain ⟨i0, i1⟩ := ih (k + 1)
    have hm : (6 : ℝ) ≤ (2 * k + 2) * (2 * k + 3) := by
      have : (0 : ℝ) ≤ k := Nat.cast_nonneg k
      nlinarith
    have hr0 : 0 ≤ t / ((2 * k + 2) * (2 * k + 3)) := by positivity
    have hr1 : t / ((2 * k + 2) * (2 * k + 3)) ≤ 1 := by rw [div_le_one (by linarith)]; linarith
    simp only [hornerReal]
    constructor
    · nlinarith
    · nlinarith [mul_nonneg hr0 i0]

/-- The Horner scheme is the Taylor polynomial, divided by its leading factor. -/
theorem hornerReal_eq_sum (t : ℝ) (k n : ℕ) :
    hornerReal t k n = ∑ j ∈ range (n + 1), (-1) ^ j * (t ^ j * ((2 * k + 1).factorial / (2 * k + 2 * j + 1).factorial)) := by
  induction n generalizing k with
  | zero => simp [hornerReal, div_self, Nat.factorial_ne_zero]
  | succ n ih =>
    rw [sum_range_succ']
    simp only [hornerReal, ih (k + 1), mul_sum]
    have hf : ((2 * (k + 1) + 1).factorial : ℝ) = (2 * k + 2) * (2 * k + 3) * (2 * k + 1).factorial := by
      rw [show 2 * (k + 1) + 1 = (2 * k + 1) + 1 + 1 by ring, Nat.factorial_succ, Nat.factorial_succ]
      push_cast; ring
    have h0 : (((2 * k + 1).factorial : ℕ) : ℝ) ≠ 0 := by exact_mod_cast Nat.factorial_ne_zero _
    simp only [pow_zero, mul_zero, add_zero, div_self h0, mul_one]
    rw [sub_eq_add_neg, add_comm, ← sum_neg_distrib]
    congr 1
    refine sum_congr rfl fun j _ => ?_
    rw [hf, show 2 * (k + 1) + 2 * j + 1 = 2 * k + 2 * (j + 1) + 1 by ring, pow_succ, pow_succ]
    have hk : ((2 * k + 2) * (2 * k + 3) : ℝ) ≠ 0 := by positivity
    have hfj : (((2 * k + 2 * (j + 1) + 1).factorial : ℕ) : ℝ) ≠ 0 := by exact_mod_cast Nat.factorial_ne_zero _
    field_simp

/-- The Taylor remainder of sin on the first quarter turn. -/
theorem horner_sin_error {θ : ℝ} (h0 : 0 ≤ θ) (h1 : θ ≤ 1.571) (n : ℕ) :
    |θ * hornerReal (θ ^ 2) 0 n - Real.sin θ| ≤ θ ^ (2 * (n + 1) + 1) / (2 * (n + 1) + 1).factorial := by
  have hanti : Antitone fun i : ℕ => θ ^ (2 * i + 1) / (2 * i + 1).factorial := by
    refine antitone_nat_of_succ_le fun i => ?_
    have hfac : ((2 * (i + 1) + 1).factorial : ℝ) = (2 * i + 2) * (2 * i + 3) * (2 * i + 1).factorial := by
      rw [show 2 * (i + 1) + 1 = (2 * i + 1) + 1 + 1 by ring, Nat.factorial_succ, Nat.factorial_succ]
      push_cast; ring
    have hp : (0 : ℝ) < (2 * i + 1).factorial := by exact_mod_cast Nat.factorial_pos _
    have hm : (6 : ℝ) ≤ (2 * i + 2) * (2 * i + 3) := by
      have : (0 : ℝ) ≤ i := Nat.cast_nonneg i
      nlinarith
    rw [hfac, show 2 * (i + 1) + 1 = (2 * i + 1) + 2 by ring, pow_add,
      div_le_div_iff₀ (by positivity) hp]
    have : θ ^ 2 ≤ (2 * i + 2) * (2 * i + 3) := by nlinarith
    calc θ ^ (2 * i + 1) * θ ^ 2 * (2 * i + 1).factorial
        ≤ θ ^ (2 * i + 1) * ((2 * i + 2) * (2 * i + 3)) * (2 * i + 1).factorial := by gcongr
      _ = _ := by ring
  have ht : Filter.Tendsto (fun n => ∑ i ∈ range n, (-1) ^ i * (θ ^ (2 * i + 1) / (2 * i + 1).factorial))
      Filter.atTop (nhds (Real.sin θ)) := by
    simpa only [mul_div_assoc] using (Real.hasSum_sin θ).tendsto_sum_nat
  have h := alternating_error hanti ht (n + 1)
  rw [hornerReal_eq_sum, mul_sum]
  convert h using 3
  refine sum_congr rfl fun j _ => ?_
  simp only [mul_zero, zero_add, Nat.factorial_one, Nat.cast_one]
  rw [← pow_mul]
  ring

/-- The remainder is far below 2^-p at the length `sineQuarter` uses. -/
theorem taylor_tail {θ : ℝ} (h0 : 0 ≤ θ) (h1 : θ ≤ 1.571) (p : ℕ) :
    2 ^ p * (θ ^ (2 * (p / 4 + 4 + 1) + 1) / (2 * (p / 4 + 4 + 1) + 1).factorial) ≤ 1 / 2 := by
  have step : ∀ j : ℕ, θ ^ (2 * (j + 2) + 1) / (2 * (j + 2) + 1).factorial ≤ 1 / 10 * (1 / 16) ^ j := by
    intro j
    induction j with
    | zero =>
      have : θ ^ 5 ≤ 1.571 ^ 5 := pow_le_pow_left₀ h0 h1 5
      norm_num [Nat.factorial] at this ⊢
      linarith
    | succ j ih =>
      have hfac : ((2 * (j + 1 + 2) + 1).factorial : ℝ) =
          (2 * j + 6) * (2 * j + 7) * (2 * (j + 2) + 1).factorial := by
        rw [show 2 * (j + 1 + 2) + 1 = (2 * (j + 2) + 1) + 1 + 1 by ring, Nat.factorial_succ, Nat.factorial_succ]
        push_cast; ring
      have hp : (0 : ℝ) < (2 * (j + 2) + 1).factorial := by exact_mod_cast Nat.factorial_pos _
      have hj : (0 : ℝ) ≤ j := Nat.cast_nonneg j
      have hr : θ ^ 2 / ((2 * j + 6) * (2 * j + 7)) ≤ 1 / 16 := by
        rw [div_le_div_iff₀ (by positivity) (by norm_num)]
        nlinarith
      have hr0 : 0 ≤ θ ^ 2 / ((2 * j + 6) * (2 * j + 7)) := by positivity
      have e : θ ^ (2 * (j + 1 + 2) + 1) / (2 * (j + 1 + 2) + 1).factorial =
          θ ^ (2 * (j + 2) + 1) / (2 * (j + 2) + 1).factorial * (θ ^ 2 / ((2 * j + 6) * (2 * j + 7))) := by
        rw [hfac, show 2 * (j + 1 + 2) + 1 = (2 * (j + 2) + 1) + 2 by ring, pow_add]
        field_simp
      rw [e, pow_succ]
      calc _ ≤ (1 / 10 * (1 / 16) ^ j) * (1 / 16 : ℝ) := mul_le_mul ih hr hr0 (by positivity)
        _ = _ := by ring
  have h := step (p / 4 + 3)
  rw [show p / 4 + 3 + 2 = p / 4 + 4 + 1 by ring] at h
  have hq : (2 : ℝ) ^ p ≤ 8 * 16 ^ (p / 4) := by
    have : p ≤ 4 * (p / 4) + 3 := by omega
    calc (2 : ℝ) ^ p ≤ 2 ^ (4 * (p / 4) + 3) := pow_le_pow_right₀ (by norm_num) this
      _ = 8 * 16 ^ (p / 4) := by rw [pow_add, pow_mul]; norm_num; ring
  have h16 : (16 : ℝ) ^ (p / 4) * (1 / 16) ^ (p / 4) = 1 := by rw [← mul_pow]; norm_num
  calc _ ≤ 8 * 16 ^ (p / 4) * (1 / 10 * (1 / 16) ^ (p / 4 + 3) : ℝ) := by
        exact mul_le_mul hq h (by positivity) (by positivity)
    _ = 8 / 40960 * ((16 : ℝ) ^ (p / 4) * (1 / 16) ^ (p / 4)) := by rw [pow_add]; ring
    _ ≤ 1 / 2 := by rw [h16]; norm_num

/-- The fixed-point Horner scheme, for `b` near `2^q · t`: its error stays below four times that of the angle. -/
theorem sineHorner_error {t ε : ℝ} {b q : ℕ} (ht0 : 0 ≤ t) (ht1 : t ≤ 2.4681) (hε : ε ≤ 1 / 1000)
    (hq : 1 / 2 ^ q ≤ ε / 22) (hb : |(b : ℝ) / 2 ^ q - t| ≤ 4 * ε) (k n : ℕ) :
    sineHorner b q k n ≤ 2 ^ q ∧ |(sineHorner b q k n : ℝ) / 2 ^ q - hornerReal t k n| ≤ 4 * ε := by
  have hQ : (0 : ℝ) < 2 ^ q := by positivity
  have hε0 : 0 ≤ ε := by
    have : (0 : ℝ) < 1 / 2 ^ q := by positivity
    linarith
  induction n generalizing k with
  | zero => simp [sineHorner, hornerReal]; linarith
  | succ n ih =>
    obtain ⟨ih1, ih2⟩ := ih (k + 1)
    obtain ⟨r0, r1⟩ := hornerReal_mem ht0 (by linarith) (k + 1) n
    simp only [sineHorner, hornerReal]
    generalize hh : sineHorner b q (k + 1) n = h at ih1 ih2 ⊢
    generalize hornerReal t (k + 1) n = H at ih2 r0 r1 ⊢
    have hmpos : 0 < 2 ^ q * ((2 * k + 2) * (2 * k + 3)) := by positivity
    have hd := nat_div_error (b * h) _ hmpos
    generalize b * h / (2 ^ q * ((2 * k + 2) * (2 * k + 3))) = d at hd ⊢
    have hk : (0 : ℝ) ≤ k := Nat.cast_nonneg k
    have hm6 : (6 : ℝ) ≤ (2 * k + 2) * (2 * k + 3) := by nlinarith
    have hh1 : (h : ℝ) / 2 ^ q ≤ 1 := by rw [div_le_one hQ]; exact_mod_cast ih1
    have hh0 : 0 ≤ (h : ℝ) / 2 ^ q := by positivity
    have hb0 : 0 ≤ (b : ℝ) / 2 ^ q := by positivity
    have e : ((b * h : ℕ) : ℝ) / (2 ^ q * ((2 * k + 2) * (2 * k + 3)) : ℕ) =
        2 ^ q * ((b : ℝ) / 2 ^ q * ((h : ℝ) / 2 ^ q) / ((2 * k + 2) * (2 * k + 3))) := by
      push_cast
      field_simp
    rw [e] at hd
    generalize (h : ℝ) / 2 ^ q = x at hh0 hh1 ih2 hd
    generalize (b : ℝ) / 2 ^ q = y at hb hb0 hd
    generalize hM : ((2 * k + 2) * (2 * k + 3) : ℝ) = M at hm6 hd
    rw [abs_le] at hb ih2
    have hy : y ≤ 2.5 := by linarith
    have hxy : y * x / M ≤ 2.5 / 6 := by
      apply div_le_div₀ (by norm_num) _ (by norm_num) hm6
      nlinarith
    have hdq : (d : ℝ) / 2 ^ q ≤ y * x / M + ε / 22 ∧ y * x / M - ε / 22 ≤ (d : ℝ) / 2 ^ q := by
      rw [abs_le] at hd
      have h1 : 1 ≤ ε / 22 * 2 ^ q := by rwa [div_le_iff₀ hQ] at hq
      rw [div_le_iff₀ hQ, le_div_iff₀ hQ]
      constructor <;> nlinarith
    have hdle : d ≤ 2 ^ q := by
      have : (d : ℝ) / 2 ^ q ≤ 1 := by linarith
      rw [div_le_one hQ] at this
      exact_mod_cast this
    refine ⟨Nat.sub_le _ _, ?_⟩
    rw [Nat.cast_sub hdle, sub_div]
    push_cast
    rw [div_self hQ.ne']
    have hdiff : |y * x / M - t / M * H| ≤ 2.4 * ε := by
      have e2 : y * x / M - t / M * H = ((y - t) * x + t * (x - H)) / M := by ring
      rw [e2, abs_div, abs_of_pos (by linarith : (0 : ℝ) < M), div_le_iff₀ (by linarith)]
      have a1 : |(y - t) * x| ≤ 4 * ε := by
        rw [abs_mul]
        have : |y - t| ≤ 4 * ε := by rw [abs_le]; exact hb
        calc _ ≤ 4 * ε * 1 := mul_le_mul this (by rwa [abs_of_nonneg hh0]) (abs_nonneg _) (by linarith)
          _ = _ := by ring
      have a2 : |t * (x - H)| ≤ 2.4681 * (4 * ε) := by
        rw [abs_mul, abs_of_nonneg ht0]
        have : |x - H| ≤ 4 * ε := by rw [abs_le]; exact ih2
        exact mul_le_mul ht1 this (abs_nonneg _) (by norm_num)
      refine (abs_add_le _ _).trans ?_
      nlinarith
    rw [abs_le] at hdiff ⊢
    constructor <;> linarith [hdq.1, hdq.2, hdiff.1, hdiff.2]

theorem guard_bits {p : ℕ} (hp : 32 ≤ p) : (16 * (5 * p + 22) : ℝ) ≤ 2 ^ p := by
  have : 16 * (5 * p + 22) ≤ 2 ^ p := by
    induction p, hp using Nat.le_induction with
    | base => norm_num
    | succ n hn ih => rw [pow_succ]; omega
  exact_mod_cast this

/-- The fixed-point sine on the first quarter turn. -/
theorem sineQuarter_error {p v N : ℕ} (hp : 32 ≤ p) (hN : 0 < N) (hv : 2 * v ≤ N) :
    |(sineQuarter p v N : ℝ) - 2 ^ p * Real.sin (Real.pi * v / N)| ≤ 2 := by
  have hN' : (0 : ℝ) < N := by exact_mod_cast hN
  have hv' : (v : ℝ) / N ≤ 1 / 2 := by
    rw [div_le_div_iff₀ hN' (by norm_num)]
    exact_mod_cast (by omega : v * 2 ≤ 1 * N)
  have hv0 : (0 : ℝ) ≤ v / N := by positivity
  have hpi := Real.pi_lt_d4
  have hpi0 := Real.pi_pos
  set θ : ℝ := Real.pi * v / N with hθ
  have hθ' : θ = Real.pi * (v / N) := by rw [hθ]; ring
  have hθ0 : 0 ≤ θ := by rw [hθ']; positivity
  have hθ1 : θ ≤ 1.571 := by rw [hθ']; nlinarith
  have hg := guard_bits hp
  have hP : (0 : ℝ) < 2 ^ p := by positivity
  have hQ : (0 : ℝ) < 2 ^ (2 * p) := by positivity
  have hQP : (2 : ℝ) ^ (2 * p) = 2 ^ p * 2 ^ p := by rw [← pow_add]; congr 1; ring
  have hp0 : (32 : ℝ) ≤ p := by exact_mod_cast hp
  set ε : ℝ := (5 * p + 22) / 2 ^ (2 * p) with hε
  have hε0 : 0 < ε := by positivity
  have hεP : 2 ^ p * ε ≤ 1 / 16 := by
    rw [hε, hQP, ← mul_div_assoc, div_le_div_iff₀ (by positivity) (by norm_num)]
    nlinarith
  have hP32 : (2000 : ℝ) ≤ 2 ^ p := by linarith
  have hε1 : ε ≤ 1 / 1000 := by nlinarith
  have hq22 : 1 / 2 ^ (2 * p) ≤ ε / 22 := by
    rw [hε, div_div, div_le_div_iff₀ hQ (by positivity)]
    nlinarith
  -- the fixed-point angle
  have hpf := piFix_error (2 * p)
  have ha := nat_div_error (piFix (2 * p) * v) N hN
  generalize hadef : piFix (2 * p) * v / N = a at ha
  have hA : |(a : ℝ) / 2 ^ (2 * p) - θ| ≤ ε := by
    have e : (a : ℝ) / 2 ^ (2 * p) - θ = (((a : ℝ) - ((piFix (2 * p) * v : ℕ) : ℝ) / N) +
        ((piFix (2 * p) : ℝ) - 2 ^ (2 * p) * Real.pi) * (v / N)) / 2 ^ (2 * p) := by
      rw [hθ']; push_cast; field_simp; ring
    rw [e, abs_div, abs_of_pos hQ, hε, div_le_div_iff_of_pos_right hQ]
    refine (abs_add_le _ _).trans ?_
    rw [abs_mul, abs_of_nonneg hv0]
    have : |(piFix (2 * p) : ℝ) - 2 ^ (2 * p) * Real.pi| * (v / N) ≤ (5 * (2 * p : ℕ) + 41) * (1 / 2) :=
      mul_le_mul hpf hv' hv0 (by positivity)
    push_cast at this
    linarith
  -- its square
  have hbe := nat_div_error (a * a) (2 ^ (2 * p)) (by positivity)
  generalize hbdef : a * a / 2 ^ (2 * p) = b at hbe
  have hA0 : 0 ≤ (a : ℝ) / 2 ^ (2 * p) := by positivity
  have hB : |(b : ℝ) / 2 ^ (2 * p) - θ ^ 2| ≤ 4 * ε := by
    have e : (b : ℝ) / 2 ^ (2 * p) - θ ^ 2 = ((b : ℝ) - ((a * a : ℕ) : ℝ) / (2 ^ (2 * p) : ℕ)) * (1 / 2 ^ (2 * p)) +
        ((a : ℝ) / 2 ^ (2 * p) - θ) * ((a : ℝ) / 2 ^ (2 * p) + θ) := by
      push_cast; field_simp; ring
    rw [e]
    refine (abs_add_le _ _).trans ?_
    rw [abs_mul, abs_mul, abs_of_pos (by positivity : (0 : ℝ) < 1 / 2 ^ (2 * p)),
      abs_of_nonneg (by linarith : 0 ≤ (a : ℝ) / 2 ^ (2 * p) + θ)]
    have hA1 : (a : ℝ) / 2 ^ (2 * p) + θ ≤ 3.2 := by
      rw [abs_le] at hA; linarith
    have m1 : |(b : ℝ) - ((a * a : ℕ) : ℝ) / (2 ^ (2 * p) : ℕ)| * (1 / 2 ^ (2 * p)) ≤ 1 * (ε / 22) :=
      mul_le_mul hbe hq22 (by positivity) (by norm_num)
    have m2 : |(a : ℝ) / 2 ^ (2 * p) - θ| * ((a : ℝ) / 2 ^ (2 * p) + θ) ≤ ε * 3.2 :=
      mul_le_mul hA hA1 (by linarith) hε0.le
    linarith
  obtain ⟨hle, hH⟩ := sineHorner_error (sq_nonneg θ) (by nlinarith) hε1 hq22 hB 0 (p / 4 + 4)
  obtain ⟨r0, r1⟩ := hornerReal_mem (sq_nonneg θ) (by nlinarith) 0 (p / 4 + 4)
  have hsin := horner_sin_error hθ0 hθ1 (p / 4 + 4)
  have htail := taylor_tail hθ0 hθ1 p
  have hr := nat_div_error (a * sineHorner b (2 * p) 0 (p / 4 + 4)) (2 ^ (2 * p + p)) (by positivity)
  have hdef : sineQuarter p v N = a * sineHorner b (2 * p) 0 (p / 4 + 4) / 2 ^ (2 * p + p) := by
    simp only [sineQuarter, hadef, hbdef]
  rw [hdef]
  generalize sineHorner b (2 * p) 0 (p / 4 + 4) = h at *
  generalize hornerReal (θ ^ 2) 0 (p / 4 + 4) = H at *
  generalize θ ^ (2 * (p / 4 + 4 + 1) + 1) / (2 * (p / 4 + 4 + 1) + 1).factorial = ρ at *
  have e : ((a * h : ℕ) : ℝ) / (2 ^ (2 * p + p) : ℕ) =
      2 ^ p * ((a : ℝ) / 2 ^ (2 * p) * ((h : ℝ) / 2 ^ (2 * p))) := by
    push_cast
    rw [pow_add, hQP]
    field_simp
  rw [e] at hr
  generalize a * h / 2 ^ (2 * p + p) = r at hr
  have hh1 : (h : ℝ) / 2 ^ (2 * p) ≤ 1 := by rw [div_le_one hQ]; exact_mod_cast hle
  have hh0 : 0 ≤ (h : ℝ) / 2 ^ (2 * p) := by positivity
  generalize (h : ℝ) / 2 ^ (2 * p) = x at *
  generalize (a : ℝ) / 2 ^ (2 * p) = A at *
  have hprod : |A * x - θ * H| ≤ 8 * ε := by
    have e2 : A * x - θ * H = (A - θ) * x + θ * (x - H) := by ring
    rw [e2]
    refine (abs_add_le _ _).trans ?_
    rw [abs_mul, abs_mul, abs_of_nonneg hh0, abs_of_nonneg hθ0]
    have m1 : |A - θ| * x ≤ ε * 1 := mul_le_mul hA hh1 hh0 hε0.le
    have m2 : θ * |x - H| ≤ 1.571 * (4 * ε) := mul_le_mul hθ1 hH (abs_nonneg _) (by norm_num)
    linarith
  have e3 : (r : ℝ) - 2 ^ p * Real.sin θ =
      ((r : ℝ) - 2 ^ p * (A * x)) + 2 ^ p * ((A * x - θ * H) + (θ * H - Real.sin θ)) := by ring
  rw [e3]
  refine (abs_add_le _ _).trans ?_
  rw [abs_mul, abs_of_pos hP]
  have m3 := (abs_add_le (A * x - θ * H) (θ * H - Real.sin θ)).trans (add_le_add hprod hsin)
  have m4 := mul_le_mul_of_nonneg_left m3 hP.le
  linarith [mul_add ((2 : ℝ) ^ p) (8 * ε) ρ]

/-- The fixed-point sine of a rational angle, at any precision of 32 bits or more. -/
theorem abs_sineFix_sub_le {p N : ℕ} (hp : 32 ≤ p) (hN : 0 < N) (e : ℕ) :
    |(sineFix p e N : ℝ) - 2 ^ p * Real.sin (2 * Real.pi * e / N)| ≤ 2 := by
  have hN' : (N : ℝ) ≠ 0 := by exact_mod_cast hN.ne'
  have hmod : e % N < N := Nat.mod_lt _ hN
  have hperiod : Real.sin (2 * Real.pi * e / N) = Real.sin (Real.pi * ((2 * (e % N) : ℕ) : ℝ) / N) := by
    have he : (e : ℝ) = (e % N : ℕ) + N * (e / N : ℕ) := by exact_mod_cast (Nat.mod_add_div e N).symm
    rw [he, show 2 * Real.pi * ((e % N : ℕ) + N * (e / N : ℕ)) / N =
      Real.pi * ((2 * (e % N) : ℕ) : ℝ) / N + (e / N : ℕ) * (2 * Real.pi) by push_cast; field_simp]
    exact Real.sin_add_nat_mul_two_pi _ _
  rw [hperiod]
  unfold sineFix
  generalize hv : 2 * (e % N) = v
  have hvN : v < 2 * N := by omega
  simp only
  split_ifs with h1 h2 h3
  · exact_mod_cast sineQuarter_error hp hN h1
  · have := sineQuarter_error hp hN (v := N - v) (by omega)
    rw [show Real.pi * ((N - v : ℕ) : ℝ) / N = Real.pi - Real.pi * v / N by
      rw [Nat.cast_sub h2]; field_simp, Real.sin_pi_sub] at this
    exact_mod_cast this
  · have := sineQuarter_error hp hN (v := v - N) (by omega)
    rw [show Real.pi * ((v - N : ℕ) : ℝ) / N = Real.pi * v / N - Real.pi by
      rw [Nat.cast_sub (by omega)]; field_simp, Real.sin_sub_pi] at this
    push_cast
    rw [← abs_neg]
    convert this using 2; ring
  · have := sineQuarter_error hp hN (v := 2 * N - v) (by omega)
    rw [show Real.pi * ((2 * N - v : ℕ) : ℝ) / N = 2 * Real.pi - Real.pi * v / N by
      rw [Nat.cast_sub hvN.le]; push_cast; field_simp, Real.sin_two_pi_sub] at this
    push_cast
    rw [← abs_neg]
    convert this using 2; ring

end Sys2Proof.Laws
end

