-- ==== Sys2Proof/Laws/ExactSine.lean ====
section
/-! SUPPORT. Laws/ExactSine.lean: `sineSumSign` is the sign of the real sum, for every list of terms
(`sineSumSign_eq_sign`). -/

namespace Sys2Proof.Laws

open Sys2Proof.Machine

theorem sineSum_cons (N : ℕ) (t : SineTerm) (ts : List SineTerm) :
    sineSum N (t :: ts) = t.1 * Real.sin (2 * Real.pi * t.2 / N) + sineSum N ts := by simp [sineSum]

/-- The fixed-point sum is within two units for each unit of coefficient. -/
theorem sineSumFix_error {p N : ℕ} (hp : 32 ≤ p) (hN : 0 < N) (ts : List SineTerm) :
    |(sineSumFix p N ts : ℝ) - 2 ^ p * sineSum N ts| ≤ 2 * absCoefs ts := by
  induction ts with
  | nil => simp [sineSumFix, sineSum, absCoefs]
  | cons t ts ih =>
    have h := abs_sineFix_sub_le hp hN t.2
    rw [sineSum_cons, sineSumFix, absCoefs]
    push_cast
    rw [show (t.1 : ℝ) * sineFix p t.2 N + sineSumFix p N ts -
        2 ^ p * (t.1 * Real.sin (2 * Real.pi * t.2 / N) + sineSum N ts) =
      t.1 * ((sineFix p t.2 N : ℝ) - 2 ^ p * Real.sin (2 * Real.pi * t.2 / N)) +
        ((sineSumFix p N ts : ℝ) - 2 ^ p * sineSum N ts) by ring]
    refine (abs_add_le _ _).trans ?_
    rw [abs_mul, mul_add]
    have : |(t.1 : ℝ)| * |(sineFix p t.2 N : ℝ) - 2 ^ p * Real.sin (2 * Real.pi * t.2 / N)| ≤ |(t.1 : ℝ)| * 2 :=
      mul_le_mul_of_nonneg_left h (abs_nonneg _)
    have ha : ((t.1.natAbs : ℕ) : ℝ) = |(t.1 : ℝ)| := by rw [Nat.cast_natAbs, Int.cast_abs]
    linarith

/-- A settled sign is the sign of the sum. -/
theorem signAt_sound {p N : ℕ} (hp : 32 ≤ p) (hN : 0 < N) {ts : List SineTerm} {x : ℤ}
    (h : signAt p N ts = some x) : x = (SignType.sign (sineSum N ts) : ℤ) := by
  have he := abs_le.mp (sineSumFix_error hp hN ts)
  have hP : (0 : ℝ) < 2 ^ p := by positivity
  unfold signAt at h
  simp only at h
  split_ifs at h with h1 h2
  · have h1' : (2 * absCoefs ts : ℝ) < sineSumFix p N ts := by exact_mod_cast h1
    have : 0 < sineSum N ts := pos_of_mul_pos_right (by linarith : (0 : ℝ) < 2 ^ p * sineSum N ts) hP.le
    rw [sign_pos this, ← Option.some_inj.mp h]; rfl
  · have h2' : (sineSumFix p N ts : ℝ) < -(2 * absCoefs ts) := by exact_mod_cast h2
    have : sineSum N ts < 0 := by
      by_contra hn
      have := mul_nonneg hP.le (not_lt.mp hn)
      linarith
    rw [sign_neg this, ← Option.some_inj.mp h]; rfl

theorem signLoop_sound {N : ℕ} (hN : 0 < N) {ts : List SineTerm} {x : ℤ} (fuel p : ℕ) (hp : 32 ≤ p)
    (h : signLoop N ts fuel p = some x) : x = (SignType.sign (sineSum N ts) : ℤ) := by
  induction fuel generalizing p with
  | zero => simp [signLoop] at h
  | succ fuel ih =>
    unfold signLoop at h
    cases hs : signAt p N ts with
    | some y => rw [hs] at h; exact signAt_sound hp hN (hs.trans h)
    | none => rw [hs] at h; exact ih (2 * p) (by omega) h

/-- Where the loop settles nothing, its last precision settles nothing. -/
theorem signAt_of_signLoop_none {N : ℕ} {ts : List SineTerm} (fuel p : ℕ)
    (h : signLoop N ts (fuel + 1) p = none) : signAt (2 ^ fuel * p) N ts = none := by
  induction fuel generalizing p with
  | zero =>
    unfold signLoop at h
    cases hs : signAt p N ts with
    | some y => simp [hs] at h
    | none => simpa using hs
  | succ fuel ih =>
    unfold signLoop at h
    cases hs : signAt p N ts with
    | some y => simp [hs] at h
    | none =>
      rw [hs] at h
      have := ih (2 * p) h
      rwa [← mul_assoc, ← pow_succ] at this

/-- A sum that the last precision does not settle is 0: a non-zero one is larger than its enclosure. -/
theorem sineSum_eq_zero_of_unsettled {p N : ℕ} (hp : 32 ≤ p) (hN : 0 < N) {ts : List SineTerm}
    (hlast : lastPrecision N ts ≤ p) (h : signAt p N ts = none) : sineSum N ts = 0 := by
  by_contra hne
  have he := abs_le.mp (sineSumFix_error hp hN ts)
  have hP : (0 : ℝ) < 2 ^ p := by positivity
  unfold signAt at h
  simp only at h
  split_ifs at h with h1 h2
  have h1' : (sineSumFix p N ts : ℝ) ≤ 2 * absCoefs ts := by exact_mod_cast not_lt.mp h1
  have h2' : -(2 * absCoefs ts : ℝ) ≤ sineSumFix p N ts := by exact_mod_cast not_lt.mp h2
  have hsmall : 2 ^ p * |sineSum N ts| ≤ 4 * absCoefs ts := by
    rw [← abs_of_pos hP, ← abs_mul, abs_le]
    constructor <;> linarith
  have hbig := one_le_abs_sineSum hN hne
  have hlog : (2 * absCoefs ts : ℝ) < 2 ^ (Nat.log2 (2 * absCoefs ts) + 1) := by
    exact_mod_cast Nat.lt_log2_self
  set B : ℝ := 2 * absCoefs ts with hB
  have hB0 : 0 ≤ B := by positivity
  have hle : (2 : ℝ) ^ p ≤ 4 * B ^ (N + 1) := by
    calc (2 : ℝ) ^ p = 2 ^ p * 1 := by ring
      _ ≤ 2 ^ p * (2 * |sineSum N ts| * B ^ N) := mul_le_mul_of_nonneg_left hbig hP.le
      _ = 2 * (2 ^ p * |sineSum N ts|) * B ^ N := by ring
      _ ≤ 2 * (4 * absCoefs ts) * B ^ N := by gcongr
      _ = 4 * B ^ (N + 1) := by rw [hB, pow_succ]; ring
  have hlt : 4 * B ^ (N + 1) < (2 : ℝ) ^ p := by
    calc 4 * B ^ (N + 1) < 4 * ((2 : ℝ) ^ (Nat.log2 (2 * absCoefs ts) + 1)) ^ (N + 1) := by gcongr
      _ = (2 : ℝ) ^ lastPrecision N ts := by rw [← pow_mul, lastPrecision, pow_add]; ring
      _ ≤ 2 ^ p := pow_le_pow_right₀ (by norm_num) hlast
  linarith

/-- The integer procedure decides the sign of the real sum, exactly and always. -/
theorem sineSumSign_eq_sign {N : ℕ} (hN : 0 < N) (ts : List SineTerm) :
    sineSumSign N ts = (SignType.sign (sineSum N ts) : ℤ) := by
  unfold sineSumSign
  cases h1 : signLoop N ts 2 32 with
  | some x => exact signLoop_sound hN 2 32 (by norm_num) h1
  | none =>
    dsimp only
    split_ifs with hv
    · rw [sineSum_eq_zero_of_vanishes hN hv, sign_zero]; rfl
    · cases h2 : signLoop N ts (Nat.log2 (lastPrecision N ts) + 1) 128 with
      | some x => exact signLoop_sound hN _ 128 (by norm_num) h2
      | none =>
        have hlog : lastPrecision N ts < 2 ^ (Nat.log2 (lastPrecision N ts) + 1) := Nat.lt_log2_self
        have h3 := signAt_of_signLoop_none _ 128 h2
        have hpow : 0 < 2 ^ Nat.log2 (lastPrecision N ts) := by positivity
        rw [sineSum_eq_zero_of_unsettled (by omega) hN (by rw [pow_succ] at hlog; omega) h3, sign_zero]; rfl

theorem sineSumSign_pos_iff {N : ℕ} (hN : 0 < N) (ts : List SineTerm) : 0 < sineSumSign N ts ↔ 0 < sineSum N ts := by
  rw [sineSumSign_eq_sign hN]
  rcases lt_trichotomy (sineSum N ts) 0 with h | h | h
  · simp [sign_neg h, h.le]
  · simp [h]
  · simp [sign_pos h, h]

theorem sineSumSign_neg_iff {N : ℕ} (hN : 0 < N) (ts : List SineTerm) : sineSumSign N ts < 0 ↔ sineSum N ts < 0 := by
  rw [sineSumSign_eq_sign hN]
  rcases lt_trichotomy (sineSum N ts) 0 with h | h | h
  · simp [sign_neg h, h]
  · simp [h]
  · simp [sign_pos h, h.le]

theorem sineSumSign_nonneg_iff {N : ℕ} (hN : 0 < N) (ts : List SineTerm) : 0 ≤ sineSumSign N ts ↔ 0 ≤ sineSum N ts := by
  simpa using (sineSumSign_neg_iff hN ts).not

theorem sineSumSign_nonpos_iff {N : ℕ} (hN : 0 < N) (ts : List SineTerm) : sineSumSign N ts ≤ 0 ↔ sineSum N ts ≤ 0 := by
  simpa using (sineSumSign_pos_iff hN ts).not

theorem sineSumSign_zero_iff {N : ℕ} (hN : 0 < N) (ts : List SineTerm) : sineSumSign N ts = 0 ↔ sineSum N ts = 0 := by
  have h1 := sineSumSign_nonneg_iff hN ts
  have h2 := sineSumSign_nonpos_iff hN ts
  constructor
  · intro h; exact le_antisymm (h2.mp h.le) (h1.mp h.ge)
  · intro h; exact le_antisymm (h2.mpr h.le) (h1.mpr h.ge)

end Sys2Proof.Laws
end

