-- ==== Sys2Proof/Laws/Fields.lean ====
section
/-! SUPPORT. Laws/Fields.lean: the field decoders on raw integers (spec 42_field_decoders.md R122): each raw value in
number arithmetic, and the range check each comes down to. -/

namespace Sys2Proof.Machine

theorem heavyRain_eq (f : Frame) : heavyRain f = decide (byteNat f 4 / 64 % 2 = 1) := by
  rw [heavyRain, BitVec.getLsbD, Nat.testBit_eq_decide_div_mod_eq]
  rfl

theorem sensorOffline_eq (f : Frame) : sensorOffline f = decide (byteNat f 3 = 255) := by
  rw [sensorOffline, Bool.eq_iff_iff]
  simp [frameByte_eq_iff]

theorem bits54_toNat (f : Frame) : ((frameByte f 4).extractLsb' 4 2).toNat = byteNat f 4 / 16 % 4 := by
  simp [BitVec.extractLsb'_toNat, byteNat, Nat.shiftRight_eq_div_pow]

theorem rainARaw_eq (f : Frame) : rainARaw f =
    if byteNat f 4 / 64 % 2 = 1 then (byteNat f 3 : Int) + (((byteNat f 4 / 16 : Nat) : Int) - 4) * 256
    else (byteNat f 3 / 16 + byteNat f 4 : Nat) - 1 := by
  simp only [rainARaw, heavyRain_eq, decide_eq_true_eq, Nat.shiftRight_eq_div_pow]
  split_ifs <;> push_cast <;> rfl

theorem rainBRaw_eq (f : Frame) : rainBRaw f = (byteNat f 4 / 16 % 4 * 250 + byteNat f 3 : Nat) := by
  rw [rainBRaw, bits54_toNat]

theorem and_7F_eq_mod (n : Nat) : n &&& 0x7F = n % 128 := Nat.and_two_pow_sub_one_eq_mod n 7

/-- R127: the raw range of formula A. -/
theorem rainARaw_bounds (f : Frame) : -1 ≤ rainARaw f ∧ rainARaw f ≤ 3071 := by
  have h3 := byteNat_lt f 3
  have h4 := byteNat_lt f 4
  rw [rainARaw_eq]
  split_ifs <;> omega

/-- R120: a decoder of sensor type t checks the nibble. -/
theorem fieldTypeMatches_eq (x : Field) (f : Frame) : fieldTypeMatches x f =
    match fieldType x with
    | none => true
    | some t => decide (byteNat f 0 / 16 = (nibbleOf t).toNat) := by
  unfold fieldTypeMatches
  cases fieldType x <;> simp [sensorNibble_beq]

/-! The range check of each field (R122), where the decoder reaches it. -/

/-- R121: the check a decoder makes on the value it extracts. -/
def fieldInRange (x : Field) (f : Frame) : Bool :=
  fieldValid x (fieldPhys x (fieldRaw x f) (fieldFlags x f)) (fieldRaw x f)

theorem fieldInRange_iff (x : Field) (f : Frame) : fieldInRange x f = true ↔
    ((fieldRange x).1 ≤ fieldPhys x (fieldRaw x f) (fieldFlags x f) ∧
      fieldPhys x (fieldRaw x f) (fieldFlags x f) ≤ (fieldRange x).2) ∧ fieldGuard x (fieldRaw x f) = true := by
  rw [fieldInRange, fieldValid, Bool.and_eq_true, Bool.and_eq_true, decide_eq_true_eq, decide_eq_true_eq]

theorem windSpeed_inRange (f : Frame) : fieldInRange .windSpeed f = decide (byteNat f 1 ≤ 240) := by
  rw [Bool.eq_iff_iff, fieldInRange_iff]
  simp only [fieldPhys, fieldRange, fieldGuard, fieldRaw, and_true,
    decide_eq_true_eq]
  simp only [windSpeedMax]
  constructor
  · rintro ⟨-, h⟩; exact_mod_cast h
  · intro h; exact ⟨by positivity, by exact_mod_cast h⟩

theorem windDir_inRange (f : Frame) : fieldInRange .windDir f = true := by
  have h := byteNat_lt f 2
  have h' : (byteNat f 2 : ℚ) ≤ 255 := by exact_mod_cast (by omega : byteNat f 2 ≤ 255)
  have h0 : (0 : ℚ) ≤ byteNat f 2 := by positivity
  rw [fieldInRange_iff]
  simp only [fieldPhys, fieldRange, fieldGuard, fieldRaw, and_true, Int.cast_natCast]
  split_ifs <;> constructor <;> linarith

theorem windGust_inRange (f : Frame) : fieldInRange .windGust f = decide (byteNat f 3 ≤ 240) := by
  rw [Bool.eq_iff_iff, fieldInRange_iff]
  simp only [fieldPhys, fieldRange, fieldGuard, fieldRaw, and_true,
    decide_eq_true_eq]
  simp only [windGustMax]
  constructor
  · rintro ⟨-, h⟩; exact_mod_cast h
  · intro h; exact ⟨by positivity, by exact_mod_cast h⟩

theorem rainRateA_inRange (f : Frame) : fieldInRange .rainRateA f = decide (11 ≤ rainARaw f) := by
  obtain ⟨h0, h1⟩ := rainARaw_bounds f
  rw [Bool.eq_iff_iff, fieldInRange_iff, fieldGuard, decide_eq_true_eq, decide_eq_true_eq]
  simp only [fieldPhys, fieldRange, fieldRaw]
  simp only [rainRateMax, rainAGuard]
  constructor
  · rintro ⟨-, h⟩; push_cast at h; omega
  · intro h
    refine ⟨⟨by exact_mod_cast (by omega : (0 : ℤ) ≤ rainARaw f), ?_⟩, by push_cast; omega⟩
    exact_mod_cast (by omega : rainARaw f ≤ 3600)

theorem rainRateB_inRange (f : Frame) : fieldInRange .rainRateB f = true := by
  have h3 := byteNat_lt f 3
  have hb : (rainBRaw f : ℚ) ≤ 1005 := by
    rw [rainBRaw_eq]; exact_mod_cast (by omega : byteNat f 4 / 16 % 4 * 250 + byteNat f 3 ≤ 1005)
  have h0 : (0 : ℚ) ≤ rainBRaw f := by rw [rainBRaw_eq]; positivity
  rw [fieldInRange_iff]
  simp only [fieldPhys, fieldRange, fieldGuard, fieldRaw, and_true]
  simp only [rainRateMax]
  split_ifs <;> constructor <;> push_cast <;> linarith

theorem rainCounter_inRange (f : Frame) : fieldInRange .rainCounter f = true := by
  rw [fieldInRange_iff]
  simp only [fieldPhys, fieldRange, fieldGuard, fieldRaw, and_true, and_7F_eq_mod]
  exact ⟨by positivity, by exact_mod_cast (by omega : byteNat f 3 % 128 ≤ 127)⟩

/-- R132, R134, R135: the 12-bit payload value as a number. -/
theorem payload_shift_eq (f : Frame) : payloadWord f >>> 4 = (byteNat f 3 * 256 + byteNat f 4) / 16 := by
  rw [payloadWord, Nat.shiftRight_eq_div_pow]

theorem scaled_le_iff (n m : ℕ) (d b : ℚ) (hd : 0 < d) (hb : b * d = m) :
    (0 ≤ (n : ℚ) / d ∧ (n : ℚ) / d ≤ b) ↔ n ≤ m := by
  rw [div_le_iff₀ hd, hb]
  constructor
  · rintro ⟨-, h⟩; exact_mod_cast h
  · intro h; exact ⟨by positivity, by exact_mod_cast h⟩

theorem temperature_inRange (f : Frame) :
    fieldInRange .temperature f = decide ((byteNat f 3 * 256 + byteNat f 4) / 16 ≤ 1300) := by
  rw [Bool.eq_iff_iff, fieldInRange_iff]
  simp only [fieldPhys, fieldRange, fieldGuard, fieldRaw, and_true,
    decide_eq_true_eq, payload_shift_eq, Int.cast_natCast]
  rw [← scaled_le_iff _ 1300 10 130 (by norm_num) (by norm_num)]
  constructor
  · rintro ⟨-, h⟩; exact ⟨by positivity, h⟩
  · rintro ⟨h0, h⟩; exact ⟨by linarith, h⟩

theorem humidityRaw_eq (f : Frame) :
    fieldRaw .humidity f = (byteNat f 4 / 16 * 256 + byteNat f 3 : Nat) := by
  simp [fieldRaw, Nat.shiftRight_eq_div_pow]

theorem humidity_inRange (f : Frame) :
    fieldInRange .humidity f = decide (byteNat f 4 / 16 * 256 + byteNat f 3 ≤ 1000) := by
  rw [Bool.eq_iff_iff, fieldInRange_iff]
  simp only [humidityRaw_eq, fieldPhys, fieldRange, fieldGuard, and_true,
    decide_eq_true_eq, Int.cast_natCast]
  exact scaled_le_iff _ 1000 10 100 (by norm_num) (by norm_num)

theorem capVoltageRaw_eq (f : Frame) :
    fieldRaw .capVoltage f = (byteNat f 3 * 4 + byteNat f 4 / 64 : Nat) := by
  simp [fieldRaw, Nat.shiftRight_eq_div_pow]

theorem capVoltage_inRange (f : Frame) :
    fieldInRange .capVoltage f = decide (byteNat f 3 * 4 + byteNat f 4 / 64 ≤ 1000) := by
  rw [Bool.eq_iff_iff, fieldInRange_iff]
  simp only [capVoltageRaw_eq, fieldPhys, fieldRange, fieldGuard, and_true,
    decide_eq_true_eq, Int.cast_natCast]
  exact scaled_le_iff _ 1000 100 10 (by norm_num) (by norm_num)

theorem hasFlag_offline (b : Bool) : hasFlag (flagIf b flagOffline) flagOffline = b := by
  cases b <;> rfl

theorem solarRaw_eq (f : Frame) : fieldRaw .solar f =
    (if byteNat f 3 = 255 then 0 else (byteNat f 3 * 256 + byteNat f 4) / 16 : Nat) := by
  simp only [fieldRaw, sensorOffline_eq, decide_eq_true_eq, payload_shift_eq]
  split_ifs <;> rfl

theorem uvRaw_eq (f : Frame) : fieldRaw .uv f =
    (if byteNat f 3 = 255 then 0 else (byteNat f 3 * 256 + byteNat f 4) / 16 : Nat) := solarRaw_eq f

/-- R134: the solar range is raw ≥ 5. -/
theorem solar_phys_iff {n : ℕ} (hn : n ≤ 4095) :
    (0 ≤ ((n : ℚ) - 4) * 100 / 227 - 311 / 1250 ∧ ((n : ℚ) - 4) * 100 / 227 - 311 / 1250 ≤ 2000) ↔ 5 ≤ n := by
  have h1 : (n : ℚ) ≤ 4095 := by exact_mod_cast hn
  constructor
  · rintro ⟨h, -⟩
    by_contra hc
    have : (n : ℚ) ≤ 4 := by exact_mod_cast (by omega : n ≤ 4)
    linarith
  · intro h
    have : (5 : ℚ) ≤ n := by exact_mod_cast h
    constructor <;> linarith

/-- R135: the UV range is 4 ≤ raw ≤ 3204. -/
theorem uv_phys_iff (n : ℕ) :
    (0 ≤ ((n : ℚ) - 4) / 200 ∧ ((n : ℚ) - 4) / 200 ≤ 16) ↔ 4 ≤ n ∧ n ≤ 3204 := by
  constructor
  · rintro ⟨h0, h1⟩
    constructor
    · have : (4 : ℚ) ≤ n := by linarith
      exact_mod_cast this
    · have : (n : ℚ) ≤ 3204 := by linarith
      exact_mod_cast this
  · rintro ⟨h0, h1⟩
    have : (4 : ℚ) ≤ n := by exact_mod_cast h0
    have : (n : ℚ) ≤ 3204 := by exact_mod_cast h1
    constructor <;> linarith

theorem payload_le (f : Frame) : (byteNat f 3 * 256 + byteNat f 4) / 16 ≤ 4095 := by
  have := byteNat_lt f 3
  have := byteNat_lt f 4
  omega

theorem solar_inRange (f : Frame) : fieldInRange .solar f =
    decide (byteNat f 3 = 255 ∨ 5 ≤ (byteNat f 3 * 256 + byteNat f 4) / 16) := by
  rw [Bool.eq_iff_iff, fieldInRange_iff]
  simp only [solarRaw_eq, fieldPhys, fieldFlags, fieldRange, fieldGuard, and_true,
    decide_eq_true_eq, Int.cast_natCast, hasFlag_offline, sensorOffline_eq]
  by_cases h : byteNat f 3 = 255
  · simp [h]
  · simp only [h, if_false, false_or]
    exact solar_phys_iff (payload_le f)

theorem uv_inRange (f : Frame) : fieldInRange .uv f =
    decide (byteNat f 3 = 255 ∨ 4 ≤ (byteNat f 3 * 256 + byteNat f 4) / 16 ∧
      (byteNat f 3 * 256 + byteNat f 4) / 16 ≤ 3204) := by
  rw [Bool.eq_iff_iff, fieldInRange_iff]
  simp only [uvRaw_eq, fieldPhys, fieldFlags, fieldRange, fieldGuard, and_true,
    decide_eq_true_eq, Int.cast_natCast, hasFlag_offline, sensorOffline_eq]
  by_cases h : byteNat f 3 = 255
  · simp [h]
  · simp only [h, if_false, false_or]
    exact uv_phys_iff _

/-- R67: FLAGS bit 7 is reserved. -/
theorem fieldFlags_bit7 (x : Field) (f : Frame) : (fieldFlags x f).getLsbD 7 = false := by
  cases x <;> simp only [fieldFlags]
  case windDir => cases (frameByte f 2 == 0#8) <;> decide
  case rainRateA => cases heavyRain f <;> decide
  case rainRateB => cases heavyRain f <;> decide
  case solar => cases sensorOffline f <;> decide
  case uv => cases sensorOffline f <;> decide
  all_goals decide

/-- R120: what a decoder command answers: one response, no state written. -/
theorem execField_eq (x : Field) (f : Frame) (s : State) : execField x f s = .next
    { s with
      rsp := packResponse { fieldResult x f with status := statusCode (fieldStatus x f) }, rspValid := true } := by
  unfold execField
  cases h : fieldStatus x f with
  | ok => simp [fieldResult, h, respond, commitResponse, statusCode]
  | _ => rfl

/-- R120: the answer in its three cases. -/
theorem fieldAnswer_eq (x : Field) (f : Frame) :
    ({ fieldResult x f with status := statusCode (fieldStatus x f) } : Response) =
      if fieldTypeMatches x f then
        { status := if fieldInRange x f then 0#4 else 2#4, value := BitVec.ofInt 32 (fieldRaw x f)
          flags := fieldFlags x f, aux := if fieldInRange x f then fieldAux x f else 0#32 }
      else { status := 1#4, aux := BitVec.ofNat 32 (byteNat f 0 / 16) } := by
  unfold fieldResult fieldStatus
  rw [← fieldInRange]
  cases h1 : fieldTypeMatches x f <;> cases h2 : fieldInRange x f <;>
    simp [statusCode, ← sensorNibble_zeroExtend]

end Sys2Proof.Machine
end

