-- ==== Sys2Proof/Laws/Rain.lean ====
section
/-! SUPPORT. Laws/Rain.lean: `rain_observe` (spec 43_rain_accumulator.md R160 to R162). -/

namespace Sys2Proof.Machine

theorem rainObserve_unprimed {r : RainState} (h : r.primed = false) (c : BitVec 7) :
    rainObserve c r = (⟨true, c⟩, 0#7, true) := by
  simp [rainObserve, h]

/-- While primed, the tips are the difference of the 7-bit words. -/
theorem rainObserve_primed {r : RainState} (h : r.primed = true) (c : BitVec 7) :
    rainObserve c r = (⟨true, c⟩, c - r.baseline, false) := by
  obtain ⟨p, b⟩ := r
  simp only at h
  subst h
  unfold rainObserve
  by_cases hc : c = b
  · simp [hc]
  · simp only [Bool.not_true, Bool.false_eq_true, if_false, hc, Prod.mk.injEq, and_true, true_and]
    apply BitVec.eq_of_toNat_eq
    have := c.isLt
    have := b.isLt
    simp only [BitVec.toNat_ofNat, BitVec.toNat_sub, rainModulus]
    split_ifs <;> omega

/-- R160: an observation primes RAIN and stores the counter. -/
@[simp] theorem rainObserve_state (c : BitVec 7) (r : RainState) : (rainObserve c r).1 = ⟨true, c⟩ := by
  cases h : r.primed
  · rw [rainObserve_unprimed h]
  · rw [rainObserve_primed h]

/-- R160: first is set exactly on the first observation. -/
@[simp] theorem rainObserve_first (c : BitVec 7) (r : RainState) : (rainObserve c r).2.2 = !r.primed := by
  cases h : r.primed
  · rw [rainObserve_unprimed h]; rfl
  · rw [rainObserve_primed h]; rfl

theorem rainObserveInches_unprimed {r : RainState} (h : r.primed = false) (c : BitVec 7) :
    rainObserveInches c r = 0 := by
  simp [rainObserveInches, rainDeltaInches, rainObserve_unprimed h]

/-- R160: while primed the inches are a hundredth of the difference of the 7-bit words. -/
theorem rainObserveInches_primed {r : RainState} (h : r.primed = true) (c : BitVec 7) :
    rainObserveInches c r = ((c - r.baseline).toNat : ℚ) / 100 := by
  simp [rainObserveInches, rainDeltaInches, rainObserve_primed h, rainTip, div_eq_mul_inv]

end Sys2Proof.Machine
end

