-- ==== Sys2Proof/Laws/WindMean.lean ====
section
/-! SUPPORT. Laws/WindMean.lean: the integer wind mean is the mean of spec 44_wind_averager.md R184 to R186 over the
real numbers: the headings that `meanChoices` lists are those `meanAdmits` admits (`mem_meanChoices_iff`). -/

namespace Sys2Proof.Laws

open Sys2Proof.Machine

/-! ### The resultant as a polar vector -/

theorem sumSin_cons (h : HeadingWord) (w : List HeadingWord) :
    sumSin (h :: w) = Real.sin (headingAngle h) + sumSin w := by simp [sumSin]

theorem sumCos_cons (h : HeadingWord) (w : List HeadingWord) :
    sumCos (h :: w) = Real.cos (headingAngle h) + sumCos w := by simp [sumCos]

theorem resultant_nonneg (w : List HeadingWord) : 0 ≤ resultant w := Real.sqrt_nonneg _

theorem resultant_eq_norm (w : List HeadingWord) : resultant w = ‖(⟨sumCos w, sumSin w⟩ : ℂ)‖ := by
  rw [Complex.norm_eq_sqrt_sq_add_sq, resultant, add_comm]

theorem meanDegrees_mem (w : List HeadingWord) : 0 ≤ meanDegrees w ∧ meanDegrees w < 360 := by
  have h1 := Complex.neg_pi_lt_arg ⟨sumCos w, sumSin w⟩
  have h2 := Complex.arg_le_pi ⟨sumCos w, sumSin w⟩
  have hp := Real.pi_pos
  have l : -180 < meanTheta w := by
    rw [meanTheta, lt_div_iff₀ hp]; linarith
  have u : meanTheta w ≤ 180 := by
    rw [meanTheta, div_le_iff₀ hp]; linarith
  unfold meanDegrees
  split_ifs with h <;> constructor <;> linarith

theorem meanDegrees_angle (w : List HeadingWord) :
    ∃ k : ℤ, meanDegrees w * Real.pi / 180 = Complex.arg ⟨sumCos w, sumSin w⟩ + k * (2 * Real.pi) := by
  have hp := Real.pi_ne_zero
  unfold meanDegrees meanTheta
  split_ifs
  · exact ⟨1, by field_simp; push_cast; ring⟩
  · exact ⟨0, by field_simp; push_cast; ring⟩

theorem sumSin_polar (w : List HeadingWord) : sumSin w = resultant w * Real.sin (meanDegrees w * Real.pi / 180) := by
  obtain ⟨k, hk⟩ := meanDegrees_angle w
  rw [hk, Real.sin_add_int_mul_two_pi, resultant_eq_norm, Complex.norm_mul_sin_arg]

theorem sumCos_polar (w : List HeadingWord) : sumCos w = resultant w * Real.cos (meanDegrees w * Real.pi / 180) := by
  obtain ⟨k, hk⟩ := meanDegrees_angle w
  rw [hk, Real.cos_add_int_mul_two_pi, resultant_eq_norm, Complex.norm_mul_cos_arg]

/-! ### The signs the mean compares -/

theorem sineSum_rotated {den : ℕ} (hd : 0 < den) (w : List HeadingWord) {m : ℕ} (hm : m ≤ 57600 * den) :
    sineSum (57600 * den) (w.map fun h => ((1 : ℤ), h.toNat * den + (57600 * den - m))) =
      resultant w * Real.sin ((meanDegrees w - 360 * m / (57600 * den)) * Real.pi / 180) := by
  have hd' : (den : ℝ) ≠ 0 := by exact_mod_cast hd.ne'
  have hsum : ∀ w : List HeadingWord,
      sineSum (57600 * den) (w.map fun h => ((1 : ℤ), h.toNat * den + (57600 * den - m))) =
        sumSin w * Real.cos (2 * Real.pi * m / (57600 * den)) -
          sumCos w * Real.sin (2 * Real.pi * m / (57600 * den)) := by
    intro w
    induction w with
    | nil => simp [sineSum, sumSin, sumCos]
    | cons h w ih =>
      have e : 2 * Real.pi * ((h.toNat * den + (57600 * den - m) : ℕ) : ℝ) / ((57600 * den : ℕ) : ℝ) =
          headingAngle h - 2 * Real.pi * m / (57600 * den) + 2 * Real.pi := by
        rw [headingAngle, Nat.cast_add, Nat.cast_sub hm]
        push_cast
        field_simp
        ring
      rw [List.map_cons, sineSum_cons, ih, sumSin_cons, sumCos_cons, e, Real.sin_add_two_pi, Real.sin_sub]
      push_cast
      ring
  rw [hsum, sumSin_polar, sumCos_polar]
  rw [show (meanDegrees w - 360 * m / (57600 * den)) * Real.pi / 180 =
    meanDegrees w * Real.pi / 180 - 2 * Real.pi * m / (57600 * den) by field_simp; ring, Real.sin_sub]
  ring

theorem sumSinSign_pos_iff (w : List HeadingWord) : 0 < sumSinSign w ↔ 0 < sumSin w := by
  have h := sineSum_rotated (den := 1) one_pos w (m := 0) (by omega)
  have e : (meanDegrees w - 360 * (0 : ℕ) / (57600 * (1 : ℕ))) * Real.pi / 180 = meanDegrees w * Real.pi / 180 := by
    push_cast; ring
  rw [e, ← sumSin_polar] at h
  rw [sumSinSign, rotatedSign, ← h]
  exact sineSumSign_pos_iff (by norm_num [headingTurn]) _

theorem sumSinSign_zero_iff (w : List HeadingWord) : sumSinSign w = 0 ↔ sumSin w = 0 := by
  have h := sineSum_rotated (den := 1) one_pos w (m := 0) (by omega)
  have e : (meanDegrees w - 360 * (0 : ℕ) / (57600 * (1 : ℕ))) * Real.pi / 180 = meanDegrees w * Real.pi / 180 := by
    push_cast; ring
  rw [e, ← sumSin_polar] at h
  rw [sumSinSign, rotatedSign, ← h]
  exact sineSumSign_zero_iff (by norm_num [headingTurn]) _

theorem sineSum_cos (w : List HeadingWord) :
    sineSum (headingTurn * 1) (w.map fun h => ((1 : ℤ), h.toNat * 1 + (headingTurn * 1 - headingTurn * 3 / 4))) =
      sumCos w := by
  have h := sineSum_rotated (den := 1) one_pos w (m := 43200) (by omega)
  have e : (meanDegrees w - 360 * (43200 : ℕ) / (57600 * (1 : ℕ))) * Real.pi / 180 =
      meanDegrees w * Real.pi / 180 + Real.pi / 2 - 2 * Real.pi := by
    push_cast; ring
  rw [e, Real.sin_sub_two_pi, Real.sin_add_pi_div_two, ← sumCos_polar] at h
  exact h

theorem sumCosSign_pos_iff (w : List HeadingWord) : 0 < sumCosSign w ↔ 0 < sumCos w := by
  rw [sumCosSign, rotatedSign, ← sineSum_cos w]
  exact sineSumSign_pos_iff (by norm_num [headingTurn]) _

theorem sumCosSign_zero_iff (w : List HeadingWord) : sumCosSign w = 0 ↔ sumCos w = 0 := by
  rw [sumCosSign, rotatedSign, ← sineSum_cos w]
  exact sineSumSign_zero_iff (by norm_num [headingTurn]) _

theorem rotatedSign_nonneg_iff {den : ℕ} (hd : 0 < den) (w : List HeadingWord) {m : ℕ} (hm : m ≤ 57600 * den) :
    0 ≤ rotatedSign den w m ↔
      0 ≤ resultant w * Real.sin ((meanDegrees w - 360 * m / (57600 * den)) * Real.pi / 180) := by
  rw [← sineSum_rotated hd w hm]
  exact sineSumSign_nonneg_iff (by simp [headingTurn, hd]) _

theorem rotatedSign_nonpos_iff {den : ℕ} (hd : 0 < den) (w : List HeadingWord) {m : ℕ} (hm : m ≤ 57600 * den) :
    rotatedSign den w m ≤ 0 ↔
      resultant w * Real.sin ((meanDegrees w - 360 * m / (57600 * den)) * Real.pi / 180) ≤ 0 := by
  rw [← sineSum_rotated hd w hm]
  exact sineSumSign_nonpos_iff (by simp [headingTurn, hd]) _

/-! ### R ≤ WIND_RMIN -/

theorem sineSum_pairs (c : ℤ) (w : List HeadingWord) :
    sineSum headingTurn (w.flatMap fun v => w.map fun u =>
      (c, v.toNat + (2 * headingTurn - u.toNat) + headingTurn / 4)) = c * resultant w ^ 2 := by
  have one : ∀ v u : HeadingWord,
      Real.sin (2 * Real.pi * ((v.toNat + (2 * headingTurn - u.toNat) + headingTurn / 4 : ℕ) : ℝ) / (headingTurn : ℕ)) =
        Real.cos (headingAngle v) * Real.cos (headingAngle u) + Real.sin (headingAngle v) * Real.sin (headingAngle u) := by
    intro v u
    have hu : u.toNat ≤ 2 * headingTurn := by
      have := u.isLt; simp only [headingTurn]; omega
    have e : 2 * Real.pi * ((v.toNat + (2 * headingTurn - u.toNat) + headingTurn / 4 : ℕ) : ℝ) / (headingTurn : ℕ) =
        (headingAngle v - headingAngle u) + Real.pi / 2 + (2 : ℕ) * (2 * Real.pi) := by
      rw [headingAngle, headingAngle, Nat.cast_add, Nat.cast_add, Nat.cast_sub hu]
      norm_num [headingTurn]
      ring
    rw [e, Real.sin_add_nat_mul_two_pi, Real.sin_add_pi_div_two, Real.cos_sub]
  have row : ∀ (v : HeadingWord) (us : List HeadingWord),
      sineSum headingTurn (us.map fun u => (c, v.toNat + (2 * headingTurn - u.toNat) + headingTurn / 4)) =
        c * (Real.cos (headingAngle v) * sumCos us + Real.sin (headingAngle v) * sumSin us) := by
    intro v us
    induction us with
    | nil => simp [sineSum, sumCos, sumSin]
    | cons u us ih => rw [List.map_cons, sineSum_cons, ih, one, sumSin_cons, sumCos_cons]; ring
  have app : ∀ ts us : List SineTerm, sineSum headingTurn (ts ++ us) = sineSum headingTurn ts + sineSum headingTurn us := by
    intro ts us; simp [sineSum]
  have all : ∀ vs : List HeadingWord,
      sineSum headingTurn (vs.flatMap fun v => w.map fun u =>
        (c, v.toNat + (2 * headingTurn - u.toNat) + headingTurn / 4)) =
        c * (sumCos vs * sumCos w + sumSin vs * sumSin w) := by
    intro vs
    induction vs with
    | nil => simp [sineSum, sumCos, sumSin]
    | cons v vs ih => rw [List.flatMap_cons, app, row, ih, sumSin_cons, sumCos_cons]; ring
  rw [all, resultant, Real.sq_sqrt (by positivity)]
  ring

theorem resultantWithin_iff (t : Tolerance) (w : List HeadingWord) :
    resultantWithin t w = true ↔ resultant w ≤ toleranceValue t := by
  have hd : (0 : ℝ) < t.den := by exact_mod_cast t.den_pos
  unfold resultantWithin
  split_ifs with h0
  · have hv : toleranceValue t = 0 := by simp [toleranceValue, h0]
    rw [hv, Bool.and_eq_true, beq_iff_eq, beq_iff_eq, sumSinSign_zero_iff, sumCosSign_zero_iff, resultant]
    constructor
    · rintro ⟨hs, hc⟩; simp [hs, hc]
    · intro h
      have := (Real.sqrt_eq_zero (by positivity)).mp (le_antisymm h (Real.sqrt_nonneg _))
      constructor
      · nlinarith [sq_nonneg (sumSin w), sq_nonneg (sumCos w)]
      · nlinarith [sq_nonneg (sumSin w), sq_nonneg (sumCos w)]
  · rw [decide_eq_true_iff, sineSumSign_nonpos_iff (by norm_num [headingTurn]), resultantTerms, sineSum_cons,
      sineSum_pairs]
    have hsin : Real.sin (2 * Real.pi * ((headingTurn / 4 : ℕ) : ℝ) / (headingTurn : ℕ)) = 1 := by
      rw [← Real.sin_pi_div_two]
      congr 1
      norm_num [headingTurn]
      ring
    dsimp only
    rw [hsin, toleranceValue, le_div_iff₀ hd]
    push_cast
    have hR := resultant_nonneg w
    have hn : (0 : ℝ) ≤ t.num := Nat.cast_nonneg _
    constructor
    · intro h
      apply abs_le_of_sq_le_sq' _ hn |>.2
      nlinarith
    · intro h
      have := mul_self_le_mul_self (by positivity) h
      nlinarith

/-! ### Comparing d with a rational angle -/

theorem sin_degrees_pos {y : ℝ} (h0 : 0 < y) (h1 : y < 180) : 0 < Real.sin (y * Real.pi / 180) := by
  have hp := Real.pi_pos
  apply Real.sin_pos_of_pos_of_lt_pi
  · positivity
  · rw [div_lt_iff₀ (by norm_num)]; nlinarith

theorem sin_degrees_neg {y : ℝ} (h0 : y < 0) (h1 : -180 < y) : Real.sin (y * Real.pi / 180) < 0 := by
  have := sin_degrees_pos (y := -y) (by linarith) (by linarith)
  rw [show -y * Real.pi / 180 = -(y * Real.pi / 180) by ring, Real.sin_neg] at this
  linarith

theorem sin_degrees_nonneg_iff {y : ℝ} (h0 : -180 < y) (h1 : y < 180) :
    0 ≤ Real.sin (y * Real.pi / 180) ↔ 0 ≤ y := by
  rcases lt_trichotomy y 0 with h | h | h
  · have := sin_degrees_neg h h0; constructor <;> intro <;> linarith
  · simp [h]
  · have := sin_degrees_pos h h1; constructor <;> intro <;> linarith

theorem sin_degrees_nonpos_iff {y : ℝ} (h0 : -180 < y) (h1 : y < 180) :
    Real.sin (y * Real.pi / 180) ≤ 0 ↔ y ≤ 0 := by
  rcases lt_trichotomy y 0 with h | h | h
  · have := sin_degrees_neg h h0; constructor <;> intro <;> linarith
  · simp [h]
  · have := sin_degrees_pos h h1; constructor <;> intro <;> linarith

theorem meanInUpperHalf_iff {w : List HeadingWord} (hR : 0 < resultant w) :
    meanInUpperHalf w = true ↔ meanDegrees w < 180 := by
  obtain ⟨d0, d1⟩ := meanDegrees_mem w
  rw [meanInUpperHalf, Bool.or_eq_true, Bool.and_eq_true, decide_eq_true_iff, decide_eq_true_iff, beq_iff_eq,
    sumSinSign_pos_iff, sumSinSign_zero_iff, sumCosSign_pos_iff, sumSin_polar, sumCos_polar]
  generalize meanDegrees w = d at *
  rcases lt_trichotomy d 180 with h | h | h
  · refine iff_of_true ?_ h
    rcases d0.eq_or_lt with h0 | h0
    · right; simp [← h0, hR]
    · left; exact mul_pos hR (sin_degrees_pos h0 h)
  · refine iff_of_false ?_ (by linarith)
    rw [h, show (180 : ℝ) * Real.pi / 180 = Real.pi by ring]
    simp only [Real.sin_pi, Real.cos_pi]
    rintro (h' | ⟨_, h'⟩) <;> linarith
  · refine iff_of_false ?_ (by linarith)
    have hs : Real.sin (d * Real.pi / 180) < 0 := by
      have := sin_degrees_neg (y := d - 360) (by linarith) (by linarith)
      rwa [show (d - 360) * Real.pi / 180 = d * Real.pi / 180 - 2 * Real.pi by ring, Real.sin_sub_two_pi] at this
    have := mul_neg_of_pos_of_neg hR hs
    rintro (h' | ⟨h', _⟩) <;> linarith

/-- m parts of a turn of 57600·den parts, in degrees. -/
theorem part_degrees_le_iff {den : ℕ} (hd : 0 < den) (m : ℤ) (a : ℤ) (c : ℝ) (hc : c = 360 * (a : ℝ) / (57600 * den)) :
    (360 * (m : ℝ) / (57600 * den) ≤ c ↔ m ≤ a) ∧ (360 * (m : ℝ) / (57600 * den) < c ↔ m < a) := by
  have hd' : (0 : ℝ) < 57600 * den := by
    have : (0 : ℝ) < den := by exact_mod_cast hd
    positivity
  subst hc
  rw [div_le_div_iff_of_pos_right hd', div_lt_div_iff_of_pos_right hd']
  constructor
  · rw [mul_le_mul_iff_right₀ (by norm_num)]; exact Int.cast_le
  · rw [mul_lt_mul_iff_right₀ (by norm_num)]; exact Int.cast_lt

theorem meanAtLeast_iff {den : ℕ} (hd : 0 < den) {w : List HeadingWord} (hR : 0 < resultant w) (m : ℤ) :
    meanAtLeast den w m = true ↔ 360 * (m : ℝ) / (57600 * den) ≤ meanDegrees w := by
  obtain ⟨d0, d1⟩ := meanDegrees_mem w
  have hd' : (den : ℝ) ≠ 0 := by exact_mod_cast hd.ne'
  have hx0 := part_degrees_le_iff hd m 0 0 (by simp)
  have hx360 := part_degrees_le_iff hd m (57600 * den) 360 (by push_cast; field_simp)
  have hx180 := part_degrees_le_iff hd m (28800 * den) 180 (by push_cast; field_simp; norm_num)
  have ht : ((headingTurn * den : ℕ) : ℤ) = 57600 * den := by simp [headingTurn]
  unfold meanAtLeast
  rw [ht]
  set x : ℝ := 360 * (m : ℝ) / (57600 * den) with hx
  split_ifs with h1 h2 h3 h4 h5
  · exact iff_of_true rfl (by have := hx0.1.mpr h1; linarith)
  · refine iff_of_false (by simp) ?_
    have : ¬ x < 360 := fun h => by have := hx360.2.mp h; omega
    linarith
  · have h3' := (meanInUpperHalf_iff hR).mp h3
    refine iff_of_false (by simp) ?_
    have : ¬ x < 180 := fun h => by have := hx180.2.mp h; omega
    linarith
  · have h3' := (meanInUpperHalf_iff hR).mp h3
    obtain ⟨k, rfl⟩ := Int.eq_ofNat_of_zero_le (by omega : 0 ≤ m)
    have hlt : x < 180 := hx180.2.mpr (by omega)
    have hpos : ¬ x ≤ 0 := fun h => h1 (hx0.1.mp h)
    rw [decide_eq_true_iff, Int.toNat_natCast, rotatedSign_nonneg_iff hd w (by omega), mul_nonneg_iff_of_pos_left hR,
      sin_degrees_nonneg_iff, sub_nonneg]
    all_goals simp only [hx, Int.cast_natCast] at *
    all_goals linarith
  · have h3' := (meanInUpperHalf_iff hR).not.mp (by simpa using h3)
    exact iff_of_true rfl (by have := hx180.1.mpr (by omega); linarith)
  · have h3' := (meanInUpperHalf_iff hR).not.mp (by simpa using h3)
    obtain ⟨k, rfl⟩ := Int.eq_ofNat_of_zero_le (by omega : 0 ≤ m)
    have hgt : ¬ x ≤ 180 := fun h => by have := hx180.1.mp h; omega
    have hlt : x < 360 := hx360.2.mpr (by omega)
    rw [decide_eq_true_iff, Int.toNat_natCast, rotatedSign_nonneg_iff hd w (by omega), mul_nonneg_iff_of_pos_left hR,
      sin_degrees_nonneg_iff, sub_nonneg]
    all_goals simp only [hx, Int.cast_natCast] at *
    all_goals linarith

theorem meanAtMost_iff {den : ℕ} (hd : 0 < den) {w : List HeadingWord} (hR : 0 < resultant w) (m : ℤ) :
    meanAtMost den w m = true ↔ meanDegrees w ≤ 360 * (m : ℝ) / (57600 * den) := by
  obtain ⟨d0, d1⟩ := meanDegrees_mem w
  have hd' : (den : ℝ) ≠ 0 := by exact_mod_cast hd.ne'
  have hx0 := part_degrees_le_iff hd m 0 0 (by simp)
  have hx360 := part_degrees_le_iff hd m (57600 * den) 360 (by push_cast; field_simp)
  have hx180 := part_degrees_le_iff hd m (28800 * den) 180 (by push_cast; field_simp; norm_num)
  have ht : ((headingTurn * den : ℕ) : ℤ) = 57600 * den := by simp [headingTurn]
  have hpos_iff : ∀ y : ℝ, resultant w * y ≤ 0 ↔ y ≤ 0 := fun y => by
    rw [← not_lt, mul_pos_iff_of_pos_left hR, not_lt]
  unfold meanAtMost
  rw [ht]
  set x : ℝ := 360 * (m : ℝ) / (57600 * den) with hx
  split_ifs with h1 h2 h3 h4 h5
  · refine iff_of_false (by simp) ?_
    have := hx0.2.mpr h1
    linarith
  · refine iff_of_true rfl ?_
    have : ¬ x < 360 := fun h => by have := hx360.2.mp h; omega
    linarith
  · have h3' := (meanInUpperHalf_iff hR).mp h3
    refine iff_of_true rfl ?_
    have : ¬ x < 180 := fun h => by have := hx180.2.mp h; omega
    linarith
  · have h3' := (meanInUpperHalf_iff hR).mp h3
    obtain ⟨k, rfl⟩ := Int.eq_ofNat_of_zero_le (by omega : 0 ≤ m)
    have hlt : x < 180 := hx180.2.mpr (by omega)
    have hnn : ¬ x < 0 := fun h => h1 (hx0.2.mp h)
    rw [decide_eq_true_iff, Int.toNat_natCast, rotatedSign_nonpos_iff hd w (by omega), hpos_iff,
      sin_degrees_nonpos_iff, sub_nonpos]
    all_goals simp only [hx, Int.cast_natCast] at *
    all_goals linarith
  · have h3' := (meanInUpperHalf_iff hR).not.mp (by simpa using h3)
    exact iff_of_false (by simp) (by have := hx180.2.mpr (by omega); linarith)
  · have h3' := (meanInUpperHalf_iff hR).not.mp (by simpa using h3)
    obtain ⟨k, rfl⟩ := Int.eq_ofNat_of_zero_le (by omega : 0 ≤ m)
    have hge : ¬ x < 180 := fun h => by have := hx180.2.mp h; omega
    have hlt : x < 360 := hx360.2.mpr (by omega)
    rw [decide_eq_true_iff, Int.toNat_natCast, rotatedSign_nonpos_iff hd w (by omega), hpos_iff,
      sin_degrees_nonpos_iff, sub_nonpos]
    all_goals simp only [hx, Int.cast_natCast] at *
    all_goals linarith

/-! ### Rounding and bands -/

/-- The search finds the last number that P holds of. -/
theorem searchUp_spec {P : ℕ → Bool} (bits n : ℕ) (h0 : P n = true)
    (h1 : P (n + 2 ^ bits) = false) : P (searchUp P bits n) = true ∧ P (searchUp P bits n + 1) = false := by
  induction bits generalizing n with
  | zero => exact ⟨h0, h1⟩
  | succ bits ih =>
    unfold searchUp
    have e : n + 2 ^ (bits + 1) = n + 2 ^ bits + 2 ^ bits := by rw [pow_succ]; ring
    split_ifs with h
    · exact ih _ h (by rwa [e] at h1)
    · exact ih _ h0 (by simpa using h)

theorem meanRounded_spec {w : List HeadingWord} (hR : 0 < resultant w) :
    (meanRounded w : ℝ) - 1 / 2 ≤ meanDegrees w ∧ meanDegrees w < (meanRounded w : ℝ) + 1 / 2 := by
  obtain ⟨d0, d1⟩ := meanDegrees_mem w
  have key : ∀ n : ℕ, meanAtLeast 1 w (80 * (2 * (n : ℤ) - 1)) = true ↔ (n : ℝ) - 1 / 2 ≤ meanDegrees w := by
    intro n
    rw [meanAtLeast_iff one_pos hR]
    rw [show 360 * ((80 * (2 * (n : ℤ) - 1) : ℤ) : ℝ) / (57600 * (1 : ℕ)) = (n : ℝ) - 1 / 2 by push_cast; ring]
  obtain ⟨h1, h2⟩ := searchUp_spec (P := fun n => meanAtLeast 1 w (80 * (2 * (n : ℤ) - 1))) (bits := 9) (n := 0)
    (by rw [key]; push_cast; linarith)
    (by
      rw [← Bool.not_eq_true, key]
      push_cast
      linarith)
  rw [← Bool.not_eq_true, key] at h2
  rw [key] at h1
  refine ⟨h1, ?_⟩
  unfold meanRounded
  push_cast at h2
  linarith

theorem round_meanDegrees {w : List HeadingWord} (hR : 0 < resultant w) :
    round (meanDegrees w) = (meanRounded w : ℤ) := by
  obtain ⟨h1, h2⟩ := meanRounded_spec hR
  rw [round_eq, Int.floor_eq_iff]
  push_cast
  constructor <;> linarith

theorem meanInBand_iff (p : WindParams) {w : List HeadingWord} (hR : 0 < resultant w) (k : ℤ) :
    meanInBand p.eps w k = true ↔ nearTie p w k := by
  have hd' : (p.eps.den : ℝ) ≠ 0 := by exact_mod_cast p.eps.den_pos.ne'
  rw [meanInBand, Bool.and_eq_true, meanAtLeast_iff p.eps.den_pos hR, meanAtMost_iff p.eps.den_pos hR, nearTie, abs_le,
    toleranceValue]
  have e1 : 360 * ((80 * (2 * k + 1) * p.eps.den - 160 * p.eps.num : ℤ) : ℝ) / (57600 * p.eps.den) =
      k + 1 / 2 - p.eps.num / p.eps.den := by
    push_cast; field_simp; ring
  have e2 : 360 * ((80 * (2 * k + 1) * p.eps.den + 160 * p.eps.num : ℤ) : ℝ) / (57600 * p.eps.den) =
      k + 1 / 2 + p.eps.num / p.eps.den := by
    push_cast; field_simp; ring
  rw [e1, e2]
  constructor <;> rintro ⟨h1, h2⟩ <;> constructor <;> linarith

theorem mem_tieCandidates {n span : ℕ} {k : ℤ} :
    k ∈ tieCandidates n span ↔ ∃ j : ℕ, j ≤ span ∧ (k = n - 1 - j ∨ k = n + j) := by
  simp [tieCandidates]

/-- Every k in whose band d lies has a listed one with the same heading. -/
theorem exists_meanTie (p : WindParams) {w : List HeadingWord} (hR : 0 < resultant w) {k : ℤ} (hk : nearTie p w k) :
    ∃ k' ∈ meanTies p.eps w, k' % 360 = k % 360 ∧ (k' + 1) % 360 = (k + 1) % 360 := by
  obtain ⟨r1, r2⟩ := meanRounded_spec hR
  have hden : (0 : ℝ) < p.eps.den := by exact_mod_cast p.eps.den_pos
  have hk' := abs_le.mp hk
  set r : ℤ := (meanRounded w : ℤ) with hr
  have hrr : ((meanRounded w : ℕ) : ℝ) = (r : ℝ) := by rw [hr]; exact (Int.cast_natCast _).symm
  rw [hrr] at r1 r2
  have hfloor : ∀ j : ℤ, (j : ℝ) ≤ toleranceValue p.eps → j ≤ (p.eps.num / p.eps.den : ℕ) := by
    intro j hj
    rw [toleranceValue, le_div_iff₀ hden] at hj
    have : j * p.eps.den ≤ p.eps.num := by exact_mod_cast hj
    rw [Int.natCast_div]
    exact (Int.le_ediv_iff_mul_le (by exact_mod_cast p.eps.den_pos)).mpr this
  by_cases hbig : p.eps.num / p.eps.den ≤ 360
  · refine ⟨k, ?_, rfl, rfl⟩
    rw [meanTies, List.mem_filter, meanInBand_iff p hR, mem_tieCandidates, min_eq_left hbig]
    refine ⟨?_, hk⟩
    rcases le_or_gt r k with h | h
    · obtain ⟨j, hj⟩ := Int.eq_ofNat_of_zero_le (sub_nonneg.mpr h)
      refine ⟨j, ?_, Or.inr (by omega)⟩
      have : ((j : ℤ) : ℝ) ≤ toleranceValue p.eps := by
        have : (k : ℝ) = r + j := by exact_mod_cast (by omega : k = r + j)
        push_cast; linarith
      exact_mod_cast hfloor j this
    · obtain ⟨j, hj⟩ := Int.eq_ofNat_of_zero_le (by omega : 0 ≤ r - 1 - k)
      refine ⟨j, ?_, Or.inl (by omega)⟩
      have : ((j : ℤ) : ℝ) ≤ toleranceValue p.eps := by
        have : (k : ℝ) = r - 1 - j := by exact_mod_cast (by omega : k = r - 1 - j)
        push_cast; linarith
      exact_mod_cast hfloor j this
  · have hj0 : 0 ≤ (k - r) % 360 := Int.emod_nonneg _ (by norm_num)
    have hj1 : (k - r) % 360 < 360 := Int.emod_lt_of_pos _ (by norm_num)
    obtain ⟨j, hj⟩ := Int.eq_ofNat_of_zero_le hj0
    refine ⟨r + j, ?_, by omega, by omega⟩
    rw [meanTies, List.mem_filter, meanInBand_iff p hR, mem_tieCandidates, min_eq_right (by omega)]
    refine ⟨⟨j, by omega, Or.inr rfl⟩, ?_⟩
    have heps : (360 : ℝ) ≤ toleranceValue p.eps := by
      rw [toleranceValue, le_div_iff₀ hden]
      have : 360 * p.eps.den ≤ p.eps.num := (Nat.le_div_iff_mul_le p.eps.den_pos).mp (by omega)
      exact_mod_cast this
    have hj' : (j : ℝ) ≤ 359 := by exact_mod_cast (by omega : j ≤ 359)
    have hj'' : (0 : ℝ) ≤ j := Nat.cast_nonneg j
    rw [nearTie, abs_le]
    push_cast
    constructor <;> linarith

theorem nearTie_of_mem_meanTies (p : WindParams) {w : List HeadingWord} (hR : 0 < resultant w) {k : ℤ}
    (hk : k ∈ meanTies p.eps w) : nearTie p w k := by
  rw [meanTies, List.mem_filter, meanInBand_iff p hR] at hk
  exact hk.2

theorem toNat_emod_eq_iff (n : ℕ) (k : ℤ) : n = (k % 360).toNat ↔ (n : ℤ) = k % 360 := by
  have := Int.emod_nonneg k (by norm_num : (360 : ℤ) ≠ 0)
  omega

/-- R186: the headings listed are exactly those the rule admits, for every window and every parameter. -/
theorem mem_meanChoices_iff (p : WindParams) (w : List HeadingWord) (n : ℕ) :
    n ∈ meanChoices p w ↔ meanAdmits p w n := by
  unfold meanChoices meanAdmits
  by_cases hr : resultantWithin p.rmin w = true
  · have h := (resultantWithin_iff p.rmin w).mp hr
    simp [hr, h, not_lt.mpr h]
  · have h := not_le.mp ((resultantWithin_iff p.rmin w).not.mp hr)
    have hR : 0 < resultant w := lt_of_le_of_lt (by unfold toleranceValue; positivity) h
    rw [if_neg hr]
    cases hk : meanTies p.eps w with
    | nil =>
      have hno : ∀ k : ℤ, ¬ nearTie p w k := fun k hn => by
        obtain ⟨k', hk', -⟩ := exists_meanTie p hR hn
        rw [hk] at hk'
        simp at hk'
      simp only [List.mem_singleton, not_le.mpr h, h, hno, false_and, exists_false, and_false, false_or, true_and,
        not_false_eq_true, implies_true, round_meanDegrees hR]
      omega
    | cons k0 ks =>
      have hex : ¬ ∀ k : ℤ, ¬ nearTie p w k := fun hall =>
        hall k0 (nearTie_of_mem_meanTies p hR (by rw [hk]; simp))
      simp only [not_le.mpr h, h, hex, false_and, and_false, or_false, false_or, true_and]
      rw [← hk, List.mem_flatMap]
      simp only [List.mem_cons, List.not_mem_nil, or_false, toNat_emod_eq_iff]
      constructor
      · rintro ⟨k, hmem, hn⟩
        exact ⟨k, nearTie_of_mem_meanTies p hR hmem, hn⟩
      · rintro ⟨k, hnear, hn⟩
        obtain ⟨k', hk', e1, e2⟩ := exists_meanTie p hR hnear
        exact ⟨k', hk', by rw [e1, e2]; exact hn⟩

end Sys2Proof.Laws
end

