-- ==== Sys2Proof/Laws/Wind.lean ====
section
/-! SUPPORT. Laws/Wind.lean: what `wind_observe` (spec 44_wind_averager.md R182) leaves and answers. -/

namespace Sys2Proof.Machine

open Sys2Proof.Laws

theorem meanChoices_lt {p : WindParams} {w : List HeadingWord} {n : ℕ} (h : n ∈ meanChoices p w) : n < 360 := by
  rw [mem_meanChoices_iff] at h
  have e := fun k : ℤ => Int.emod_lt_of_pos k (by norm_num : (0 : ℤ) < 360)
  obtain ⟨-, h⟩ | ⟨-, k, -, h | h⟩ | ⟨-, -, h⟩ := h
  · exact h
  · have := e k; omega
  · have := e (k + 1); omega
  · have := e (round (meanDegrees w)); omega

theorem meanChoices_ne_nil (p : WindParams) (w : List HeadingWord) : meanChoices p w ≠ [] := by
  unfold meanChoices
  split_ifs
  · simp
  · cases h : meanTies p.eps w <;> simp

theorem drawFrom_mem {xs : List ℕ} (h : xs ≠ []) (n : ℕ) : drawFrom xs n ∈ xs := by
  have hl : n % xs.length < xs.length := Nat.mod_lt _ (List.length_pos_iff.mpr h)
  unfold drawFrom
  rw [List.getD_eq_getElem _ _ hl]
  exact List.getElem_mem hl

/-- R186: the mean is a listed heading; a draw is counted. -/
theorem windMean_spec (p : WindParams) (w : List HeadingWord) (d : ℕ) :
    (windMean p w d).1 ∈ meanChoices p w ∧ d ≤ (windMean p w d).2 := by
  unfold windMean
  split
  · next n h => simp [h]
  · exact ⟨drawFrom_mem (meanChoices_ne_nil p w) _, Nat.le_succ d⟩

/-- R186: where one heading is admitted alone and listed once, no draw is taken. -/
theorem windMean_of_eq {p : WindParams} {w : List HeadingWord} {n : ℕ} (h : meanChoices p w = [n]) (d : ℕ) :
    windMean p w d = (n, d) := by
  simp [windMean, h]

/-- Off every tie and with a resultant, one heading is listed, once. -/
theorem meanChoices_of_no_tie {p : WindParams} {w : List HeadingWord} (hr : toleranceValue p.rmin < resultant w)
    (h : ∀ k : ℤ, ¬ nearTie p w k) : meanChoices p w = [meanRounded w % 360] := by
  have hr' : ¬ resultantWithin p.rmin w = true := fun e => absurd ((resultantWithin_iff _ _).mp e) (not_le.mpr hr)
  have hR : 0 < resultant w := lt_of_le_of_lt (by unfold toleranceValue; positivity) hr
  unfold meanChoices
  rw [if_neg hr']
  cases hk : meanTies p.eps w with
  | nil => rfl
  | cons k ks => exact absurd (nearTie_of_mem_meanTies p hR (by rw [hk]; simp)) (h k)

/-- R182, while the window holds fewer than 30 samples. -/
theorem windObserve_of_lt {s : State} (h : s.win.length < 30) (q : HeadingWord) :
    windObserve q s = ({ s with win := s.win ++ [q] }, none) := by
  simp [windObserve, windWindow, h]

/-- R182, once the window is full. -/
theorem windObserve_of_ge {s : State} (h : 30 ≤ s.win.length) (q : HeadingWord) :
    windObserve q s =
      ({ s with
          win := s.win.drop 1 ++ [q], draws := (windMean s.params (s.win.drop 1 ++ [q]) s.draws).2 },
        some (windMean s.params (s.win.drop 1 ++ [q]) s.draws).1) := by
  simp [windObserve, windWindow, not_lt.mpr h]

/-- R182 to R186: what an observation leaves, and which headings it can answer. -/
theorem windObserve_cases (q : HeadingWord) (s : State) : ∃ w a d,
    windObserve q s = ({ s with win := w, draws := d }, a) ∧ s.draws ≤ d ∧
    w = (if s.win.length < 30 then s.win else s.win.drop 1) ++ [q] ∧
    (if s.win.length < 30 then a = none ∧ d = s.draws else ∃ n ∈ meanChoices s.params w, a = some n) := by
  by_cases h : s.win.length < 30
  · exact ⟨_, _, _, windObserve_of_lt h q, le_rfl, by simp [h], by simp [h]⟩
  · have hm := windMean_spec s.params (s.win.drop 1 ++ [q]) s.draws
    exact ⟨_, _, _, windObserve_of_ge (not_lt.mp h) q, hm.2, by simp [h], by
      rw [if_neg h]; exact ⟨_, hm.1, rfl⟩⟩

/-- No observation touches anything but WIN and the counter of draws, or reads anything but those and the
parameters. -/
theorem windObserve_frame (q : HeadingWord) (s : State) :
    (windObserve q s).1.cfg = s.cfg ∧ (windObserve q s).1.rain = s.rain ∧
    (windObserve q s).1.rsp = s.rsp ∧ (windObserve q s).1.rspValid = s.rspValid ∧
    (windObserve q s).1.executing = s.executing ∧ (windObserve q s).1.inputs = s.inputs ∧
    (windObserve q s).1.params = s.params := by
  unfold windObserve
  split_ifs <;> simp

end Sys2Proof.Machine
end

