-- ==== Sys2Proof/Laws/Sequencer.lean ====
section
/-! SUPPORT. Laws/Sequencer.lean: FRAME_PROCESS case by case (spec 45_frame_pipeline.md R200 to R206): each rejection, and
the wind stage, with the observation it makes as a hypothesis. -/

namespace Sys2Proof.Machine

theorem frameValid_iff (f : Frame) : frameValid f = true ↔ frameCrc f = receivedCrc f ∧ receivedCrc f ≠ 0#16 := by
  simp [frameValid]

/-- R200, R202: the checksum gate. -/
theorem frameProcess_badChecksum {f : Frame} (h : frameValid f = false) (s : State) : execFrameProcess f s = .next
    { s with rsp := packResponse { status := 3#4, outcome := 2#2, aux := crcPair f }, rspValid := true } := by
  simp [execFrameProcess, h, raise_eq, statusCode, outcomeCode]

/-- R200, R202: the station gate. -/
theorem frameProcess_foreign {f : Frame} {s : State} (h : frameValid f = true)
    (hs : byteNat f 0 % 8 ≠ s.cfg.toNat % 8) : execFrameProcess f s = .next
      { s with
        rsp := packResponse { headerFields f with status := 4#4, outcome := 2#2 }, rspValid := true } := by
  simp only [execFrameProcess, h, Bool.not_true, Bool.false_eq_true, if_false]
  rw [if_pos ((station_ne_iff f s).mpr hs)]
  rfl

/-- R200, R203: the speed gate. -/
theorem frameProcess_tooFast {f : Frame} {s : State} (h : frameValid f = true)
    (hs : byteNat f 0 % 8 = s.cfg.toNat % 8) (hw : 240 < byteNat f 1) : execFrameProcess f s = .next
      { s with
        rsp := packResponse
          { headerFields f with status := 2#4, outcome := 2#2, value := (frameByte f 1).zeroExtend 32 }
        rspValid := true } := by
  simp only [execFrameProcess, h, Bool.not_true, Bool.false_eq_true, if_false, windSpeedMax]
  rw [if_neg ((station_ne_iff f s).not.mpr (not_not.mpr hs)), if_pos hw]
  rfl

/-- R200, R203: past the gates. -/
theorem frameProcess_windStage {f : Frame} {s : State} (h : frameValid f = true)
    (hs : byteNat f 0 % 8 = s.cfg.toNat % 8) (hw : byteNat f 1 ≤ 240) : execFrameProcess f s = windStage f s := by
  simp only [execFrameProcess, h, Bool.not_true, Bool.false_eq_true, if_false, windSpeedMax]
  rw [if_neg ((station_ne_iff f s).not.mpr (not_not.mpr hs)), if_neg (not_lt.mpr hw)]

/-- The four ways FRAME_PROCESS goes. -/
theorem frameProcess_split (f : Frame) (s : State) :
    frameValid f = false ∨ (frameValid f = true ∧ byteNat f 0 % 8 ≠ s.cfg.toNat % 8) ∨
    (frameValid f = true ∧ byteNat f 0 % 8 = s.cfg.toNat % 8 ∧ 240 < byteNat f 1) ∨
    (frameValid f = true ∧ byteNat f 0 % 8 = s.cfg.toNat % 8 ∧ byteNat f 1 ≤ 240) := by
  rcases Bool.eq_false_or_eq_true (frameValid f) with h | h <;> simp only [h, true_and, false_or, true_or,
    Bool.true_eq_false]
  rcases eq_or_ne (byteNat f 0 % 8) (s.cfg.toNat % 8) with h1 | h1
  · rcases Nat.lt_or_ge 240 (byteNat f 1) with h2 | h2
    · exact .inr (.inl ⟨h1, h2⟩)
    · exact .inr (.inr ⟨h1, h2⟩)
  · exact .inl h1

variable {f : Frame} {s s1 : State} {a : Option ℕ}

/-- R200, R205: an unrecognized nibble. -/
theorem windStage_unrecognized (ho : windObserve (headingWord (frameByte f 2)) s = (s1, a))
    (ht : sensorTypeOf (sensorNibble f) = none) : windStage f s = .next
      { s1 with
        rsp := packResponse
          { windFields f a with status := 5#4, outcome := 3#2, value := (sensorNibble f).zeroExtend 32 }
        rspValid := true } := by
  simp only [windStage, ho, ht]
  rfl

/-- R200: a recognized nibble. -/
theorem windStage_payload (ho : windObserve (headingWord (frameByte f 2)) s = (s1, a)) {t : SensorType}
    (ht : sensorTypeOf (sensorNibble f) = some t) : windStage f s = payloadStage f t a s1 := by
  simp only [windStage, ho, ht]

/-- R204: the dispatched decoder's type is the frame's. -/
theorem dispatch_typeMatches {t : SensorType} (ht : sensorTypeOf (sensorNibble f) = some t) (sel : RainSel) :
    fieldTypeMatches (dispatchField t sel) f = true := by
  have h := (sensorTypeOf_eq_some_iff _ _).mp ht
  cases t <;> cases sel <;> simp [dispatchField, fieldTypeMatches, fieldType, h]

/-- R204: a dispatched decoder has no AUX (R206). -/
theorem dispatch_aux (t : SensorType) (sel : RainSel) (f : Frame) : fieldAux (dispatchField t sel) f = 0#32 := by
  cases t <;> cases sel <;> rfl

/-- R200, R205: a payload out of range. -/
theorem payloadStage_rejected {t : SensorType} (ht : sensorTypeOf (sensorNibble f) = some t)
    (hr : fieldInRange (dispatchField t (cfgRainSel s1.cfg)) f = false) : payloadStage f t a s1 = .next
      { s1 with
        rsp := packResponse
          { windFields f a with
            status := 2#4, outcome := 2#2, reached := 0b01111#5
            value := BitVec.ofInt 32 (fieldRaw (dispatchField t (cfgRainSel s1.cfg)) f)
            flags := fieldFlags (dispatchField t (cfgRainSel s1.cfg)) f }
        rspValid := true } := by
  have hs : fieldStatus (dispatchField t (cfgRainSel s1.cfg)) f = .outOfRange := by
    rw [fieldStatus, ← fieldInRange, dispatch_typeMatches ht, hr]; rfl
  simp only [payloadStage, fieldResult, hs]
  rfl

/-- R200, R206: a payload other than the rain counter that decodes. -/
theorem payloadStage_applied {t : SensorType} (ht : sensorTypeOf (sensorNibble f) = some t) (hc : t ≠ .rainCount)
    (hr : fieldInRange (dispatchField t (cfgRainSel s1.cfg)) f = true) : payloadStage f t a s1 = .next
      { s1 with
        rsp := packResponse
          { windFields f a with
            outcome := 1#2, reached := 0b01111#5
            value := BitVec.ofInt 32 (fieldRaw (dispatchField t (cfgRainSel s1.cfg)) f)
            flags := fieldFlags (dispatchField t (cfgRainSel s1.cfg)) f }
        rspValid := true } := by
  have hs : fieldStatus (dispatchField t (cfgRainSel s1.cfg)) f = .ok := by
    rw [fieldStatus, ← fieldInRange, dispatch_typeMatches ht, hr]; rfl
  simp only [payloadStage, fieldResult, hs, dispatch_aux]
  cases t with
  | rainCount => exact absurd rfl hc
  | _ => rfl

/-- R200, R206: a rain-counter frame. -/
theorem payloadStage_rainCount (ht : sensorTypeOf (sensorNibble f) = some .rainCount) :
    payloadStage f .rainCount a s1 = .next
      { s1 with
        rain := (rainObserve (BitVec.ofNat 7 (byteNat f 3)) s1.rain).1
        rsp := packResponse
          { windFields f a with
            outcome := 1#2, reached := 0b11111#5, value := BitVec.ofNat 32 (byteNat f 3 % 128)
            flags := flagIf (rainObserve (BitVec.ofNat 7 (byteNat f 3)) s1.rain).2.2 flagFirst
            rainTips := (rainObserve (BitVec.ofNat 7 (byteNat f 3)) s1.rain).2.1
            rainFirst := BitVec.ofBool (rainObserve (BitVec.ofNat 7 (byteNat f 3)) s1.rain).2.2 }
        rspValid := true } := by
  have hs : fieldStatus (dispatchField .rainCount (cfgRainSel s1.cfg)) f = .ok := by
    rw [fieldStatus, ← fieldInRange, dispatch_typeMatches ht]
    simp only [dispatchField, rainCounter_inRange]
    rfl
  have hraw : BitVec.ofInt 32 (fieldRaw .rainCounter f) = BitVec.ofNat 32 (byteNat f 3 % 128) := by
    simp only [fieldRaw, and_7F_eq_mod]
    exact BitVec.ofInt_natCast 32 _
  have hc : BitVec.extractLsb' 0 7 (BitVec.ofNat 32 (byteNat f 3 % 128)) = BitVec.ofNat 7 (byteNat f 3) := by
    apply BitVec.eq_of_toNat_eq
    simp only [BitVec.extractLsb'_toNat, BitVec.toNat_ofNat, Nat.shiftRight_zero]
    omega
  simp only [payloadStage, fieldResult, hs, dispatch_aux]
  simp only [dispatchField, fieldFlags, hraw, hc, respond_eq, BitVec.zero_or]
  rfl

/-- R206: the response fields that the wind stage and everything after it share, and what is written besides WIN. -/
theorem windStage_effect (ho : windObserve (headingWord (frameByte f 2)) s = (s1, a)) : ∃ r rain,
    windStage f s = .next { s1 with rain := rain, rsp := packResponse r, rspValid := true } ∧
    (r.status = 0#4 ∨ r.status = 2#4 ∨ r.status = 5#4) ∧
    r.reached ∈ [0b00111#5, 0b01111#5, 0b11111#5] ∧ r.outcome ≠ 0#2 ∧ r.flags.getLsbD 7 = false ∧
    r.hdrStation = externalStation f ∧ r.windSpeed = frameByte f 1 ∧
    r.avgStatus = (windFields f a).avgStatus ∧ r.avgDeg = (windFields f a).avgDeg ∧
    (r.reached.getLsbD 4 = false → r.rainTips = 0#7 ∧ r.rainFirst = 0#1) ∧
    (byteNat f 0 / 16 = 14 → rain = ⟨true, BitVec.ofNat 7 (byteNat f 3)⟩ ∧ r.status = 0#4) ∧
    (byteNat f 0 / 16 ≠ 14 → rain = s1.rain) := by
  cases ht : sensorTypeOf (sensorNibble f) with
  | none =>
    have hn := (sensorTypeOf_eq_none_iff f).mp ht
    refine ⟨_, s1.rain, windStage_unrecognized ho ht, ?_, ?_, ?_, ?_, rfl, rfl, rfl, rfl, ?_, ?_, ?_⟩
    · exact .inr (.inr rfl)
    · exact .head _
    · show (3#2 : BitVec 2) ≠ 0#2; decide
    · show (0#8 : BitVec 8).getLsbD 7 = false; decide
    · exact fun _ => ⟨rfl, rfl⟩
    · intro h; rw [h] at hn; simp at hn
    · exact fun _ => rfl
  | some t =>
    have hn : byteNat f 0 / 16 = (nibbleOf t).toNat := by
      rw [← sensorNibble_toNat, (sensorTypeOf_eq_some_iff _ _).mp ht]
    rw [windStage_payload ho ht]
    by_cases hc : t = .rainCount
    · subst hc
      refine ⟨_, _, payloadStage_rainCount ht, ?_, ?_, ?_, ?_, rfl, rfl, rfl, rfl, ?_, ?_, ?_⟩
      · exact .inl rfl
      · exact .tail _ (.tail _ (.head _))
      · show (1#2 : BitVec 2) ≠ 0#2; decide
      · show (flagIf _ _).getLsbD 7 = false
        generalize (rainObserve (BitVec.ofNat 7 (byteNat f 3)) s1.rain).2.2 = b
        cases b <;> decide
      · intro h
        exact absurd (show (0b11111#5 : BitVec 5).getLsbD 4 = false from h) (by decide)
      · exact fun _ => ⟨rainObserve_state _ _, rfl⟩
      · exact fun h => absurd hn h
    · have hne : byteNat f 0 / 16 ≠ 14 := by rw [hn]; revert hc; cases t <;> decide
      cases hr : fieldInRange (dispatchField t (cfgRainSel s1.cfg)) f
      · refine ⟨_, s1.rain, payloadStage_rejected ht hr, ?_, ?_, ?_, fieldFlags_bit7 _ f, rfl, rfl, rfl, rfl, ?_, ?_, ?_⟩
        · exact .inr (.inl rfl)
        · exact .tail _ (.head _)
        · show (2#2 : BitVec 2) ≠ 0#2; decide
        · exact fun _ => ⟨rfl, rfl⟩
        · exact fun h => absurd h hne
        · exact fun _ => rfl
      · refine ⟨_, s1.rain, payloadStage_applied ht hc hr, ?_, ?_, ?_, fieldFlags_bit7 _ f, rfl, rfl, rfl, rfl, ?_, ?_, ?_⟩
        · exact .inl rfl
        · exact .tail _ (.head _)
        · show (1#2 : BitVec 2) ≠ 0#2; decide
        · exact fun _ => ⟨rfl, rfl⟩
        · exact fun h => absurd h hne
        · exact fun _ => rfl

end Sys2Proof.Machine
end

