-- ==== Sys2Proof/Laws/State.lean ====
section
/-! SUPPORT. Laws/State.lean: what each update of State leaves in each field, one lemma a field. -/

namespace Sys2Proof.Machine

@[simp] theorem commitResponse_cfg (r : Response) (s : State) : (commitResponse r s).cfg = s.cfg := rfl
@[simp] theorem commitResponse_rain (r : Response) (s : State) : (commitResponse r s).rain = s.rain := rfl
@[simp] theorem commitResponse_win (r : Response) (s : State) : (commitResponse r s).win = s.win := rfl
@[simp] theorem commitResponse_rsp (r : Response) (s : State) : (commitResponse r s).rsp = packResponse r := rfl
@[simp] theorem commitResponse_rspValid (r : Response) (s : State) : (commitResponse r s).rspValid = true := rfl
@[simp] theorem commitResponse_executing (r : Response) (s : State) : (commitResponse r s).executing = s.executing := rfl
@[simp] theorem commitResponse_inputs (r : Response) (s : State) : (commitResponse r s).inputs = s.inputs := rfl
@[simp] theorem commitResponse_params (r : Response) (s : State) : (commitResponse r s).params = s.params := rfl
@[simp] theorem commitResponse_draws (r : Response) (s : State) : (commitResponse r s).draws = s.draws := rfl

@[simp] theorem dropSample_cfg (s : State) : (dropSample s).cfg = s.cfg := rfl
@[simp] theorem dropSample_rain (s : State) : (dropSample s).rain = s.rain := rfl
@[simp] theorem dropSample_win (s : State) : (dropSample s).win = s.win := rfl
@[simp] theorem dropSample_rsp (s : State) : (dropSample s).rsp = s.rsp := rfl
@[simp] theorem dropSample_rspValid (s : State) : (dropSample s).rspValid = s.rspValid := rfl
@[simp] theorem dropSample_executing (s : State) : (dropSample s).executing = s.executing := rfl
@[simp] theorem dropSample_inputs (s : State) : (dropSample s).inputs = s.inputs.tail := rfl
@[simp] theorem dropSample_params (s : State) : (dropSample s).params = s.params := rfl
@[simp] theorem dropSample_draws (s : State) : (dropSample s).draws = s.draws := rfl

@[simp] theorem resetBlock_cfg (s : State) : (resetBlock s).cfg = 0#16 := rfl
@[simp] theorem resetBlock_rain (s : State) : (resetBlock s).rain = ⟨false, 0#7⟩ := rfl
@[simp] theorem resetBlock_win (s : State) : (resetBlock s).win = [] := rfl
@[simp] theorem resetBlock_rsp (s : State) : (resetBlock s).rsp = 0#144 := rfl
@[simp] theorem resetBlock_rspValid (s : State) : (resetBlock s).rspValid = false := rfl
@[simp] theorem resetBlock_executing (s : State) : (resetBlock s).executing = none := rfl
@[simp] theorem resetBlock_inputs (s : State) : (resetBlock s).inputs = s.inputs := rfl
@[simp] theorem resetBlock_params (s : State) : (resetBlock s).params = s.params := rfl
@[simp] theorem resetBlock_draws (s : State) : (resetBlock s).draws = s.draws := rfl

@[simp] theorem acceptCommand_cfg (c : Command) (s : State) : (acceptCommand c s).cfg = s.cfg := rfl
@[simp] theorem acceptCommand_rain (c : Command) (s : State) : (acceptCommand c s).rain = s.rain := rfl
@[simp] theorem acceptCommand_win (c : Command) (s : State) : (acceptCommand c s).win = s.win := rfl
@[simp] theorem acceptCommand_rsp (c : Command) (s : State) : (acceptCommand c s).rsp = s.rsp := rfl
@[simp] theorem acceptCommand_rspValid (c : Command) (s : State) : (acceptCommand c s).rspValid = s.rspValid := rfl
@[simp] theorem acceptCommand_executing (c : Command) (s : State) : (acceptCommand c s).executing = some c := rfl
@[simp] theorem acceptCommand_inputs (c : Command) (s : State) : (acceptCommand c s).inputs = s.inputs := rfl
@[simp] theorem acceptCommand_params (c : Command) (s : State) : (acceptCommand c s).params = s.params := rfl
@[simp] theorem acceptCommand_draws (c : Command) (s : State) : (acceptCommand c s).draws = s.draws := rfl

@[simp] theorem takeResponse_cfg (s : State) : (takeResponse s).cfg = s.cfg := rfl
@[simp] theorem takeResponse_rain (s : State) : (takeResponse s).rain = s.rain := rfl
@[simp] theorem takeResponse_win (s : State) : (takeResponse s).win = s.win := rfl
@[simp] theorem takeResponse_rsp (s : State) : (takeResponse s).rsp = s.rsp := rfl
@[simp] theorem takeResponse_rspValid (s : State) : (takeResponse s).rspValid = false := rfl
@[simp] theorem takeResponse_executing (s : State) : (takeResponse s).executing = s.executing := rfl
@[simp] theorem takeResponse_inputs (s : State) : (takeResponse s).inputs = s.inputs := rfl
@[simp] theorem takeResponse_params (s : State) : (takeResponse s).params = s.params := rfl
@[simp] theorem takeResponse_draws (s : State) : (takeResponse s).draws = s.draws := rfl

@[simp] theorem placeCommand_cfg (c : Command) (s : State) : (placeCommand c s).cfg = s.cfg := rfl
@[simp] theorem placeCommand_rain (c : Command) (s : State) : (placeCommand c s).rain = s.rain := rfl
@[simp] theorem placeCommand_win (c : Command) (s : State) : (placeCommand c s).win = s.win := rfl
@[simp] theorem placeCommand_rsp (c : Command) (s : State) : (placeCommand c s).rsp = s.rsp := rfl
@[simp] theorem placeCommand_rspValid (c : Command) (s : State) : (placeCommand c s).rspValid = false := rfl
@[simp] theorem placeCommand_executing (c : Command) (s : State) : (placeCommand c s).executing = some c := rfl
@[simp] theorem placeCommand_inputs (c : Command) (s : State) : (placeCommand c s).inputs = PortSample.idle :: s.inputs := rfl
@[simp] theorem placeCommand_params (c : Command) (s : State) : (placeCommand c s).params = s.params := rfl
@[simp] theorem placeCommand_draws (c : Command) (s : State) : (placeCommand c s).draws = s.draws := rfl

end Sys2Proof.Machine
end

