-- ==== Sys2Proof/Laws/Exec.lean ====
section
/-! SUPPORT. Laws/Exec.lean: what any command can do (spec 30_encoding.md R62), said once: the response it commits is legal, and
which fields of the state it writes. -/

namespace Sys2Proof.Machine

theorem legal_of_simple {r : Response} (h : r.status.toNat ≤ 7) (hf : r.flags.getLsbD 7 = false)
    (ho : r = { status := r.status, flags := r.flags, value := r.value, aux := r.aux }) : LegalResponse r := by
  rw [ho]
  exact ⟨h, hf, .head _, fun _ => rfl, by simp, by simp, by simp, .inl rfl, fun _ => ⟨rfl, rfl⟩⟩

theorem legal_field (x : Field) (f : Frame) :
    LegalResponse { fieldResult x f with status := statusCode (fieldStatus x f) } := by
  rw [fieldAnswer_eq]
  split_ifs
  · exact legal_of_simple (by simp) (fieldFlags_bit7 x f) rfl
  · exact legal_of_simple (by simp) (fieldFlags_bit7 x f) rfl
  · exact legal_of_simple (by simp) (by simp) rfl

/-- R206: FRAME_PROCESS: a legal response; CFG kept; WIN written exactly past the gates, RAIN then only on a
rain-counter frame; and a status other than OK writes no RAIN. -/
theorem frameProcess_effect (f : Frame) (s : State) : ∃ r rain win draws,
    execFrameProcess f s = .next
      { s with rain := rain, win := win, draws := draws, rsp := packResponse r, rspValid := true } ∧
    LegalResponse r ∧ r.status.toNat ∈ [0, 2, 3, 4, 5] ∧
    (r.status ≠ 0#4 → rain = s.rain) ∧
    (if frameValid f = true ∧ byteNat f 0 % 8 = s.cfg.toNat % 8 ∧ byteNat f 1 ≤ 240 then
      r.reached.getLsbD 2 = true ∧
      win = (if s.win.length < 30 then s.win else s.win.drop 1) ++ [headingWord (frameByte f 2)] ∧
      (r.avgStatus = 6#4 ↔ s.win.length < 30) ∧
      rain = if byteNat f 0 / 16 = 14 then ⟨true, BitVec.ofNat 7 (byteNat f 3)⟩ else s.rain
    else win = s.win ∧ rain = s.rain ∧ draws = s.draws ∧ r.reached.getLsbD 2 = false) := by
  have hx : 1 ≤ (externalStation f).toNat ∧ (externalStation f).toNat ≤ 8 := by
    rw [externalStation_toNat]; omega
  obtain h | ⟨h, h1⟩ | ⟨h, h1, h2⟩ | ⟨h, h1, h2⟩ := frameProcess_split f s
  · refine ⟨_, s.rain, s.win, s.draws, frameProcess_badChecksum h s, ?_, ?_, fun _ => rfl, ?_⟩
    · exact ⟨by simp, by simp, .head _, by simp, by simp, by simp, by simp, .inl rfl, fun _ => ⟨rfl, rfl⟩⟩
    · simp
    · simp [h]
  · refine ⟨_, s.rain, s.win, s.draws, frameProcess_foreign h h1, ?_, ?_, fun _ => rfl, ?_⟩
    · exact ⟨by simp, by simp [headerFields], by simp [headerFields, reachedHdr], by simp,
        by simpa [headerFields, reachedHdr] using hx, by simp [headerFields, reachedHdr],
        by simp [headerFields, reachedHdr], .inl rfl, fun _ => ⟨rfl, rfl⟩⟩
    · simp
    · simp [h1, headerFields, reachedHdr]
  · refine ⟨_, s.rain, s.win, s.draws, frameProcess_tooFast h h1 h2, ?_, ?_, fun _ => rfl, ?_⟩
    · exact ⟨by simp, by simp [headerFields], by simp [headerFields, reachedHdr], by simp,
        by simpa [headerFields, reachedHdr] using hx, by simp [headerFields, reachedHdr],
        by simp [headerFields, reachedHdr], .inl rfl, fun _ => ⟨rfl, rfl⟩⟩
    · simp
    · simp [not_le.mpr h2, headerFields, reachedHdr]
  · obtain ⟨w, a, d, ho, hd, hw, ha⟩ := windObserve_cases (headingWord (frameByte f 2)) s
    obtain ⟨r, rain, he, hst, hre, hout, hfl, hhs, hws, has, had, hrt, hr14, hrn⟩ := windStage_effect ho
    rw [frameProcess_windStage h h1 h2]
    have hb0 : r.reached.getLsbD 0 = true := by
      simp only [List.mem_cons, List.not_mem_nil, or_false] at hre
      rcases hre with e | e | e <;> rw [e] <;> decide
    have hb1 : r.reached.getLsbD 1 = true := by
      simp only [List.mem_cons, List.not_mem_nil, or_false] at hre
      rcases hre with e | e | e <;> rw [e] <;> decide
    have hb2 : r.reached.getLsbD 2 = true := by
      simp only [List.mem_cons, List.not_mem_nil, or_false] at hre
      rcases hre with e | e | e <;> rw [e] <;> decide
    have havg : (r.avgStatus = 6#4 ↔ s.win.length < 30) ∧
        (r.avgStatus = 0#4 ∧ r.avgDeg.toNat < 360 ∨ r.avgStatus = 6#4 ∧ r.avgDeg = 0#9) := by
      rw [has, had]
      by_cases hl : s.win.length < 30
      · rw [if_pos hl] at ha
        rw [ha.1]
        simp [hl, windFields, statusCode]
      · rw [if_neg hl] at ha
        obtain ⟨n, hn, ha⟩ := ha
        have := meanChoices_lt hn
        rw [ha]
        simp only [hl, windFields, statusCode]
        refine ⟨by decide, .inl ⟨trivial, ?_⟩⟩
        rw [BitVec.toNat_ofNat]
        exact lt_of_le_of_lt (Nat.mod_le _ _) this
    refine ⟨r, rain, w, d, he, ?_, ?_, ?_, ?_⟩
    · refine ⟨?_, hfl, .tail _ (.tail _ hre), fun e => absurd e hout, ?_, ?_, ?_, ?_, hrt⟩
      · rcases hst with e | e | e <;> rw [e] <;> decide
      · rw [hb0, hhs]; simpa using hx
      · rw [hb1, hws]; exact h2
      · rw [hb2]
        rcases havg.2 with ⟨e1, e2⟩ | ⟨e1, e2⟩
        · rw [e1]; simpa [statusCode] using e2
        · rw [e1, e2]; decide
      · rw [hb2]
        rcases havg.2 with ⟨e1, e2⟩ | ⟨e1, e2⟩
        · exact .inl e1
        · exact .inr ⟨e1, rfl⟩
    · rcases hst with e | e | e <;> rw [e] <;> decide
    · intro hne
      by_cases h14 : byteNat f 0 / 16 = 14
      · exact absurd (hr14 h14).2 hne
      · exact hrn h14
    · rw [if_pos ⟨h, h1, h2⟩]
      refine ⟨hb2, hw, havg.1, ?_⟩
      split_ifs with h14
      · exact (hr14 h14).1
      · exact hrn h14

/-- R187: WIND_OBSERVE. -/
theorem windObserve_effect (h : HeadingWord) (s : State) : ∃ w a d,
    windObserve h s = ({ s with win := w, draws := d }, a) ∧ s.draws ≤ d ∧
    w = (if s.win.length < 30 then s.win else s.win.drop 1) ++ [h] ∧
    (if s.win.length < 30 then a = none ∧ d = s.draws else ∃ n ∈ meanChoices s.params w, a = some n) ∧
    execWindObserve h s = .next
      { s with
        win := w, draws := d
        rsp := packResponse
          { status := if a = none then 6#4 else 0#4, value := BitVec.ofNat 32 (a.getD 0)
            aux := BitVec.ofNat 32 w.length, flags := if w.length = 30 then 0x40#8 else 0#8 }
        rspValid := true } := by
  obtain ⟨w, a, d, ho, hd, hw, ha⟩ := windObserve_cases h s
  refine ⟨w, a, d, ho, hd, hw, ha, ?_⟩
  simp only [execWindObserve, ho, fullFlag, windWindow, flagIf, flagFull, beq_iff_eq]
  cases a <;> rfl

/-- What every command does: it commits one legal response and writes no field but CFG, RAIN, WIN and the counter of
draws; a window of at most 30 samples stays one, CFG[15:4] stays 0, and RAIN is unchanged or primed. -/
theorem exec_effect (i : Instr) (s : State) : ∃ r cfg rain win draws,
    exec i s = .next
      { s with cfg := cfg, rain := rain, win := win, draws := draws, rsp := packResponse r, rspValid := true } ∧
    LegalResponse r ∧ (s.win.length ≤ 30 → s.win.length ≤ win.length ∧ win.length ≤ 30) ∧
    (cfg = s.cfg ∨ cfg.extractLsb' 4 12 = 0#12) ∧ (rain = s.rain ∨ rain.primed = true) := by
  have hfield : ∀ (x : Field) (f : Frame), ∃ r cfg rain win draws,
      execField x f s = .next
        { s with cfg := cfg, rain := rain, win := win, draws := draws, rsp := packResponse r, rspValid := true } ∧
      LegalResponse r ∧ (s.win.length ≤ 30 → s.win.length ≤ win.length ∧ win.length ≤ 30) ∧
      (cfg = s.cfg ∨ cfg.extractLsb' 4 12 = 0#12) ∧ (rain = s.rain ∨ rain.primed = true) := fun x f =>
    ⟨_, s.cfg, s.rain, s.win, s.draws, execField_eq x f s, legal_field x f, fun h => ⟨le_rfl, h⟩, .inl rfl, .inl rfl⟩
  have hlen : ∀ q : HeadingWord, s.win.length ≤ 30 →
      s.win.length ≤ ((if s.win.length < 30 then s.win else s.win.drop 1) ++ [q]).length ∧
      ((if s.win.length < 30 then s.win else s.win.drop 1) ++ [q]).length ≤ 30 := by
    intro q h
    split_ifs <;> simp <;> omega
  cases i with
  | crcCompute f =>
    exact ⟨_, s.cfg, s.rain, s.win, s.draws, rfl, legal_of_simple (by simp) (by simp) rfl, fun h => ⟨le_rfl, h⟩,
      .inl rfl, .inl rfl⟩
  | crcCheck f =>
    simp only [exec, execCrcCheck]
    split_ifs
    · exact ⟨_, s.cfg, s.rain, s.win, s.draws, rfl, legal_of_simple (by simp) (by simp) rfl, fun h => ⟨le_rfl, h⟩,
        .inl rfl, .inl rfl⟩
    · exact ⟨_, s.cfg, s.rain, s.win, s.draws, rfl, legal_of_simple (by simp [statusCode]) (by simp) rfl,
        fun h => ⟨le_rfl, h⟩, .inl rfl, .inl rfl⟩
  | hdrStationId f =>
    exact ⟨_, s.cfg, s.rain, s.win, s.draws, rfl, legal_of_simple (by simp) (by simp) rfl, fun h => ⟨le_rfl, h⟩,
      .inl rfl, .inl rfl⟩
  | hdrBatteryLow f =>
    exact ⟨_, s.cfg, s.rain, s.win, s.draws, rfl, legal_of_simple (by simp) (by simp) rfl, fun h => ⟨le_rfl, h⟩,
      .inl rfl, .inl rfl⟩
  | hdrSensorType f =>
    simp only [exec, execHdrSensorType]
    cases sensorTypeOf (sensorNibble f)
    · exact ⟨_, s.cfg, s.rain, s.win, s.draws, rfl, legal_of_simple (by simp [statusCode]) (by simp) rfl,
        fun h => ⟨le_rfl, h⟩, .inl rfl, .inl rfl⟩
    · exact ⟨_, s.cfg, s.rain, s.win, s.draws, rfl, legal_of_simple (by simp) (by simp) rfl, fun h => ⟨le_rfl, h⟩,
        .inl rfl, .inl rfl⟩
  | decWindSpeed f => exact hfield .windSpeed f
  | decWindDir f => exact hfield .windDir f
  | decWindGust f => exact hfield .windGust f
  | decRainRateA f => exact hfield .rainRateA f
  | decRainRateB f => exact hfield .rainRateB f
  | decRainCounter f => exact hfield .rainCounter f
  | decTemperature f => exact hfield .temperature f
  | decHumidity f => exact hfield .humidity f
  | decSolar f => exact hfield .solar f
  | decUv f => exact hfield .uv f
  | decCapVoltage f => exact hfield .capVoltage f
  | rainObserve c =>
    refine ⟨_, s.cfg, (rainObserve c s.rain).1, s.win, s.draws, rfl, legal_of_simple (by simp) ?_ rfl,
      fun h => ⟨le_rfl, h⟩, .inl rfl, .inr (by rw [rainObserve_state])⟩
    show (flagIf _ _ ||| flagIf _ _).getLsbD 7 = false
    generalize (rainObserve c s.rain).2.2 = x
    generalize (rainObserve c s.rain).1.primed = y
    cases x <;> cases y <;> decide
  | rainStatus =>
    refine ⟨_, s.cfg, s.rain, s.win, s.draws, rfl, legal_of_simple (by simp) ?_ rfl,
      fun h => ⟨le_rfl, h⟩, .inl rfl, .inl rfl⟩
    show (flagIf _ _).getLsbD 7 = false
    cases s.rain.primed <;> decide
  | windObserve h =>
    obtain ⟨w, a, d, -, -, hw, -, he⟩ := windObserve_effect h s
    refine ⟨_, s.cfg, s.rain, w, d, he, legal_of_simple ?_ ?_ rfl, fun hl => hw ▸ hlen h hl, .inl rfl, .inl rfl⟩
    · show (if a = none then 6#4 else 0#4 : BitVec 4).toNat ≤ 7
      split_ifs <;> decide
    · show (if w.length = 30 then 0x40#8 else 0#8 : BitVec 8).getLsbD 7 = false
      split_ifs <;> decide
  | windStatus =>
    refine ⟨_, s.cfg, s.rain, s.win, s.draws, rfl, legal_of_simple (by simp) ?_ rfl,
      fun h => ⟨le_rfl, h⟩, .inl rfl, .inl rfl⟩
    show (flagIf _ _).getLsbD 7 = false
    cases (s.win.length == windWindow) <;> decide
  | frameProcess f =>
    obtain ⟨r, rain, win, d, he, hl, -, -, hc⟩ := frameProcess_effect f s
    by_cases hg : frameValid f = true ∧ byteNat f 0 % 8 = s.cfg.toNat % 8 ∧ byteNat f 1 ≤ 240
    · rw [if_pos hg] at hc
      refine ⟨r, s.cfg, rain, win, d, he, hl, fun h30 => hc.2.1 ▸ hlen _ h30, .inl rfl, ?_⟩
      rw [hc.2.2.2]
      split_ifs
      · exact .inr rfl
      · exact .inl rfl
    · rw [if_neg hg] at hc
      exact ⟨r, s.cfg, rain, win, d, he, hl, fun h30 => by rw [hc.1]; exact ⟨le_rfl, h30⟩, .inl rfl, .inl hc.2.1⟩
  | cfgWrite e sel =>
    refine ⟨_, cfgOfFields e sel, s.rain, s.win, s.draws, rfl, legal_of_simple (by simp) (by simp) rfl,
      fun h => ⟨le_rfl, h⟩, .inr ?_, .inl rfl⟩
    revert e
    cases sel <;> decide
  | cfgRead =>
    exact ⟨_, s.cfg, s.rain, s.win, s.draws, rfl, legal_of_simple (by simp) (by simp) rfl, fun h => ⟨le_rfl, h⟩,
      .inl rfl, .inl rfl⟩

end Sys2Proof.Machine
end

