-- ==== Sys2Proof/Laws/PerInstr.lean ====
section
/-! SUPPORT. Laws/PerInstr.lean: for every command, that the word of its encoding matches the row of the opcode table
(spec 30_encoding.md R62) with its opcode. -/

namespace Sys2Proof.Laws.EncodesToTableRow

open Sys2Proof

/-- The opcode of a command (R62). -/
def opcodeOf : Instr → BitVec 8
  | .crcCompute _ => 0x01#8
  | .crcCheck _ => 0x02#8
  | .hdrStationId _ => 0x10#8
  | .hdrBatteryLow _ => 0x11#8
  | .hdrSensorType _ => 0x12#8
  | .decWindSpeed _ => 0x20#8
  | .decWindDir _ => 0x21#8
  | .decWindGust _ => 0x22#8
  | .decRainRateA _ => 0x23#8
  | .decRainRateB _ => 0x24#8
  | .decRainCounter _ => 0x25#8
  | .decTemperature _ => 0x26#8
  | .decHumidity _ => 0x27#8
  | .decSolar _ => 0x28#8
  | .decUv _ => 0x29#8
  | .decCapVoltage _ => 0x2A#8
  | .rainObserve _ => 0x30#8
  | .rainStatus => 0x31#8
  | .windObserve _ => 0x40#8
  | .windStatus => 0x41#8
  | .frameProcess _ => 0x50#8
  | .cfgWrite _ _ => 0x60#8
  | .cfgRead => 0x61#8

/-- R62: the command's word matches a row, and the row's opcode is the command's. -/
def Statement (i : Instr) : Prop :=
  ∃ r ∈ opcodeRows, r.mtch = opcodeOf i ++ 0#8 ++ 0#16 ∧ (encode i).cmd &&& r.mask = r.mtch

/-- A word made of an opcode and an argument inside the row's mask. -/
theorem of_row {i : Instr} {opc : BitVec 8} {arg m : Arg} (name : String) (hw : (encode i).cmd = cmdWord opc arg)
    (ho : opcodeOf i = opc) (hr : ⟨name, opc ++ 0#8 ++ 0#16, 0xFFFF#16 ++ ~~~m⟩ ∈ opcodeRows)
    (ha : arg &&& ~~~m = 0#16) : Statement i := by
  refine ⟨_, hr, by rw [ho], ?_⟩
  rw [hw]
  exact (and_mask_eq_iff _ _ _).mpr ⟨by simp, by simp, by simpa using ha⟩

theorem crcCompute (f : Frame) : Statement (.crcCompute f) :=
  of_row (m := 0#16) "CRC_COMPUTE" rfl rfl (by decide) (by decide)

theorem crcCheck (f : Frame) : Statement (.crcCheck f) :=
  of_row (m := 0#16) "CRC_CHECK" rfl rfl (by decide) (by decide)

theorem hdrStationId (f : Frame) : Statement (.hdrStationId f) :=
  of_row (m := 0#16) "HDR_STATION_ID" rfl rfl (by decide) (by decide)

theorem hdrBatteryLow (f : Frame) : Statement (.hdrBatteryLow f) :=
  of_row (m := 0#16) "HDR_BATTERY_LOW" rfl rfl (by decide) (by decide)

theorem hdrSensorType (f : Frame) : Statement (.hdrSensorType f) :=
  of_row (m := 0#16) "HDR_SENSOR_TYPE" rfl rfl (by decide) (by decide)

theorem decWindSpeed (f : Frame) : Statement (.decWindSpeed f) :=
  of_row (m := 0#16) "DEC_WIND_SPEED" rfl rfl (by decide) (by decide)

theorem decWindDir (f : Frame) : Statement (.decWindDir f) :=
  of_row (m := 0#16) "DEC_WIND_DIR" rfl rfl (by decide) (by decide)

theorem decWindGust (f : Frame) : Statement (.decWindGust f) :=
  of_row (m := 0#16) "DEC_WIND_GUST" rfl rfl (by decide) (by decide)

theorem decRainRateA (f : Frame) : Statement (.decRainRateA f) :=
  of_row (m := 0#16) "DEC_RAIN_RATE_A" rfl rfl (by decide) (by decide)

theorem decRainRateB (f : Frame) : Statement (.decRainRateB f) :=
  of_row (m := 0#16) "DEC_RAIN_RATE_B" rfl rfl (by decide) (by decide)

theorem decRainCounter (f : Frame) : Statement (.decRainCounter f) :=
  of_row (m := 0#16) "DEC_RAIN_COUNTER" rfl rfl (by decide) (by decide)

theorem decTemperature (f : Frame) : Statement (.decTemperature f) :=
  of_row (m := 0#16) "DEC_TEMPERATURE" rfl rfl (by decide) (by decide)

theorem decHumidity (f : Frame) : Statement (.decHumidity f) :=
  of_row (m := 0#16) "DEC_HUMIDITY" rfl rfl (by decide) (by decide)

theorem decSolar (f : Frame) : Statement (.decSolar f) :=
  of_row (m := 0#16) "DEC_SOLAR" rfl rfl (by decide) (by decide)

theorem decUv (f : Frame) : Statement (.decUv f) :=
  of_row (m := 0#16) "DEC_UV" rfl rfl (by decide) (by decide)

theorem decCapVoltage (f : Frame) : Statement (.decCapVoltage f) :=
  of_row (m := 0#16) "DEC_CAP_VOLTAGE" rfl rfl (by decide) (by decide)

theorem rainObserve (c : BitVec 7) : Statement (.rainObserve c) :=
  of_row (m := 0x7F#16) "RAIN_OBSERVE" rfl rfl (by decide) (by decide +revert)

theorem rainStatus : Statement .rainStatus :=
  of_row (m := 0#16) "RAIN_STATUS" rfl rfl (by decide) (by decide)

theorem windObserve (h : HeadingWord) : Statement (.windObserve h) :=
  of_row (m := 0xFFFF#16) "WIND_OBSERVE" rfl rfl (by decide) (by ext i hi; simp)

theorem windStatus : Statement .windStatus :=
  of_row (m := 0#16) "WIND_STATUS" rfl rfl (by decide) (by decide)

theorem frameProcess (f : Frame) : Statement (.frameProcess f) :=
  of_row (m := 0#16) "FRAME_PROCESS" rfl rfl (by decide) (by decide)

theorem cfgWrite (e : BitVec 3) (sel : RainSel) : Statement (.cfgWrite e sel) :=
  of_row (m := 0xF#16) "CFG_WRITE" rfl rfl (by decide) (by revert e; cases sel <;> decide)

theorem cfgRead : Statement .cfgRead :=
  of_row (m := 0#16) "CFG_READ" rfl rfl (by decide) (by decide)

end Sys2Proof.Laws.EncodesToTableRow
end

