-- ==== Sys2Proof/Laws/Step.lean ====
section
/-! SUPPORT. Laws/Step.lean: what a step can do (spec 30_encoding.md R74; 70_reset_and_hazards.md R260, R261), said once. -/

namespace Sys2Proof.Machine

/-- R31, R61: what a commit leaves: one legal response, and CFG, RAIN and WIN as a command may write them. -/
theorem commitCommand_effect (c : Command) (s : State) : ∃ r cfg rain win draws,
    commitCommand c s = .next
      { s with
        cfg := cfg, rain := rain, win := win, draws := draws, rsp := packResponse r, rspValid := true
        executing := none } ∧
    LegalResponse r ∧ (s.win.length ≤ 30 → s.win.length ≤ win.length ∧ win.length ≤ 30) ∧
    (cfg = s.cfg ∨ cfg.extractLsb' 4 12 = 0#12) ∧ (rain = s.rain ∨ rain.primed = true) := by
  unfold commitCommand
  cases decode c with
  | ok i => exact exec_effect i { s with executing := none }
  | error e =>
    exact ⟨{ status := 7#4 }, s.cfg, s.rain, s.win, s.draws, rfl, legal_of_simple (by simp) (by simp) rfl,
      fun h => ⟨le_rfl, h⟩, .inl rfl, .inl rfl⟩

/-- A step is a reset, a commit, a response taken or awaited, or a command accepted or awaited. -/
theorem step_cases (s : State) :
    ((sampleNow s).rst = true ∧ step s = .next (resetBlock (dropSample s))) ∨
    ((sampleNow s).rst = false ∧ ∃ c, s.executing = some c ∧ step s = commitCommand c (dropSample s)) ∨
    ((sampleNow s).rst = false ∧ s.executing = none ∧ s.rspValid = true ∧
      step s = .next (if (sampleNow s).rspReady then takeResponse (dropSample s) else dropSample s)) ∨
    ((sampleNow s).rst = false ∧ s.executing = none ∧ s.rspValid = false ∧
      step s = .next
        (if (sampleNow s).cmdValid then acceptCommand (sampleNow s).command (dropSample s) else dropSample s)) := by
  unfold step
  cases hr : (sampleNow s).rst
  · refine .inr ?_
    simp only [Bool.false_eq_true, if_false, stepPorts, dropSample_executing, dropSample_rspValid, true_and]
    cases he : s.executing with
    | some c => exact .inl ⟨c, rfl, rfl⟩
    | none =>
      rcases Bool.eq_false_or_eq_true s.rspValid with hv | hv
      · exact .inr (.inl ⟨rfl, hv, by simp [hv]⟩)
      · exact .inr (.inr ⟨rfl, hv, by simp [hv]⟩)
  · exact .inl ⟨rfl, by simp⟩

end Sys2Proof.Machine
end

