-- ==== Sys2Proof/Tests/Slice0.lean ====
section
/-! SUPPORT. Tests/Slice0.lean: small tests of one step each, whose expected results are the vectors of spec
95_test_vectors.md, and for every statement with hypotheses a concrete state and operands that meet them. -/

namespace Sys2Proof.Machine.Tests

set_option Elab.async false

/-- The next state of an outcome. -/
def nextState : Host.Outcome State Fault Refusal → Option State
  | .next s => some s
  | _ => none

theorem eq_next {o : Host.Outcome State Fault Refusal} {t : State} (h : nextState o = some t) : o = .next t := by
  cases o <;> simp_all [nextState]

/-- RSP after the step that executes a command word in a state. -/
def answer (s : State) (w : CmdWord) (f : Frame) : Option RspWord :=
  (nextState (step (placeCommand ⟨w, f⟩ s))).map (·.rsp)

/-- The state after the step that executes a command word. -/
def after (s : State) (w : CmdWord) (f : Frame) : State := (nextState (step (placeCommand ⟨w, f⟩ s))).getD s

/-- A state with a window. -/
def withWin (w : List HeadingWord) : State := { State.reset with win := w }

/-- A state with RAIN primed. -/
def withRain (b : BitVec 7) : State := { State.reset with rain := ⟨true, b⟩ }

/-! ### Decoding: one word per command, written from R60, R62 and R63 -/

theorem test_decode_crcCompute : decodeTableWord 96 0x8005642BC000043701000000 = some (.crcCompute 0x8005642BC0000437#64) := by decide
theorem test_decode_crcCheck : decodeTableWord 96 0x8005642BC000043702000000 = some (.crcCheck 0x8005642BC0000437#64) := by decide
theorem test_decode_hdrStationId : decodeTableWord 96 0x8005642BC000043710000000 = some (.hdrStationId 0x8005642BC0000437#64) := by decide
theorem test_decode_hdrBatteryLow : decodeTableWord 96 0x8005642BC000043711000000 = some (.hdrBatteryLow 0x8005642BC0000437#64) := by decide
theorem test_decode_hdrSensorType : decodeTableWord 96 0x8005642BC000043712000000 = some (.hdrSensorType 0x8005642BC0000437#64) := by decide
theorem test_decode_decWindSpeed : decodeTableWord 96 0x8005642BC000043720000000 = some (.decWindSpeed 0x8005642BC0000437#64) := by decide
theorem test_decode_decWindDir : decodeTableWord 96 0x8005642BC000043721000000 = some (.decWindDir 0x8005642BC0000437#64) := by decide
theorem test_decode_decWindGust : decodeTableWord 96 0x8005642BC000043722000000 = some (.decWindGust 0x8005642BC0000437#64) := by decide
theorem test_decode_decRainRateA : decodeTableWord 96 0x8005642BC000043723000000 = some (.decRainRateA 0x8005642BC0000437#64) := by decide
theorem test_decode_decRainRateB : decodeTableWord 96 0x8005642BC000043724000000 = some (.decRainRateB 0x8005642BC0000437#64) := by decide
theorem test_decode_decRainCounter : decodeTableWord 96 0x8005642BC000043725000000 = some (.decRainCounter 0x8005642BC0000437#64) := by decide
theorem test_decode_decTemperature : decodeTableWord 96 0x8005642BC000043726000000 = some (.decTemperature 0x8005642BC0000437#64) := by decide
theorem test_decode_decHumidity : decodeTableWord 96 0x8005642BC000043727000000 = some (.decHumidity 0x8005642BC0000437#64) := by decide
theorem test_decode_decSolar : decodeTableWord 96 0x8005642BC000043728000000 = some (.decSolar 0x8005642BC0000437#64) := by decide
theorem test_decode_decUv : decodeTableWord 96 0x8005642BC000043729000000 = some (.decUv 0x8005642BC0000437#64) := by decide
theorem test_decode_decCapVoltage : decodeTableWord 96 0x8005642BC00004372A000000 = some (.decCapVoltage 0x8005642BC0000437#64) := by decide
theorem test_decode_rainObserve : decodeTableWord 32 0x30000032 = some (.rainObserve 50#7) := by decide
theorem test_decode_rainStatus : decodeTableWord 32 0x31000000 = some .rainStatus := by decide
theorem test_decode_windObserve : decodeTableWord 32 0x4000DAC0 = some (.windObserve 56000#16) := by decide
theorem test_decode_windStatus : decodeTableWord 32 0x41000000 = some .windStatus := by decide
theorem test_decode_frameProcess : decodeTableWord 96 0x8005642BC000043750000000 = some (.frameProcess 0x8005642BC0000437#64) := by decide
theorem test_decode_cfgWrite : decodeTableWord 32 0x6000000F = some (.cfgWrite 7#3 .formulaB) := by decide
theorem test_decode_cfgRead : decodeTableWord 32 0x61000000 = some .cfgRead := by decide

/-! ### Ill-formed words, one for each check of R61 (the words of 95_test_vectors.md 3.8) -/

theorem test_illformed_opcode_zero : (Command.mk 0x00000000#32 0#64).wellFormed = false := by decide
theorem test_illformed_opcode_62 : (Command.mk 0x62000000#32 0#64).wellFormed = false := by decide
theorem test_illformed_reserved : (Command.mk 0x01010000#32 0#64).wellFormed = false := by decide
theorem test_illformed_argument : (Command.mk 0x30000080#32 0#64).wellFormed = false := by decide
theorem test_illformed_cfg_argument : (Command.mk 0x60000010#32 0#64).wellFormed = false := by decide
theorem test_reject_opcode : decodeTableWord 32 0xFF000000 = none := by decide
theorem test_reject_reserved : decodeTableWord 32 0x01010000 = none := by decide
theorem test_reject_argument : decodeTableWord 32 0x500000FF = none := by decide
theorem test_illegal_answer : answer (withRain 5#7) 0x30000080#32 0#64 = some 7#144 := by decide
theorem test_assembler_range_degrees : assemble (.windObserveDeg 410) = none := by decide
theorem test_assembler_range_code : assemble (.windObserveCode 256) = none := by decide
theorem test_assembler_range_counter : assemble (.rainObserve 128) = none := by decide
theorem test_assembler_range_station : assemble (.setStation 9) = none := by decide
theorem test_assembler_range_heading : assemble (.windObserve 65536) = none := by decide
theorem test_assembler_mnemonic : assemble (.plain "CRC_CHECK") = none := by decide

/-! ### Results (95_test_vectors.md 3.1 to 3.7) -/

theorem test_crcCompute :
    answer State.reset 0x01000000#32 0x123456789ABC0000#64 = some 0x00000000000000000000000000000A650000#144 := by
  decide +kernel
theorem test_crcCompute_frame :
    answer State.reset 0x01000000#32 0x800564820000316E#64 = some 0x000000000000000000000316E0000316E000#144 := by
  decide +kernel
theorem test_crcCheck_ok :
    answer State.reset 0x02000000#32 0xE0000033000017CD#64 = some 0x0000000000000000017CD17CD00000001000#144 := by
  decide +kernel
theorem test_crcCheck_zero_guard :
    answer State.reset 0x02000000#32 0x0000000110210000#64 = some 0x000000000000000000000000000000000003#144 := by
  decide +kernel
theorem test_hdrStationId :
    answer State.reset 0x10000000#32 0xF7000000000059FD#64 = some 0x000000000000000000000000000000008000#144 := by
  decide +kernel
theorem test_hdrBatteryLow :
    answer State.reset 0x11000000#32 0x0800000000000D42#64 = some 0x000000000000000000000000000000001000#144 := by
  decide +kernel
theorem test_hdrSensorType_known :
    answer State.reset 0x12000000#32 0x800564820000316E#64 = some 0x000000000000000000000000000000008000#144 := by
  decide +kernel
theorem test_hdrSensorType_unknown :
    answer State.reset 0x12000000#32 0xF7000000000059FD#64 = some 0x00000000000000000000000000000000F005#144 := by
  decide +kernel
theorem test_decWindSpeed_bound :
    answer State.reset 0x20000000#32 0x80F0FF2BC000C0B6#64 = some 0x0000000000000000000000000000000F0000#144 := by
  decide +kernel
theorem test_decWindSpeed_above :
    answer State.reset 0x20000000#32 0x90F1000000005BA3#64 = some 0x0000000000000000000000000000000F1002#144 := by
  decide +kernel
theorem test_decWindDir_none :
    answer State.reset 0x21000000#32 0x8005002BC0009714#64 = some 0x000000000000000000000000000000000040#144 := by
  decide +kernel
theorem test_decWindDir_last :
    answer State.reset 0x21000000#32 0x80F0FF2BC000C0B6#64 = some 0x000000000000000000000E04F000000FF000#144 := by
  decide +kernel
theorem test_decWindGust_battery :
    answer State.reset 0x22000000#32 0x9800001000008085#64 = some 0x000000000000000000000000000000010000#144 := by
  decide +kernel
theorem test_decWindGust_type :
    answer State.reset 0x22000000#32 0x800564820000316E#64 = some 0x000000000000000000000000800000000001#144 := by
  decide +kernel
theorem test_decRainRateA_negative :
    answer State.reset 0x23000000#32 0x5000000B00008065#64 = some 0x0000000000000000000000000FFFFFFFF002#144 := by
  decide +kernel
theorem test_decRainRateA_heavy_max :
    answer State.reset 0x23000000#32 0x500000FFF000AC36#64 = some 0x000000000000000000000000000000BFF020#144 := by
  decide +kernel
theorem test_decRainRateB_heavy :
    answer State.reset 0x24000000#32 0x5202801E6500CED2#64 = some 0x000000000000000000000000000000212120#144 := by
  decide +kernel
theorem test_decRainRateB_type :
    answer State.reset 0x24000000#32 0xE0000032000020FD#64 = some 0x000000000000000000000000E00000000001#144 := by
  decide +kernel
theorem test_decRainCounter_bit7 :
    answer State.reset 0x25000000#32 0xE00000800000B062#64 = some 0x000000000000000000000000000000000000#144 := by
  decide +kernel
theorem test_decRainCounter_max :
    answer State.reset 0x25000000#32 0xE00000FF0000445B#64 = some 0x00000000000000000000000000000007F000#144 := by
  decide +kernel
theorem test_decTemperature_bound :
    answer State.reset 0x26000000#32 0x800000514000B012#64 = some 0x000000000000000000000000000000514000#144 := by
  decide +kernel
theorem test_decTemperature_above :
    answer State.reset 0x26000000#32 0x800000515000B361#64 = some 0x000000000000000000000000000000515002#144 := by
  decide +kernel
theorem test_decHumidity_order :
    answer State.reset 0x27000000#32 0xA00340F421006B23#64 = some 0x0000000000000000000000000000002F4000#144 := by
  decide +kernel
theorem test_decHumidity_above :
    answer State.reset 0x27000000#32 0xA00000E93000DA1D#64 = some 0x0000000000000000000000000000003E9002#144 := by
  decide +kernel
theorem test_decSolar_below :
    answer State.reset 0x28000000#32 0x60000000400052D4#64 = some 0x000000000000000000000000000000004002#144 := by
  decide +kernel
theorem test_decSolar_offline :
    answer State.reset 0x28000000#32 0x600000FF0000907B#64 = some 0x000000000000000000000000000000000010#144 := by
  decide +kernel
theorem test_decUv_bound :
    answer State.reset 0x29000000#32 0x400000C84000E88A#64 = some 0x000000000000000000000000000000C84000#144 := by
  decide +kernel
theorem test_decUv_above :
    answer State.reset 0x29000000#32 0x400000C85000EBF9#64 = some 0x000000000000000000000000000000C85002#144 := by
  decide +kernel
theorem test_decCapVoltage :
    answer State.reset 0x2A000000#32 0x20056457800045BA#64 = some 0x00000000000000000000000000000015E000#144 := by
  decide +kernel
theorem test_decCapVoltage_above :
    answer State.reset 0x2A000000#32 0x200000FA40001C57#64 = some 0x0000000000000000000000000000003E9002#144 := by
  decide +kernel
theorem test_rainObserve_first :
    answer State.reset 0x30000032#32 0#64 = some 0x000000000000000000000003200000000280#144 := by
  decide +kernel
theorem test_rainObserve_rollover :
    answer (withRain 127#7) 0x30000000#32 0#64 = some 0x000000000000000000000000000000001200#144 := by
  decide +kernel
/-- 95_test_vectors.md section 2: 50 then 51 is 0.01 inch, 50 then 2 is 0.80 inch. -/
theorem test_rainInches : rainObserveInches 51#7 ⟨true, 50#7⟩ = 1 / 100 ∧ rainObserveInches 2#7 ⟨true, 50#7⟩ = 4 / 5 := by
  decide +kernel
theorem test_rainStatus :
    answer (withRain 2#7) 0x31000000#32 0#64 = some 0x000000000000000000000000000000002200#144 := by
  decide +kernel
theorem test_windObserve_thirtieth :
    answer (withWin (List.replicate 29 0#16)) 0x40000000#32 0#64 =
      some 0x000000000000000000000001E00000000406#144 := by
  decide +kernel
theorem test_windObserve_past_360 :
    answer (withWin (List.replicate 20 57440#16 ++ List.replicate 10 160#16)) 0x4000E060#32 0#64 =
      some 0x000000000000000000000001E00000000400#144 := by
  decide +kernel
theorem test_windMean_tie : meanChoices WindParams.default (List.replicate 30 57520#16) = [359, 0] := by decide +kernel
theorem test_windStatus :
    answer (withWin (List.replicate 30 0#16)) 0x41000000#32 0#64 =
      some 0x00000000000000000000000000000001E400#144 := by
  decide +kernel
theorem test_frameProcess_rain :
    answer (withRain 50#7) 0x50000000#32 0xE0000033000017CD#64 =
      some 0x0002006000000E0FD0000000000000033000#144 := by
  decide +kernel
theorem test_frameProcess_full_window :
    answer (withWin (List.replicate 30 22548#16)) 0x50000000#32 0x80F0FF2BC000C0B6#64 =
      some 0x00008C0E04FF080BD00000000000002BC000#144 := by
  decide +kernel
theorem test_cfgWrite :
    answer State.reset 0x6000000F#32 0#64 = some 0x00000000000000000000000000000000F000#144 := by
  decide +kernel
theorem test_cfgRead :
    answer { State.reset with cfg := 0x000F#16 } 0x61000000#32 0#64 =
      some 0x00000000000000000000000000000000F000#144 := by
  decide +kernel
theorem test_fetch_runs_first :
    (nextState (step (State.reset.withFetchWord 32 0x30000032))).map (·.rain) = some ⟨true, 50#7⟩ := by
  decide +kernel
theorem test_text_line :
    assembleText "FRAME_PROCESS [80 05 64 2B C0 00 04 37] ; a frame" =
      some [.frameProcess 0x8005642BC0000437#64] := by
  decide +kernel
theorem test_text_config : assembleText "CFG_WRITE exp=7, sel=B" = some [.cfgWrite 7#3 .formulaB] := by decide +kernel

/-! ### Witnesses: concrete states and operands that meet the hypotheses of each statement -/

theorem witness_EncodeOfDecode : decode ⟨0x3000007F#32, 5#64⟩ = .ok (.rainObserve 127#7) := by rfl

theorem witness_EncodeOfDecode_frame : decode ⟨0x01000000#32, 5#64⟩ = .ok (.crcCompute 5#64) ∧
    (Instr.crcCompute 5#64).usesFrame = true := by
  exact ⟨by rfl, by decide⟩

theorem witness_DecodeOfEncode : Instr.usesFrame (.windObserve 65535#16) = false := by decide

theorem witness_LegalWordsAreTableRows : ∃ r ∈ opcodeRows, 0x6000000F#32 &&& r.mask = r.mtch := by decide

theorem witness_DecodeChecksInOrder_opcode : argMask ((0x00FF0001#32).extractLsb' 24 8) = none := by decide

theorem witness_DecodeChecksInOrder_reserved : argMask ((0x02FF0001#32).extractLsb' 24 8) = some 0#16 ∧
    (0x02FF0001#32).extractLsb' 16 8 ≠ 0#8 := by decide

theorem witness_DecodeChecksInOrder_argument : argMask ((0x30000080#32).extractLsb' 24 8) = some 0x7F#16 ∧
    (0x30000080#32).extractLsb' 16 8 = 0#8 ∧ (0x30000080#32).extractLsb' 0 16 &&& ~~~0x7F#16 ≠ 0#16 := by decide

theorem witness_DecodeChecksInOrder_ok : argMask ((0x3000007F#32).extractLsb' 24 8) = some 0x7F#16 ∧
    (0x3000007F#32).extractLsb' 16 8 = 0#8 ∧ (0x3000007F#32).extractLsb' 0 16 &&& ~~~0x7F#16 = 0#16 := by decide

theorem witness_DecodeChecksInOrder_error : decode ⟨0x30000080#32, 0#64⟩ = .error .argOutsideMask := by rfl

theorem witness_AssemblerLines : assemble (.windObserveDeg 409) = some [.windObserve 65440#16] ∧
    assemble (.windObserveCode 255) = some [.windObserve 57423#16] ∧
    assemble (.setStationB 8) = some [.cfgWrite 7#3 .formulaB] ∧
    assembleWords (.rainObserve 127) = some [⟨0x3000007F#32, 0#64⟩] ∧
    assembleWords (.windObserve 65535) = some [⟨0x4000FFFF#32, 0#64⟩] ∧
    ("DEC_UV", 0x29000000#32) ∈ frameMnemonics := by decide

/-- A state in which a command is executing. -/
def busy (w : CmdWord) (f : Frame) : State := placeCommand ⟨w, f⟩ State.reset

/-- A state whose next input sample is given. -/
def sampled (p : PortSample) : State := { State.reset with inputs := [p] }

theorem witness_StepRunsDecodedCommand : (busy 0x31000000#32 0#64).executing = some ⟨0x31000000#32, 0#64⟩ ∧
    ((busy 0x31000000#32 0#64).inputs.headD PortSample.idle).rst = false ∧
    decode ⟨0x31000000#32, 0#64⟩ = .ok .rainStatus := by
  exact ⟨by decide, by decide, by rfl⟩

theorem witness_FetchedWordRuns : decodeTableWord 96 0x8005642BC000043750000000 = some (.frameProcess 0x8005642BC0000437#64) := by
  decide

theorem witness_IllegalCommandAnswer : (busy 0x00000000#32 0#64).executing = some ⟨0x00000000#32, 0#64⟩ ∧
    ((busy 0x00000000#32 0#64).inputs.headD PortSample.idle).rst = false ∧
    (Command.mk 0x00000000#32 0#64).wellFormed = false := by decide

theorem witness_ResetFromAnyState :
    ({ busy 0x50000000#32 0x8005642BC0000437#64 with inputs := [⟨true, false, ⟨0#32, 0#64⟩, false⟩] }.inputs.headD
      PortSample.idle).rst = true := by decide

theorem witness_PortsHandshake_offered : cmdReady (sampled ⟨false, true, ⟨0x31000000#32, 0#64⟩, false⟩) = true ∧
    ((sampled ⟨false, true, ⟨0x31000000#32, 0#64⟩, false⟩).inputs.headD PortSample.idle).cmdValid = true ∧
    ((sampled ⟨false, true, ⟨0x31000000#32, 0#64⟩, false⟩).inputs.headD PortSample.idle).rst = false := by decide

theorem witness_PortsHandshake_idle : cmdReady State.reset = true ∧
    (State.reset.inputs.headD PortSample.idle).cmdValid = false := by decide

theorem witness_PortsHandshake_taken :
    let s := { sampled ⟨false, false, ⟨0#32, 0#64⟩, true⟩ with rspValid := true }
    s.executing = none ∧ s.rspValid = true ∧ (s.inputs.headD PortSample.idle).rspReady = true := by decide

theorem witness_PortsHandshake_waiting :
    let s := { State.reset with rspValid := true }
    s.executing = none ∧ s.rspValid = true ∧ (s.inputs.headD PortSample.idle).rspReady = false := by decide

theorem witness_CommandExchange :
    let q : PortSample := ⟨false, false, ⟨0#32, 0#64⟩, true⟩
    let s := { State.reset with inputs := [⟨false, true, encode .cfgRead, false⟩, PortSample.idle, q] }
    s.executing = none ∧ s.rspValid = false ∧ PortSample.idle.rst = false ∧ q.rst = false ∧ q.rspReady = true ∧
      ∃ t, exec .cfgRead { s with inputs := [] } = .next t := by
  exact ⟨by decide, by decide, by decide, by decide, by decide, _, rfl⟩

theorem witness_EveryStepAnswers : (busy 0#32 0#64).executing.isSome = true ∧
    ((busy 0#32 0#64).inputs.headD PortSample.idle).rst = false := by decide

theorem witness_InvariantKept : Inv (busy 0x30000032#32 0#64) ∧ ∃ t, step (busy 0x30000032#32 0#64) = .next t := by
  exact ⟨by decide, _, rfl⟩

theorem witness_SingleBitFlipRejected : frameValid 0x8005642BC0000437#64 = true := by decide +kernel

theorem witness_RangeCheckOnRaw : byteNat 0x8005642BC0000437#64 3 ≠ 255 ∧ byteNat 0x600000FF0000907B#64 3 = 255 := by
  decide

theorem witness_HeadingWordExact : (1#8 : Byte) ≠ 0#8 ∧ (headingWord 1#8).toNat = 273 ∧
    (headingWord 255#8).toNat = 57423 := by decide

theorem witness_RainRepeatIsNoOp : (withRain 50#7).rain.primed = true ∧ 50#7 = (withRain 50#7).rain.baseline ∧
    ∃ t, exec (.rainObserve 50#7) (withRain 50#7) = .next t := by
  exact ⟨by decide, by decide, _, rfl⟩

theorem witness_RainTipsModulo128 : (withRain 127#7).rain.primed = true ∧ 0#7 ≠ (withRain 127#7).rain.baseline ∧
    (rainObserve 0#7 (withRain 127#7).rain).2.1 = 1#7 ∧ State.reset.rain.primed = false := by decide

theorem witness_WarmUpThirtySamples : (withWin (List.replicate 29 0#16)).win.length ≤ 30 ∧
    (withWin (List.replicate 30 0#16)).win.length ≤ 30 ∧
    (∃ t, exec (.windObserve 0#16) (withWin (List.replicate 29 0#16)) = .next t ∧ t.win.length = 30) ∧
    ∃ t, exec (.frameProcess 0x8005642BC0000437#64) State.reset = .next t ∧ t.response.reached.getLsbD 2 = true := by
  refine ⟨by decide, by decide, ⟨_, rfl, by decide⟩, (nextState (exec (.frameProcess 0x8005642BC0000437#64) State.reset)).getD
    State.reset, eq_next (by decide +kernel), by decide +kernel⟩

theorem witness_IdenticalHeadingsMean :
    (withWin (List.replicate 30 14448#16)).params = WindParams.default ∧ (14448#16).toNat % 160 ≠ 80 := by decide

theorem witness_SymmetricHeadingsMean :
    let s := withWin (56000#16 :: (List.replicate 15 1600#16 ++ List.replicate 14 56000#16))
    s.params = WindParams.default ∧ s.win.length = 30 ∧
      (s.win.drop 1 ++ [56000#16]).Perm (List.replicate 15 1600#16 ++ List.replicate 15 56000#16) := by
  exact ⟨by decide, by decide, by decide⟩

theorem witness_EquallySpacedHeadingsDraw :
    ((List.range 30).map fun k => BitVec.ofNat 16 (1920 * k) : List HeadingWord).length = 30 := by decide

theorem witness_ParametersOnlyAdmitMore :
    let p := WindParams.default
    let q : WindParams := ⟨⟨1, 100, by decide⟩, ⟨1, 2, by decide⟩⟩
    p.eps.num * q.eps.den ≤ q.eps.num * p.eps.den ∧ p.rmin.num * q.rmin.den ≤ q.rmin.num * p.rmin.den := by decide

theorem witness_ParametersOnlyAdmitMore_mean :
    90 ∈ meanChoices WindParams.default (List.replicate 30 14448#16) := by decide +kernel

theorem witness_HeadingsPastFullTurn : 57600 ≤ (57600#16).toNat ∧ 57600 ≤ (65535#16).toNat := by decide

theorem witness_RingBufferRefinesWindow : ringWf (ringReset (Vector.replicate 30 0#16)) = true ∧
    ringWf ⟨Vector.replicate 30 0#16, 29, 30⟩ = true := by decide

theorem witness_WholeFrameGates_checksum : ¬ ChecksumPasses 0x800564820000316F#64 ∧ ¬ ChecksumPasses 0#64 := by decide +kernel

theorem witness_WholeFrameGates_station : ChecksumPasses 0x8105642BC0004197#64 ∧
    ¬ StationPasses 0x8105642BC0004197#64 State.reset := by decide +kernel

theorem witness_WindSpeedGate : ChecksumPasses 0x80FA642BC0005E98#64 ∧ StationPasses 0x80FA642BC0005E98#64 State.reset ∧
    240 < byteNat 0x80FA642BC0005E98#64 1 := by decide +kernel

theorem witness_ReachesWind_bound : ReachesWind 0x80F0FF2BC000C0B6#64 State.reset ∧
    byteNat 0x80F0FF2BC000C0B6#64 1 = 240 := by decide +kernel

theorem witness_UnrecognizedNibbleFrame : ReachesWind 0x3005640000009FF8#64 State.reset ∧ nibble 0x3005640000009FF8#64 ∉ knownNibbles := by
  decide +kernel

theorem witness_PayloadRejectedFrame : ReachesWind 0x800564820000316E#64 State.reset ∧
    dispatchedCommand 0x800564820000316E#64 State.reset = some (.decTemperature 0x800564820000316E#64) ∧
    exec (.decTemperature 0x800564820000316E#64) State.reset = .next
      { State.reset with rsp := packResponse { status := 2#4, value := 2080#32 }, rspValid := true } ∧
    (2#4 : BitVec 4) ≠ 0#4 := by
  exact ⟨by decide +kernel, by decide +kernel, eq_next (by decide +kernel), by decide⟩

theorem witness_PayloadAppliedFrame : ReachesWind 0x8005642BC0000437#64 State.reset ∧
    dispatchedCommand 0x8005642BC0000437#64 State.reset = some (.decTemperature 0x8005642BC0000437#64) ∧
    exec (.decTemperature 0x8005642BC0000437#64) State.reset = .next
      { State.reset with rsp := packResponse { value := 700#32 }, rspValid := true } ∧
    nibble 0x8005642BC0000437#64 ≠ 0xE := by
  exact ⟨by decide +kernel, by decide +kernel, eq_next (by decide +kernel), by decide +kernel⟩

theorem witness_RainCounterFrame : ReachesWind 0xE0000033000017CD#64 State.reset ∧ nibble 0xE0000033000017CD#64 = 0xE := by decide +kernel

theorem witness_CausePriority : ∃ t u, exec (.frameProcess 0x800564820000316E#64) State.reset = .next t ∧
    dispatchedCommand 0x800564820000316E#64 State.reset = some (.decTemperature 0x800564820000316E#64) ∧
    exec (.decTemperature 0x800564820000316E#64) State.reset = .next u := by
  exact ⟨(nextState (exec (.frameProcess 0x800564820000316E#64) State.reset)).getD State.reset, _, eq_next (by decide +kernel),
    by decide +kernel, execField_eq .temperature _ _⟩

theorem witness_RepeatedFrame :
    let t := (nextState (exec (.frameProcess 0xE0000033000017CD#64) State.reset)).getD State.reset
    let u := (nextState (exec (.frameProcess 0xE0000033000017CD#64) t)).getD t
    exec (.frameProcess 0xE0000033000017CD#64) State.reset = .next t ∧ exec (.frameProcess 0xE0000033000017CD#64) t = .next u ∧
      ReachesWind 0xE0000033000017CD#64 State.reset ∧ ¬ ReachesWind 0x80FA642BC0005E98#64 State.reset := by
  exact ⟨eq_next (by decide +kernel), eq_next (by decide +kernel), by decide +kernel, by decide +kernel⟩

theorem witness_CfgWritersAndReaders : ∃ t, exec (.cfgWrite 7#3 .formulaB) State.reset = .next t ∧
    t.cfg = 0x000F#16 := by
  exact ⟨_, rfl, by decide⟩

theorem witness_CfgWritersAndReaders_other : ∃ t, exec (.rainObserve 1#7) State.reset = .next t ∧
    t.cfg = State.reset.cfg := by
  exact ⟨_, rfl, by decide⟩

theorem witness_RainWriters : ∃ t, exec (.rainObserve 5#7) State.reset = .next t ∧ t.rain ≠ State.reset.rain := by
  exact ⟨_, rfl, by decide⟩

theorem witness_RainWriters_frame :
    let t := (nextState (exec (.frameProcess 0xE0000033000017CD#64) (withRain 50#7))).getD State.reset
    exec (.frameProcess 0xE0000033000017CD#64) (withRain 50#7) = .next t ∧ t.rain ≠ (withRain 50#7).rain ∧
      (withRain 50#7).rain.primed = true := by
  exact ⟨eq_next (by decide +kernel), by decide +kernel, by decide⟩

theorem witness_WinWriters :
    let t := (nextState (exec (.frameProcess 0x3005640000009FF8#64) State.reset)).getD State.reset
    exec (.frameProcess 0x3005640000009FF8#64) State.reset = .next t ∧ ReachesWind 0x3005640000009FF8#64 State.reset ∧ t.win = [22548#16] := by
  exact ⟨eq_next (by decide +kernel), by decide +kernel, by decide +kernel⟩

theorem witness_ReissuedCommand : ∃ t, exec .windStatus State.reset = .next t ∧ writesNothing .windStatus = true := by
  exact ⟨_, rfl, by decide⟩

theorem witness_FailureKeepsState : ∃ t, exec (.windObserve 0#16) State.reset = .next t ∧
    t.response.status ≠ 0#4 ∧ t.win ≠ State.reset.win := by
  exact ⟨_, rfl, by decide, by decide⟩

theorem witness_FailureKeepsState_frame :
    let t := (nextState (exec (.frameProcess 0x800564820000316E#64) State.reset)).getD State.reset
    exec (.frameProcess 0x800564820000316E#64) State.reset = .next t ∧ t.response.status ≠ 0#4 ∧ t.win ≠ State.reset.win := by
  exact ⟨eq_next (by decide +kernel), by decide +kernel, by decide +kernel⟩

theorem witness_StatusesPerCommand : ∃ t, exec (.crcCheck 0#64) State.reset = .next t ∧
    t.response.status.toNat = 3 := by
  exact ⟨(nextState (exec (.crcCheck 0#64) State.reset)).getD State.reset, eq_next (by decide +kernel),
    by decide +kernel⟩

theorem witness_ResponseRegisterNotRead : ∃ t, exec .cfgRead State.reset = .next t := by
  exact ⟨_, rfl⟩

theorem witness_AssemblerText : "DEC_UV" ∈ frameMnemonics.map Prod.fst ∧
    assembleText (lineText (.frameCommand "DEC_UV" none)) = some [.decUv 0#64] ∧
    assembleText (lineText (.rainObserve 128)) = none := by decide +kernel

theorem witness_WindObserveResult : 30 ≤ (withWin (List.replicate 30 80#16)).win.length ∧
    ∃ t, exec (.windObserve 80#16) (withWin (List.replicate 30 80#16)) = .next t := by
  obtain ⟨_, _, _, _, _, h, -⟩ := exec_effect (.windObserve 80#16) (withWin (List.replicate 30 80#16))
  exact ⟨by decide, _, h⟩

/-- 44_wind_averager.md R187: thirty samples of half a degree are an exact tie. -/
theorem witness_WindObserveResult_tie :
    toleranceValue WindParams.default.rmin < resultant (List.replicate 30 80#16) ∧
    meanDegrees (List.replicate 30 80#16) = ((0 : ℕ) : ℝ) + 1 / 2 := by
  have hp := Real.pi_pos
  have ha : headingAngle 80#16 = Real.pi / 360 := by
    rw [headingAngle, show (80#16 : HeadingWord).toNat = 80 from rfl]
    push_cast
    ring
  have hS : sumSin (List.replicate 30 80#16) = 30 * Real.sin (Real.pi / 360) := by
    rw [sumSin, List.map_replicate, List.sum_replicate, nsmul_eq_mul, ha]
    norm_num
  have hC : sumCos (List.replicate 30 80#16) = 30 * Real.cos (Real.pi / 360) := by
    rw [sumCos, List.map_replicate, List.sum_replicate, nsmul_eq_mul, ha]
    norm_num
  have hz : (⟨30 * Real.cos (Real.pi / 360), 30 * Real.sin (Real.pi / 360)⟩ : ℂ) =
      ((30 : ℝ) : ℂ) * (Complex.cos ((Real.pi / 360 : ℝ) : ℂ) + Complex.sin ((Real.pi / 360 : ℝ) : ℂ) * Complex.I) := by
    rw [← Complex.ofReal_cos, ← Complex.ofReal_sin]
    apply Complex.ext <;>
      simp only [Complex.re_ofReal_mul, Complex.im_ofReal_mul, Complex.add_re, Complex.add_im,
        Complex.ofReal_re, Complex.ofReal_im, Complex.I_re, Complex.I_im, mul_zero, mul_one,
        zero_add, add_zero]
  constructor
  · rw [resultant, hS, hC, show (30 * Real.sin (Real.pi / 360)) ^ 2 + (30 * Real.cos (Real.pi / 360)) ^ 2 = 30 ^ 2 by
      linear_combination 900 * Real.sin_sq_add_cos_sq (Real.pi / 360), Real.sqrt_sq (by norm_num)]
    simp [toleranceValue, WindParams.default, Tolerance.zero]
  · have ht : meanTheta (List.replicate 30 80#16) = 1 / 2 := by
      rw [meanTheta, hS, hC, hz, Complex.arg_mul_cos_add_sin_mul_I (by norm_num) ⟨by linarith, by linarith⟩]
      field_simp
      norm_num
    rw [meanDegrees, ht, if_neg (by norm_num)]
    norm_num

end Sys2Proof.Machine.Tests
end

