-- ==== Sys2Proof/Proofs/Step.lean ====
section
/-! PROOFS. Proofs/Step.lean: that every step answers (spec 00_scope.md R4; 60_exceptions.md R234). -/

namespace Sys2Proof.Machine

/-- Settles O16, one kind of step at a time: a reset, a commit, and the two steps in which no command executes. -/
theorem everyStepAnswers : Obligations.EveryStepAnswers := by
  intro s
  obtain ⟨hr, h⟩ | ⟨-, c, -, h⟩ | ⟨-, he, -, h⟩ | ⟨-, he, -, h⟩ := step_cases s
  case inl => exact ⟨_, h, rfl, fun _ hl => absurd (hr.symm.trans hl) (by decide)⟩
  case inr.inl =>
    obtain ⟨r, cfg, rain, win, draws, hc, -⟩ := commitCommand_effect c (dropSample s)
    exact ⟨_, h.trans hc, rfl, fun _ _ => ⟨rfl, rfl⟩⟩
  case inr.inr.inl => exact ⟨_, h, by split_ifs <;> rfl, fun hx => absurd hx (by simp [he])⟩
  case inr.inr.inr => exact ⟨_, h, by split_ifs <;> rfl, fun hx => absurd hx (by simp [he])⟩

end Sys2Proof.Machine
end

