-- ==== Sys2Proof/Proofs/Draws.lean ====
section
/-! PROOFS. Proofs/Draws.lean: the heading a draw takes (spec 00_scope.md R8), and what WIND_OBSERVE leaves and answers
(44_wind_averager.md R182 to R187). -/

namespace Sys2Proof.Machine

open Sys2Proof.Laws

/-- R8: the members of a set are what its draws take. -/
theorem mem_iff_exists_drawFrom {xs : List ℕ} (h : xs ≠ []) {n : ℕ} : n ∈ xs ↔ ∃ free, drawFrom xs free = n := by
  constructor
  · intro hn
    obtain ⟨i, hi, rfl⟩ := List.getElem_of_mem hn
    exact ⟨i, by rw [drawFrom, Nat.mod_eq_of_lt hi, List.getD_eq_getElem _ _ hi]⟩
  · rintro ⟨free, rfl⟩
    exact drawFrom_mem h free

@[simp] theorem drawFrom_singleton (n free : ℕ) : drawFrom [n] free = n := by
  simp [drawFrom, Nat.mod_one]

/-- R8, R186: the mean is the listed heading that the free value picks, also where only one is listed. -/
theorem windMean_fst (p : WindParams) (w : List HeadingWord) (d : ℕ) :
    (windMean p w d).1 = drawFrom (meanChoices p w) (Config.freeDraw d) := by
  unfold windMean
  split
  · next n h => rw [h, drawFrom_singleton]
  · rfl

/-- R182 to R187: what WIND_OBSERVE leaves and answers, in the words of the real-number rule. -/
theorem execWindObserve_windStep (h : HeadingWord) (s : State) : ∃ w a d, WindStep h s w a d ∧
    execWindObserve h s = .next
      { s with
        win := w, draws := d
        rsp := packResponse
          { status := if a = none then 6#4 else 0#4, value := num32 (a.getD 0), aux := num32 w.length
            flags := if w.length = 30 then 0x40#8 else 0#8 }
        rspValid := true } := by
  obtain ⟨w, a, d, -, hd, hw, ha, he⟩ := windObserve_effect h s
  refine ⟨w, a, d, ?_, he⟩
  unfold WindStep
  split_ifs at hw ha ⊢
  · exact ⟨hw, ha⟩
  · obtain ⟨n, hn, rfl⟩ := ha
    exact ⟨hw, ⟨n, rfl, meanChoices_lt hn, (mem_meanChoices_iff _ _ _).mp hn⟩, hd⟩

/-- R8, R186, R187: on a full window WIND_OBSERVE answers the heading that the free value picks for the new window. -/
theorem execWindObserve_value {h : HeadingWord} {s t : State} (hl : 30 ≤ s.win.length)
    (he : execWindObserve h s = .next t) :
    t.response.value = num32 (drawFrom (meanChoices s.params t.win) (Config.freeDraw s.draws)) := by
  obtain ⟨w, a, d, ho, -, -, -, hx⟩ := windObserve_effect h s
  rw [windObserve_of_ge hl] at ho
  obtain ⟨hs, rfl⟩ := Prod.mk.inj ho
  obtain rfl : s.win.drop 1 ++ [h] = w := congrArg State.win hs
  obtain rfl := Host.Outcome.next.inj (he.symm.trans hx)
  simp [State.response, windMean_fst]

/-- R186: at an exact tie both neighbours are admitted, whatever WIND_EPS is. -/
theorem mem_meanChoices_of_tie {p : WindParams} {w : List HeadingWord} {k : ℕ}
    (hr : toleranceValue p.rmin < resultant w) (hd : meanDegrees w = (k : ℝ) + 1 / 2) :
    k ∈ meanChoices p w ∧ (k + 1) % 360 ∈ meanChoices p w := by
  have hnear : nearTie p w k := by
    rw [nearTie, hd, Int.cast_natCast, sub_self, abs_zero, toleranceValue]
    positivity
  have hk : k < 360 := by
    have := (meanDegrees_mem w).2
    exact_mod_cast (by linarith : (k : ℝ) < 360)
  rw [mem_meanChoices_iff, mem_meanChoices_iff]
  exact ⟨.inr (.inl ⟨hr, k, hnear, .inl (by omega)⟩), .inr (.inl ⟨hr, k, hnear, .inr (by omega)⟩)⟩

/-- Settles O37: the next state from what an observation leaves, and the headings from the list of those admitted. -/
theorem windObserveResult : Obligations.WindObserveResult :=
  ⟨fun _ _ hw => decode_of_matches (opc := 0x40#8) (m := 0xFFFF#16) rfl hw rfl,
    execWindObserve_windStep,
    fun _ _ _ => execWindObserve_value,
    fun p w n => ⟨mem_meanChoices_iff p w n,
      (mem_meanChoices_iff p w n).symm.trans (mem_iff_exists_drawFrom (meanChoices_ne_nil p w))⟩,
    fun _ _ _ => mem_meanChoices_of_tie⟩

end Sys2Proof.Machine
end

