-- ==== Sys2Proof/Proofs/Parameters.lean ====
section
/-! PROOFS. Proofs/Parameters.lean: the open parameters (spec 00_scope.md R4) and the headings that
44_wind_averager.md R186 admits under them. -/

namespace Sys2Proof.Machine

open Sys2Proof.Laws

/-- R4: the order of two values of an open parameter, on their fractions. -/
theorem toleranceValue_le_iff (t u : Tolerance) :
    toleranceValue t ≤ toleranceValue u ↔ t.num * u.den ≤ u.num * t.den := by
  have ht : (0 : ℝ) < t.den := by exact_mod_cast t.den_pos
  have hu : (0 : ℝ) < u.den := by exact_mod_cast u.den_pos
  rw [toleranceValue, toleranceValue, div_le_div_iff₀ ht hu]
  exact_mod_cast Iff.rfl

/-- Of all half degrees, the one above the floor of x is nearest to x. -/
theorem abs_sub_floor_add_half_le (x : ℝ) (k : ℤ) : |x - (⌊x⌋ + 1 / 2)| ≤ |x - (k + 1 / 2)| := by
  have h1 := Int.floor_le x
  have h2 := Int.lt_floor_add_one x
  obtain hk | rfl | hk := lt_trichotomy k ⌊x⌋
  · have : (k : ℝ) + 1 ≤ ⌊x⌋ := by exact_mod_cast hk
    exact (abs_le.mpr ⟨by linarith, by linarith⟩).trans (le_abs_self _)
  · exact le_rfl
  · have : (⌊x⌋ : ℝ) + 1 ≤ k := by exact_mod_cast hk
    exact (abs_le.mpr ⟨by linarith, by linarith⟩).trans (neg_le_abs _)

theorem round_eq_floor_or_succ (x : ℝ) : round x = ⌊x⌋ ∨ round x = ⌊x⌋ + 1 := by
  have h1 : ⌊x⌋ ≤ round x := by rw [round_eq]; exact Int.floor_mono (by linarith)
  have h2 : round x ≤ ⌊x⌋ + 1 := by
    rw [round_eq, ← Int.floor_add_one]
    exact Int.floor_mono (by linarith)
  omega

/-- R186: where any band contains d, the bands admit the rounded heading too. -/
theorem nearTie_floor {p : WindParams} {w : List HeadingWord} {k : ℤ} (h : nearTie p w k) :
    nearTie p w ⌊meanDegrees w⌋ :=
  (abs_sub_floor_add_half_le _ k).trans h

/-- R4, R186: larger parameters admit what smaller ones do. A resultant that is no longer above WIND_RMIN admits every
heading; a band that still contains d admits the same two; and a band that newly contains d admits the rounding. -/
theorem meanAdmits_mono {p q : WindParams} {w : List HeadingWord} {n : ℕ}
    (he : toleranceValue p.eps ≤ toleranceValue q.eps) (hr : toleranceValue p.rmin ≤ toleranceValue q.rmin)
    (h : meanAdmits p w n) : meanAdmits q w n := by
  obtain hq | hq := le_or_gt (resultant w) (toleranceValue q.rmin)
  · exact .inl ⟨hq, meanChoices_lt ((mem_meanChoices_iff p w n).mpr h)⟩
  obtain ⟨hp, -⟩ | ⟨-, k, hk, hn⟩ | ⟨-, -, hn⟩ := h
  · exact absurd (hp.trans hr) (not_le.mpr hq)
  · exact .inr (.inl ⟨hq, k, hk.trans he, hn⟩)
  · by_cases hno : ∀ k : ℤ, ¬ nearTie q w k
    · exact .inr (.inr ⟨hq, hno, hn⟩)
    · obtain ⟨k, hk⟩ := not_forall_not.mp hno
      refine .inr (.inl ⟨hq, _, nearTie_floor hk, ?_⟩)
      exact (round_eq_floor_or_succ (meanDegrees w)).imp (fun e => by rwa [e] at hn) (fun e => by rwa [e] at hn)

/-- Settles O42: the listed headings are those the rule admits, and the rule admits more under larger parameters. -/
theorem parametersOnlyAdmitMore : Obligations.ParametersOnlyAdmitMore := by
  intro p q w he hr n hn
  rw [mem_meanChoices_iff] at hn ⊢
  exact meanAdmits_mono ((toleranceValue_le_iff _ _).mpr he) ((toleranceValue_le_iff _ _).mpr hr) hn

end Sys2Proof.Machine
end

