-- ==== Sys2Proof/Proofs/Invariant.lean ====
section
/-! PROOFS. Proofs/Invariant.lean: the invariant of Safety.lean holds at reset and every step keeps it, one update of
the state at a time (spec 10_state.md R22, R26, R32; 30_encoding.md R74). -/

namespace Sys2Proof.Machine

section

variable {s t : State}

/-- R32, R260: the block right after a reset holds nothing that the invariant bounds. -/
theorem inv_resetBlock (s : State) : Inv (resetBlock s) :=
  ⟨Nat.zero_le _, by simp, fun _ => rfl, nofun, nofun⟩

/-- R31: a commit ends the command with a legal response, and what it writes to CFG, RAIN and WIN stays in bounds. -/
theorem inv_of_commitCommand {c : Command} (h : Inv s) (hs : commitCommand c s = .next t) : Inv t := by
  obtain ⟨hwin, hcfg, hrain, -, -⟩ := h
  obtain ⟨r, cfg, rain, win, draws, hc, hlegal, hwin', hcfg', hrain'⟩ := commitCommand_effect c s
  obtain rfl := Host.Outcome.next.inj (hs.symm.trans hc)
  refine ⟨(hwin' hwin).2, ?_, ?_, nofun, fun _ => legal_pack hlegal⟩
  · exact hcfg'.elim (fun e => e ▸ hcfg) id
  · exact hrain'.elim (fun e => e ▸ hrain) fun hp hu => absurd (hp.symm.trans hu) (by decide)

/-- R29, R74: a response taken is no longer pending. -/
theorem inv_takeResponse (h : Inv s) : Inv (takeResponse s) :=
  let ⟨hwin, hcfg, hrain, _, _⟩ := h
  ⟨hwin, hcfg, hrain, fun _ => rfl, nofun⟩

/-- R74: a command is accepted only while no response is pending. -/
theorem inv_acceptCommand {c : Command} (hv : s.rspValid = false) (h : Inv s) : Inv (acceptCommand c s) :=
  let ⟨hwin, hcfg, hrain, _, hrsp⟩ := h
  ⟨hwin, hcfg, hrain, fun _ => hv, hrsp⟩

end

/-- Settles O19, one kind of step at a time: a reset, a commit, and the two steps in which no command executes. -/
theorem invariantKept : Obligations.InvariantKept := by
  intro s t h hs
  have hd : Inv (dropSample s) := h
  obtain ⟨-, e⟩ | ⟨-, c, -, e⟩ | ⟨-, -, -, e⟩ | ⟨-, -, hv, e⟩ := step_cases s
  case inr.inl => exact inv_of_commitCommand hd (e.symm.trans hs)
  all_goals obtain rfl := Host.Outcome.next.inj (hs.symm.trans e)
  · exact inv_resetBlock _
  · split_ifs
    · exact inv_takeResponse hd
    · exact hd
  · split_ifs
    · exact inv_acceptCommand hv hd
    · exact hd

/-- Settles O18: the reset state is what a reset leaves of itself. -/
theorem invariantAtReset : Obligations.InvariantAtReset := inv_resetBlock State.reset

/-- Settles O13, field by field. -/
theorem resetState : Obligations.ResetState := ⟨rfl, rfl, rfl, rfl, rfl, rfl, rfl⟩

end Sys2Proof.Machine
end

