-- ==== Sys2Proof/Proofs/Ring.lean ====
section
/-! PROOFS. Proofs/Ring.lean: the ring buffer (spec 10_state.md R27): its logical view, and what an append does
to it. -/

namespace Sys2Proof.Machine

/-- The first k + 1 places after a write to place k. -/
theorem take_succ_set {α : Type*} {l : List α} {k : ℕ} (hk : k < l.length) (x : α) :
    (l.set k x).take (k + 1) = l.take k ++ [x] := by
  rw [List.take_succ_eq_append_getElem (by simpa using hk), List.take_set_of_le le_rfl, List.getElem_set_self]

theorem rotate_mod_of_length {α : Type*} {l : List α} {n : ℕ} (h : l.length = n) (k : ℕ) :
    l.rotate (k % n) = l.rotate k := by
  rw [← h, List.rotate_mod]

/-- R27: while the head is 0 the view is the first `fill` places, also once that is all of them. -/
theorem ringLogical_of_head_eq_zero {r : RingWindow} (h : r.head.val = 0) :
    ringLogical r = r.buf.toList.take r.fill.val := by
  unfold ringLogical
  split_ifs with hf
  · rfl
  · rw [h, List.drop_zero, List.take_zero, List.append_nil, List.take_of_length_le (by simp; omega)]

/-- R27: once the buffer is full the view is the storage turned so that it starts at the head. -/
theorem ringLogical_of_full {r : RingWindow} (hf : ¬ r.fill.val < 30) :
    ringLogical r = r.buf.toList.rotate r.head.val := by
  rw [ringLogical, if_neg hf, List.rotate_eq_drop_append_take (by simp)]

theorem ringAppend_of_lt {r : RingWindow} (hf : r.fill.val < 30) (h : HeadingWord) :
    ringAppend h r = ⟨r.buf.set r.fill.val h hf, r.head, ⟨r.fill.val + 1, by omega⟩⟩ := dif_pos hf

theorem ringAppend_of_full {r : RingWindow} (hf : ¬ r.fill.val < 30) (h : HeadingWord) :
    ringAppend h r = ⟨r.buf.set r.head.val h r.head.isLt, ⟨(r.head.val + 1) % 30, Nat.mod_lt _ (by omega)⟩, r.fill⟩ :=
  dif_neg hf

theorem ringWf_iff (r : RingWindow) : ringWf r = true ↔ r.fill.val = 30 ∨ r.head.val = 0 := by
  simp [ringWf]

theorem ringLogical_length (r : RingWindow) : (ringLogical r).length = r.fill.val := by
  have := r.fill.isLt
  by_cases hf : r.fill.val < 30
  · rw [ringLogical, if_pos hf, List.length_take, Vector.length_toList, Nat.min_eq_left hf.le]
  · rw [ringLogical_of_full hf, List.length_rotate, Vector.length_toList]
    omega

/-- R27: the head moves only by an append to a full buffer, which stays full. -/
theorem ringWf_ringAppend {r : RingWindow} (hw : ringWf r = true) (h : HeadingWord) :
    ringWf (ringAppend h r) = true := by
  have := r.fill.isLt
  rw [ringWf_iff] at hw ⊢
  by_cases hf : r.fill.val < 30
  · rw [ringAppend_of_lt hf]
    exact .inr (hw.resolve_left (by omega))
  · rw [ringAppend_of_full hf]
    exact .inl (show r.fill.val = 30 by omega)

/-- R27: an append to a buffer that is not full adds at the end. -/
theorem ringLogical_append_of_lt {r : RingWindow} (hw : ringWf r = true) (hf : r.fill.val < 30) (h : HeadingWord) :
    ringLogical (ringAppend h r) = ringLogical r ++ [h] := by
  have h0 : r.head.val = 0 := ((ringWf_iff r).mp hw).resolve_left (by omega)
  have h1 : (ringAppend h r).head.val = 0 := by rw [ringAppend_of_lt hf]; exact h0
  rw [ringLogical_of_head_eq_zero h0, ringLogical_of_head_eq_zero h1, ringAppend_of_lt hf, Vector.toList_set]
  exact take_succ_set (by simpa using hf) h

/-- R27: an append to a full buffer overwrites the oldest sample and ends the view with the new one. -/
theorem ringLogical_append_of_full {r : RingWindow} (hf : ¬ r.fill.val < 30) (h : HeadingWord) :
    ringLogical (ringAppend h r) = (ringLogical r).drop 1 ++ [h] := by
  have hk : r.head.val < r.buf.toList.length := by simp
  rw [ringLogical_of_full hf, ringAppend_of_full hf,
    ringLogical_of_full (r := ⟨_, ⟨(r.head.val + 1) % 30, _⟩, r.fill⟩) hf, Vector.toList_set,
    rotate_mod_of_length (by simp), List.rotate_eq_drop_append_take (by simp),
    List.rotate_eq_drop_append_take hk.le, List.drop_set_of_lt (Nat.lt_succ_self _), take_succ_set hk,
    List.drop_append_of_le_length (by simp; omega), List.drop_drop, List.append_assoc]

/-- Settles O44: the view at reset, its length, and an append before and after the buffer is full. -/
theorem ringBufferRefinesWindow : Obligations.RingBufferRefinesWindow := by
  refine ⟨fun b => ⟨rfl, rfl⟩, fun r h hw => ⟨ringWf_ringAppend hw h, ringLogical_length r, ?_⟩⟩
  split_ifs with hf
  · exact ringLogical_append_of_lt hw hf h
  · exact ringLogical_append_of_full hf h

end Sys2Proof.Machine
end

