-- ==== Sys2Proof/Proofs/Commands.lean ====
section
/-! PROOFS. Proofs/Commands.lean: what a command reads and what it writes (spec 10_state.md R22 to R28; 30_encoding.md
R62). -/

namespace Sys2Proof.Machine

/-- R62: the commands that write state are four. -/
theorem writesNothing_or_writer (i : Instr) : writesNothing i = true ∨ (∃ c, i = .rainObserve c) ∨
    (∃ h, i = .windObserve h) ∨ (∃ f, i = .frameProcess f) ∨ ∃ e sel, i = .cfgWrite e sel := by
  cases i <;> simp [writesNothing]

/-- The command leaves its answer and nothing else, and makes it of CFG, RAIN and WIN, and of CFG only if it is
CFG_READ. -/
def AnswersOnly (i : Instr) : Prop :=
  ∃ answer : BitVec 16 → RainState → List HeadingWord → Response,
    (∀ s, exec i s = .next { s with rsp := packResponse (answer s.cfg s.rain s.win), rspValid := true }) ∧
    (i ≠ .cfgRead → ∀ c d r w, answer c r w = answer d r w)

theorem answersOnly_of_const {i : Instr} (r : Response)
    (h : ∀ s, exec i s = .next { s with rsp := packResponse r, rspValid := true }) : AnswersOnly i :=
  ⟨fun _ _ _ => r, h, fun _ _ _ _ _ => rfl⟩

/-- R62: the commands whose "writes state" column is "no" only answer. -/
theorem answersOnly_of_writesNothing {i : Instr} (hw : writesNothing i = true) : AnswersOnly i := by
  cases i with
  | crcCompute f => exact answersOnly_of_const _ fun _ => rfl
  | crcCheck f =>
    refine answersOnly_of_const
      { status := if frameValid f then 0#4 else 3#4, value := if frameValid f then 1#32 else 0#32
        aux := crcPair f } fun s => ?_
    simp only [exec, execCrcCheck]
    split_ifs <;> rfl
  | hdrStationId f => exact answersOnly_of_const _ fun _ => rfl
  | hdrBatteryLow f => exact answersOnly_of_const _ fun _ => rfl
  | hdrSensorType f =>
    refine answersOnly_of_const
      { status := if (sensorTypeOf (sensorNibble f)).isSome then 0#4 else 5#4
        value := (sensorNibble f).zeroExtend 32 } fun s => ?_
    simp only [exec, execHdrSensorType]
    cases sensorTypeOf (sensorNibble f) <;> rfl
  | decWindSpeed f => exact answersOnly_of_const _ (execField_eq .windSpeed f)
  | decWindDir f => exact answersOnly_of_const _ (execField_eq .windDir f)
  | decWindGust f => exact answersOnly_of_const _ (execField_eq .windGust f)
  | decRainRateA f => exact answersOnly_of_const _ (execField_eq .rainRateA f)
  | decRainRateB f => exact answersOnly_of_const _ (execField_eq .rainRateB f)
  | decRainCounter f => exact answersOnly_of_const _ (execField_eq .rainCounter f)
  | decTemperature f => exact answersOnly_of_const _ (execField_eq .temperature f)
  | decHumidity f => exact answersOnly_of_const _ (execField_eq .humidity f)
  | decSolar f => exact answersOnly_of_const _ (execField_eq .solar f)
  | decUv f => exact answersOnly_of_const _ (execField_eq .uv f)
  | decCapVoltage f => exact answersOnly_of_const _ (execField_eq .capVoltage f)
  | rainStatus =>
    exact ⟨fun _ r _ => { value := r.baseline.zeroExtend 32, flags := flagIf r.primed flagPrimed }, fun _ => rfl,
      fun _ _ _ _ _ => rfl⟩
  | windStatus =>
    exact ⟨fun _ _ w => { value := BitVec.ofNat 32 w.length, flags := fullFlag w }, fun _ => rfl, fun _ _ _ _ _ => rfl⟩
  | cfgRead => exact ⟨fun c _ _ => { value := c.zeroExtend 32 }, fun _ => rfl, fun h => absurd rfl h⟩
  | rainObserve c => cases hw
  | windObserve h => cases hw
  | frameProcess f => cases hw
  | cfgWrite e sel => cases hw

/-! ### Two runs of one command -/

section

variable {s u : State} {f : Frame}

/-- R182: an observation leaves the same WIN and gives the same heading from any two states that agree on WIN, the
parameters and the counter of draws. -/
theorem windObserve_congr (hw : u.win = s.win) (hp : u.params = s.params) (hd : u.draws = s.draws) (q : HeadingWord) :
    ∃ w a d, windObserve q s = ({ s with win := w, draws := d }, a) ∧
      windObserve q u = ({ u with win := w, draws := d }, a) := by
  by_cases hl : s.win.length < 30
  · exact ⟨_, _, _, windObserve_of_lt hl q, by rw [windObserve_of_lt (hw ▸ hl) q, hw, ← hd]⟩
  · exact ⟨_, _, _, windObserve_of_ge (not_lt.mp hl) q, by
      rw [windObserve_of_ge (hw ▸ not_lt.mp hl) q, hw, hp, hd]⟩

/-- R187: WIND_OBSERVE, from what its observation leaves and gives. -/
theorem execWindObserve_of_windObserve {q : HeadingWord} {s1 : State} {a : Option ℕ} (ho : windObserve q s = (s1, a)) :
    execWindObserve q s = .next
      { s1 with
        rsp := packResponse
          { status := if a = none then 6#4 else 0#4, value := num32 (a.getD 0), aux := num32 s1.win.length
            flags := fullFlag s1.win }
        rspValid := true } := by
  simp only [execWindObserve, ho]
  cases a <;> rfl

/-- R200: the payload stage answers and writes the same from any two states that agree on CFG and RAIN. -/
theorem payloadStage_congr (hc : u.cfg = s.cfg) (hr : u.rain = s.rain) {t : SensorType}
    (ht : sensorTypeOf (sensorNibble f) = some t) (a : Option ℕ) : ∃ r rain,
      payloadStage f t a s = .next { s with rain := rain, rsp := packResponse r, rspValid := true } ∧
      payloadStage f t a u = .next { u with rain := rain, rsp := packResponse r, rspValid := true } := by
  by_cases hrc : t = .rainCount
  · subst hrc
    exact ⟨_, _, payloadStage_rainCount ht, by rw [payloadStage_rainCount ht, hr]⟩
  · cases hin : fieldInRange (dispatchField t (cfgRainSel s.cfg)) f
    · exact ⟨_, s.rain, payloadStage_rejected ht hin, by rw [payloadStage_rejected ht (hc ▸ hin), hc, ← hr]⟩
    · exact ⟨_, s.rain, payloadStage_applied ht hrc hin, by rw [payloadStage_applied ht hrc (hc ▸ hin), hc, ← hr]⟩

/-- R200: FRAME_PROCESS answers and writes the same from any two states that agree on all it reads. -/
theorem frameProcess_congr (hc : u.cfg = s.cfg) (hr : u.rain = s.rain) (hw : u.win = s.win) (hp : u.params = s.params)
    (hd : u.draws = s.draws) (f : Frame) : ∃ r rain w d,
      execFrameProcess f s = .next
        { s with rain := rain, win := w, draws := d, rsp := packResponse r, rspValid := true } ∧
      execFrameProcess f u = .next
        { u with rain := rain, win := w, draws := d, rsp := packResponse r, rspValid := true } := by
  obtain h | ⟨h, h1⟩ | ⟨h, h1, h2⟩ | ⟨h, h1, h2⟩ := frameProcess_split f s
  · exact ⟨_, s.rain, s.win, s.draws, frameProcess_badChecksum h s, by
      rw [frameProcess_badChecksum h u, ← hr, ← hw, ← hd]⟩
  · exact ⟨_, s.rain, s.win, s.draws, frameProcess_foreign h h1, by
      rw [frameProcess_foreign h (hc ▸ h1), ← hr, ← hw, ← hd]⟩
  · exact ⟨_, s.rain, s.win, s.draws, frameProcess_tooFast h h1 h2, by
      rw [frameProcess_tooFast h (hc ▸ h1) h2, ← hr, ← hw, ← hd]⟩
  · obtain ⟨w, a, d, hos, hou⟩ := windObserve_congr hw hp hd (headingWord (frameByte f 2))
    rw [frameProcess_windStage h h1 h2, frameProcess_windStage h (hc ▸ h1) h2]
    cases ht : sensorTypeOf (sensorNibble f) with
    | none => exact ⟨_, s.rain, w, d, windStage_unrecognized hos ht, by rw [windStage_unrecognized hou ht, ← hr]⟩
    | some t =>
      obtain ⟨r, rain, hps, hpu⟩ := payloadStage_congr (s := { s with win := w, draws := d })
        (u := { u with win := w, draws := d }) hc hr ht a
      exact ⟨r, rain, w, d, (windStage_payload hos ht).trans hps, (windStage_payload hou ht).trans hpu⟩

/-- R22, R23, R66: a command answers and writes the same from any two states that agree on RAIN, WIN, the parameters and
the counter of draws, and on CFG if it is one of the two that read it. What it does to CFG is `g`. -/
theorem exec_congr (i : Instr) (hr : u.rain = s.rain) (hw : u.win = s.win) (hp : u.params = s.params)
    (hd : u.draws = s.draws) (hc : (i = .cfgRead ∨ ∃ f, i = .frameProcess f) → u.cfg = s.cfg) :
    ∃ (g : BitVec 16 → BitVec 16) (r : Response) (rain : RainState) (w : List HeadingWord) (d : ℕ),
      exec i s = .next
        { s with cfg := g s.cfg, rain := rain, win := w, draws := d, rsp := packResponse r, rspValid := true } ∧
      exec i u = .next
        { u with cfg := g u.cfg, rain := rain, win := w, draws := d, rsp := packResponse r, rspValid := true } ∧
      ((∀ e sel, i ≠ .cfgWrite e sel) → g = id) := by
  obtain hn | ⟨c, rfl⟩ | ⟨q, rfl⟩ | ⟨f, rfl⟩ | ⟨e, sel, rfl⟩ := writesNothing_or_writer i
  · obtain ⟨answer, ha, hcfg⟩ := answersOnly_of_writesNothing hn
    have hsame : answer u.cfg u.rain u.win = answer s.cfg s.rain s.win := by
      rw [hr, hw]
      by_cases hi : i = .cfgRead
      · rw [hc (.inl hi)]
      · exact hcfg hi _ _ _ _
    exact ⟨id, _, s.rain, s.win, s.draws, ha s, by rw [ha u, hsame, ← hr, ← hw, ← hd]; rfl, fun _ => rfl⟩
  · exact ⟨id, _, _, s.win, s.draws, rfl, by simp only [exec, execRainObserve, hr, ← hw, ← hd]; rfl, fun _ => rfl⟩
  · obtain ⟨w, a, d, hos, hou⟩ := windObserve_congr hw hp hd q
    exact ⟨id, _, s.rain, w, d, execWindObserve_of_windObserve hos, by
      rw [← hr]; exact execWindObserve_of_windObserve hou, fun _ => rfl⟩
  · obtain ⟨r, rain, w, d, hs, hu⟩ := frameProcess_congr (hc (.inr ⟨f, rfl⟩)) hr hw hp hd f
    exact ⟨id, r, rain, w, d, hs, hu, fun _ => rfl⟩
  · exact ⟨fun _ => cfgOfFields e sel, _, s.rain, s.win, s.draws, rfl, by rw [← hr, ← hw, ← hd]; rfl,
      fun h => absurd rfl (h e sel)⟩

end

/-- Settles O17: RSP, RSP_VALID and the samples are not among what `exec_congr` lets a command read. -/
theorem responseRegisterNotRead : Obligations.ResponseRegisterNotRead := by
  intro i s t w v ps h
  obtain ⟨g, r, rain, win, d, hs, hu, -⟩ := exec_congr (s := s)
    (u := { s with rsp := w, rspValid := v, inputs := ps }) i rfl rfl rfl rfl fun _ => rfl
  obtain rfl := Host.Outcome.next.inj (h.symm.trans hs)
  exact hu

/-- Settles O54: CFG is kept by every command but CFG_WRITE, and not among what `exec_congr` lets the others read. -/
theorem cfgWritersAndReaders : Obligations.CfgWritersAndReaders := by
  intro i s t h
  refine ⟨fun hi => ?_, fun hi hread hframe c => ?_, ?_⟩
  · obtain ⟨g, r, rain, w, d, hs, -, hg⟩ := exec_congr (s := s) (u := s) i rfl rfl rfl rfl fun _ => rfl
    obtain rfl := Host.Outcome.next.inj (h.symm.trans hs)
    exact congrFun (hg hi) s.cfg
  · obtain ⟨g, r, rain, w, d, hs, hu, hg⟩ := exec_congr (s := s) (u := { s with cfg := c }) i rfl rfl rfl rfl
      fun hx => hx.elim (absurd · hread) fun ⟨f, e⟩ => absurd e (hframe f)
    obtain rfl := Host.Outcome.next.inj (h.symm.trans hs)
    rw [hu, hg hi]
    rfl
  · rintro e sel rfl c
    exact h

/-! ### Writers -/

theorem reachesWind_iff (f : Frame) (s : State) : ReachesWind f s ↔
    frameValid f = true ∧ byteNat f 0 % 8 = s.cfg.toNat % 8 ∧ byteNat f 1 ≤ 240 := by
  rw [frameValid_iff]

/-- R28, R205: FRAME_PROCESS past the gates. -/
theorem frameProcess_writes_of_reachesWind {f : Frame} {s t : State} (hg : ReachesWind f s)
    (h : exec (.frameProcess f) s = .next t) :
    t.win = (if s.win.length < 30 then s.win else s.win.drop 1) ++
      [BitVec.ofNat 16 (headingNumber (byteNat f 2))] ∧
    t.rain = if nibble f = 0xE then ⟨true, BitVec.ofNat 7 (byteNat f 3)⟩ else s.rain := by
  obtain ⟨r, rain, w, d, he, -, -, -, hc⟩ := frameProcess_effect f s
  obtain rfl := Host.Outcome.next.inj (h.symm.trans he)
  rw [if_pos ((reachesWind_iff f s).mp hg)] at hc
  obtain ⟨-, hw, -, hr⟩ := hc
  exact ⟨by rw [← headingWord_ofNat]; exact hw, hr⟩

/-- R202, R203: FRAME_PROCESS stopped at a gate. -/
theorem frameProcess_writes_of_not_reachesWind {f : Frame} {s t : State} (hg : ¬ ReachesWind f s)
    (h : exec (.frameProcess f) s = .next t) : t.win = s.win ∧ t.rain = s.rain := by
  obtain ⟨r, rain, w, d, he, -, -, -, hc⟩ := frameProcess_effect f s
  obtain rfl := Host.Outcome.next.inj (h.symm.trans he)
  rw [if_neg (mt (reachesWind_iff f s).mpr hg)] at hc
  obtain ⟨hw, hr, -⟩ := hc
  exact ⟨hw, hr⟩

/-- R182: WIND_OBSERVE appends, and keeps RAIN. -/
theorem windObserve_writes {q : HeadingWord} {s t : State} (h : exec (.windObserve q) s = .next t) :
    t.win = (if s.win.length < 30 then s.win else s.win.drop 1) ++ [q] ∧ t.rain = s.rain := by
  obtain ⟨w, a, d, -, -, hw, -, he⟩ := windObserve_effect q s
  obtain rfl := Host.Outcome.next.inj (h.symm.trans he)
  exact ⟨hw, rfl⟩

/-- R24, R28: WIN and RAIN are kept, or the command is one of their three writers. -/
theorem keeps_win_and_rain_or_writer {i : Instr} {s t : State} (h : exec i s = .next t) :
    (t.win = s.win ∧ t.rain = s.rain) ∨ (∃ c, i = .rainObserve c) ∨ (∃ q, i = .windObserve q) ∨
      ∃ f, i = .frameProcess f := by
  obtain hn | hc | hq | hf | ⟨e, sel, rfl⟩ := writesNothing_or_writer i
  · obtain ⟨answer, ha, -⟩ := answersOnly_of_writesNothing hn
    obtain rfl := Host.Outcome.next.inj (h.symm.trans (ha s))
    exact .inl ⟨rfl, rfl⟩
  · exact .inr (.inl hc)
  · exact .inr (.inr (.inl hq))
  · exact .inr (.inr (.inr hf))
  · obtain rfl := Host.Outcome.next.inj h
    exact .inl ⟨rfl, rfl⟩

/-- R25: nothing clears primed. -/
theorem primed_of_exec {i : Instr} {s t : State} (h : exec i s = .next t) (hp : s.rain.primed = true) :
    t.rain.primed = true := by
  obtain ⟨r, cfg, rain, w, d, he, -, -, -, hrain⟩ := exec_effect i s
  obtain rfl := Host.Outcome.next.inj (h.symm.trans he)
  exact hrain.elim (fun e => e ▸ hp) id

/-- Settles O55, one writer at a time. -/
theorem rainWriters : Obligations.RainWriters := by
  refine fun i s t h => ⟨primed_of_exec h, fun hne => ?_⟩
  obtain ⟨-, hr⟩ | hc | ⟨q, rfl⟩ | ⟨f, rfl⟩ := keeps_win_and_rain_or_writer h
  · exact absurd hr hne
  · exact .inl hc
  · exact absurd (windObserve_writes h).2 hne
  · by_cases hg : ReachesWind f s
    · refine .inr ⟨f, rfl, hg, by_contra fun hn => hne ?_⟩
      rw [(frameProcess_writes_of_reachesWind hg h).2, if_neg hn]
    · exact absurd (frameProcess_writes_of_not_reachesWind hg h).2 hne

/-- Settles O56, one writer at a time. -/
theorem winWriters : Obligations.WinWriters := by
  refine fun i s t h => ⟨?_, ?_, ?_⟩
  · obtain ⟨hw, -⟩ | ⟨c, rfl⟩ | hq | ⟨f, rfl⟩ := keeps_win_and_rain_or_writer h
    · exact .inl hw
    · obtain rfl := Host.Outcome.next.inj h
      exact .inl rfl
    · exact .inr (.inl hq)
    · by_cases hg : ReachesWind f s
      · exact .inr (.inr ⟨f, rfl, hg⟩)
      · exact .inl (frameProcess_writes_of_not_reachesWind hg h).1
  · rintro q rfl
    exact (windObserve_writes h).1
  · rintro f rfl hg
    exact (frameProcess_writes_of_reachesWind hg h).1

end Sys2Proof.Machine
end

