-- ==== Sys2Proof/Proofs/Ports.lean ====
section
/-! PROOFS. Proofs/Ports.lean: the handshake and a whole exchange on the ports (spec 10_state.md R29, R31;
30_encoding.md R74). -/

namespace Sys2Proof.Machine

/-- R60 to R63: an encoded command decodes to itself. -/
theorem decode_encode (i : Instr) : decode (encode i) = .ok i := by
  cases i with
  | rainObserve c =>
    refine decode_cmdWord (m := 0x7F#16) rfl (by decide +revert) ?_
    exact congrArg (fun x => some (Instr.rainObserve x))
      ((extract_append_low _ _ _ _ (by decide)).trans BitVec.extractLsb'_eq_self)
  | windObserve h => exact decode_cmdWord (m := 0xFFFF#16) rfl (by ext j hj; simp) rfl
  | cfgWrite e sel =>
    refine decode_cmdWord (m := 0xF#16) rfl (by revert e; cases sel <;> decide) ?_
    revert e; cases sel <;> decide
  | _ => exact decode_cmdWord (m := 0#16) rfl (by decide) rfl

section

variable {s : State}

/-- R61: the commit of a legal command is its meaning. -/
theorem commitCommand_of_decode {c : Command} {i : Instr} (h : decode c = .ok i) (s : State) :
    commitCommand c s = exec i { s with executing := none } := by
  simp only [commitCommand, h]

theorem cmdReady_iff (s : State) : cmdReady s = true ↔ s.executing = none ∧ s.rspValid = false := by
  simp [cmdReady]

/-- R74: a step without rst in which a command executes. -/
theorem step_of_executing (hr : (sampleNow s).rst = false) {c : Command} (he : s.executing = some c) :
    step s = commitCommand c (dropSample s) := by
  simp [step, stepPorts, hr, he]

/-- R29, R74: a step without rst in which a response is pending. -/
theorem step_of_pending (hr : (sampleNow s).rst = false) (he : s.executing = none) (hv : s.rspValid = true) :
    step s = .next (if (sampleNow s).rspReady then takeResponse (dropSample s) else dropSample s) := by
  simp [step, stepPorts, hr, he, hv]

/-- R74: a step without rst of a ready block. -/
theorem step_of_ready (hr : (sampleNow s).rst = false) (h : cmdReady s = true) : step s = .next
    (if (sampleNow s).cmdValid then acceptCommand (sampleNow s).command (dropSample s) else dropSample s) := by
  obtain ⟨he, hv⟩ := (cmdReady_iff s).mp h
  simp [step, stepPorts, hr, he, hv]

end

/-- Settles O9: a step with a command executing is a commit, and the commit of a legal command is its meaning. -/
theorem stepRunsDecodedCommand : Obligations.StepRunsDecodedCommand := fun _ _ _ he hr hd =>
  (step_of_executing hr he).trans (commitCommand_of_decode hd _)

/-- Settles O14: a step of a ready block and a step with a response pending, each by the level it waits for. -/
theorem portsHandshake : Obligations.PortsHandshake := by
  refine fun s hr => ⟨cmdReady_iff s, rfl, rfl, fun h hv => ?_, fun h hv => ?_, fun he hv hy => ?_, fun he hv hy => ?_⟩
  · exact (step_of_ready hr h).trans (congrArg _ (if_pos hv))
  · exact (step_of_ready hr h).trans (congrArg _ (if_neg (Bool.eq_false_iff.mp hv)))
  · exact (step_of_pending hr he hv).trans (congrArg _ (if_pos hy))
  · exact (step_of_pending hr he hv).trans (congrArg _ (if_neg (Bool.eq_false_iff.mp hy)))

theorem run_of_step {s s' : State} (h : step s = .next s') (k : ℕ) :
    Host.Core.run Sys2Proof.core (k + 1) s = Host.Core.run Sys2Proof.core k s' := by
  have h' : Sys2Proof.core.step s = .next s' := h
  simp only [Host.Core.run, h']

/-- R31: a command leaves the block with no command executing where there was none before, its response pending, and
the samples still to come untouched. -/
theorem ports_of_exec {i : Instr} {s t : State} (h : exec i s = .next t) :
    t.executing = s.executing ∧ t.rspValid = true ∧ t.inputs = s.inputs := by
  obtain ⟨r, cfg, rain, w, d, hs, -⟩ := exec_effect i s
  obtain rfl := Host.Outcome.next.inj (h.symm.trans hs)
  exact ⟨rfl, rfl, rfl⟩

/-- Settles O15: acceptance, the commit, and the response taken, one step each. -/
theorem commandExchange : Obligations.CommandExchange := by
  intro s t i p q rest he hv hin hp hq hy hx
  have hoffer : (s.inputs.headD PortSample.idle).rst = false ∧ (s.inputs.headD PortSample.idle).cmdValid = true := by
    rw [hin]
    exact ⟨rfl, rfl⟩
  have haccept : step s = .next { s with executing := some (encode i), inputs := p :: q :: rest } := by
    obtain ⟨-, -, -, hstep, -⟩ := portsHandshake s hoffer.1
    rw [hstep ((cmdReady_iff s).mpr ⟨he, hv⟩) hoffer.2, hin]
    rfl
  have hcommit : step { s with executing := some (encode i), inputs := p :: q :: rest } =
      .next { t with inputs := q :: rest } := by
    rw [stepRunsDecodedCommand _ (encode i) i rfl (by exact hp) (decode_encode i), ← he]
    exact responseRegisterNotRead i _ t s.rsp s.rspValid (q :: rest) hx
  obtain ⟨hte, htv, hti⟩ := ports_of_exec hx
  have htake : step { t with inputs := q :: rest } = .next { t with rspValid := false } := by
    obtain ⟨-, -, -, -, -, hstep, -⟩ := portsHandshake { t with inputs := q :: rest } hq
    rw [hstep (hte.trans he) htv hy, ← show t.inputs = rest from hti]
    rfl
  rw [run_of_step haccept, run_of_step hcommit, run_of_step htake]
  rfl

end Sys2Proof.Machine
end

