-- ==== Sys2Proof/Proofs/Repeat.lean ====
section
/-! PROOFS. Proofs/Repeat.lean: the frame operand and a command issued again (spec 20_memory.md R40, R41, R45). -/

namespace Sys2Proof.Machine

/-- Settles O6 from the operand laws: each byte as a number, the two words read of them, and the frame they make. -/
theorem frameBytesBigEndian : Obligations.FrameBytesBigEndian := fun f =>
  ⟨byteNat_eq f, receivedCrc_toNat f, rfl, frameOfBytes_frameByte f⟩

section

variable {i : Instr} {f : Frame} {s t u : State}

/-- R31: every command commits, so it can be issued again. -/
theorem exists_exec_eq_next (i : Instr) (s : State) : ∃ t, exec i s = .next t := by
  obtain ⟨r, cfg, rain, w, d, he, -⟩ := exec_effect i s
  exact ⟨_, he⟩

/-- R45, row 1: the answer is made of CFG, RAIN and WIN, and the command left those as they were. -/
theorem exec_again_of_writesNothing (hn : writesNothing i = true) (h : exec i s = .next t) :
    t = { s with rsp := t.rsp, rspValid := true } ∧ exec i t = .next t := by
  obtain ⟨answer, ha, -⟩ := answersOnly_of_writesNothing hn
  obtain rfl := Host.Outcome.next.inj (h.symm.trans (ha s))
  exact ⟨rfl, ha _⟩

/-- R161: once a counter is observed, observing it again changes nothing and gives no tips. -/
@[simp] theorem rainObserve_again (c : BitVec 7) : rainObserve c ⟨true, c⟩ = (⟨true, c⟩, 0#7, false) := by
  rw [rainObserve_primed rfl, BitVec.sub_self]

/-- R45, row 3: the first issue leaves the counter as the baseline, so the second counts nothing. -/
theorem execRainObserve_again {c : BitVec 7} (h : exec (.rainObserve c) s = .next t) :
    ∃ u, exec (.rainObserve c) t = .next u ∧ u.rain = t.rain ∧ u.response.value = 0#32 := by
  obtain rfl := Host.Outcome.next.inj h
  refine ⟨_, rfl, ?_, ?_⟩
  · simp
  · simp [State.response]

/-- R202, R203: of the state the gates of FRAME_PROCESS read CFG only, which the command keeps. -/
theorem reachesWind_again (h : exec (.frameProcess f) s = .next t) : ReachesWind f t ↔ ReachesWind f s := by
  have hcfg : t.cfg = s.cfg := (cfgWritersAndReaders _ s t h).1 nofun
  simp only [ReachesWind, StationPasses, hcfg]

/-- R45, row 5, R208: FRAME_PROCESS is idempotent on RAIN. It stops at the same gate again, or stores the same counter
again, or the frame has none. -/
theorem frameProcess_rain_again (h : exec (.frameProcess f) s = .next t) (hu : exec (.frameProcess f) t = .next u) :
    u.rain = t.rain := by
  by_cases hg : ReachesWind f t
  · have ht := (frameProcess_writes_of_reachesWind ((reachesWind_again h).mp hg) h).2
    rw [(frameProcess_writes_of_reachesWind hg hu).2]
    split_ifs at ht ⊢
    · exact ht.symm
    · rfl
  · exact (frameProcess_writes_of_not_reachesWind hg hu).2

end

/-- Settles O57, one row of the table at a time. -/
theorem reissuedCommand : Obligations.ReissuedCommand := by
  refine fun i s t h => ⟨fun hn => exec_again_of_writesNothing hn h, ?_, ?_, ?_, ?_, rfl⟩
  · rintro e sel rfl
    obtain rfl := Host.Outcome.next.inj h
    rfl
  · rintro c rfl
    exact execRainObserve_again h
  · rintro q rfl
    obtain ⟨u, hu⟩ := exists_exec_eq_next (.windObserve q) t
    exact ⟨u, hu, (windObserve_writes hu).1⟩
  · rintro f rfl
    obtain ⟨u, hu⟩ := exists_exec_eq_next (.frameProcess f) t
    exact ⟨u, hu, frameProcess_rain_again h hu, fun hg =>
      (frameProcess_writes_of_reachesWind ((reachesWind_again h).mpr hg) hu).1⟩

end Sys2Proof.Machine
end

