-- ==== Sys2Proof/Proofs/Encoding.lean ====
section
/-! PROOFS. Proofs/Encoding.lean: the decoder, the encoder and the opcode table agree, and a response's fields stand
where the layout says (spec 30_encoding.md R60 to R64, R74). -/

namespace Sys2Proof.Machine

open Sys2Proof.Laws Sys2Proof.Laws.EncodesToTableRow

section

variable {opc : BitVec 8} {arg m : Arg} {f : Frame} {i : Instr}

/-! ### What an opcode is read as -/

/-- R62: an opcode is the opcode of the command it is read as. -/
theorem opcodeOf_of_instrOf (hi : instrOf opc arg f = some i) : opcodeOf i = opc := by
  unfold instrOf at hi
  split at hi <;> cases hi <;> exact (BitVec.eq_of_toNat_eq ‹_›).symm

/-- R60, R62: a command whose "uses FRAME" column is "no" is read the same from every frame. -/
theorem instrOf_of_not_usesFrame (hi : instrOf opc arg f = some i) (hu : i.usesFrame = false) (g : Frame) :
    instrOf opc arg g = some i := by
  obtain rfl := opcodeOf_of_instrOf hi
  cases i with
  | rainObserve | rainStatus | windObserve | windStatus | cfgWrite | cfgRead => exact hi
  | _ => cases hu

/-! ### ARG inside its mask -/

/-- R61: an ARG without a bit outside a mask of k ones is below 2^k. -/
theorem arg_lt_of_and_not_eq_zero {k : ℕ} (h : arg &&& ~~~BitVec.ofNat 16 (2 ^ k - 1) = 0#16) :
    arg.toNat < 2 ^ k := by
  refine Nat.lt_pow_two_of_testBit _ fun j hj => ?_
  rw [BitVec.testBit_toNat]
  by_cases h16 : j < 16
  · have hm : (BitVec.ofNat 16 (2 ^ k - 1)).getLsbD j = false := by
      rw [BitVec.getLsbD_ofNat, Nat.testBit_two_pow_sub_one, decide_eq_false hj.not_gt, Bool.and_false]
    have hb := congrArg (·.getLsbD j) h
    simpa only [BitVec.getLsbD_and, BitVec.getLsbD_not, hm, h16, decide_true, Bool.not_false, Bool.and_true,
      BitVec.getLsbD_zero] using hb
  · exact BitVec.getLsbD_of_ge _ _ (by omega)

/-- R61: the mask 0 leaves no bit of ARG. -/
theorem arg_eq_zero_of_and_not_zero (h : arg &&& ~~~0#16 = 0#16) : arg = 0#16 := by
  rwa [BitVec.not_zero, BitVec.and_allOnes] at h

/-- R63: the operand of RAIN_OBSERVE fills its mask. -/
theorem append_rainCounter (h : arg.toNat < 2 ^ 7) : 0#9 ++ arg.extractLsb' 0 7 = arg := by
  apply BitVec.eq_of_toNat_eq
  exact (BitVec.toNat_append _ _).trans (by simpa using h)

/-- R63: the operands of CFG_WRITE fill its mask. -/
theorem append_cfgOperands (h : arg.toNat < 2 ^ 4) :
    0#12 ++ rainSelBit (rainSelOfBit (arg.getLsbD 3)) ++ arg.extractLsb' 0 3 = arg := by
  have key : ∀ n < 16, 0#12 ++ rainSelBit (rainSelOfBit ((BitVec.ofNat 16 n).getLsbD 3)) ++
      (BitVec.ofNat 16 n).extractLsb' 0 3 = BitVec.ofNat 16 n := by decide
  simpa using key arg.toNat h

/-! ### Encoding what was read -/

/-- R60 to R63: a word whose ARG stays inside its mask is the word of the command it is read as, and so is the frame of
a command that uses it. -/
theorem encode_of_instrOf (hm : argMask opc = some m) (ha : arg &&& ~~~m = 0#16) (hi : instrOf opc arg f = some i) :
    (encode i).cmd = cmdWord opc arg ∧ (i.usesFrame = true → (encode i).frame = f) := by
  obtain rfl := opcodeOf_of_instrOf hi
  cases i with
  | rainObserve c =>
    obtain rfl := Option.some.inj hm
    obtain rfl := Instr.rainObserve.inj (Option.some.inj hi)
    exact ⟨congrArg (cmdWord 0x30#8) (append_rainCounter (arg_lt_of_and_not_eq_zero ha)), nofun⟩
  | windObserve h =>
    obtain rfl := Instr.windObserve.inj (Option.some.inj hi)
    exact ⟨rfl, nofun⟩
  | cfgWrite e sel =>
    obtain rfl := Option.some.inj hm
    obtain ⟨rfl, rfl⟩ := Instr.cfgWrite.inj (Option.some.inj hi)
    exact ⟨congrArg (cmdWord 0x60#8) (append_cfgOperands (arg_lt_of_and_not_eq_zero ha)), nofun⟩
  | rainStatus | windStatus | cfgRead =>
    obtain rfl := Option.some.inj hm
    obtain rfl := arg_eq_zero_of_and_not_zero ha
    exact ⟨rfl, nofun⟩
  | _ =>
    obtain rfl := Option.some.inj hm
    obtain rfl := arg_eq_zero_of_and_not_zero ha
    cases hi
    exact ⟨rfl, fun _ => rfl⟩

end

/-- Settles O2: the frame is read by `instrOf` alone, which ignores it for a command that does not use FRAME. -/
theorem decodeOfEncode : Obligations.DecodeOfEncode := by
  refine fun i g => ⟨decode_encode i, fun hu => ?_⟩
  obtain ⟨m, hm, hr, ha, hi⟩ := (decode_eq_ok_iff _ _).mp (decode_encode i)
  exact (decode_eq_ok_iff _ _).mpr ⟨m, hm, hr, ha, instrOf_of_not_usesFrame hi hu g⟩

/-- Settles O3: RSV is 0, so the word is that of its opcode and ARG, which `encode_of_instrOf` gives back. -/
theorem encodeOfDecode : Obligations.EncodeOfDecode := by
  intro c i h
  obtain ⟨m, hm, hr, ha, hi⟩ := (decode_eq_ok_iff c i).mp h
  rw [← cmdWord_fields hr]
  exact encode_of_instrOf hm ha hi

/-! ### The opcode table -/

/-- R62: the word of every command matches a row. -/
theorem encode_matches_row (i : Instr) : ∃ r ∈ opcodeRows, (encode i).cmd &&& r.mask = r.mtch := by
  have h : Statement i := by
    cases i
    exacts [crcCompute _, crcCheck _, hdrStationId _, hdrBatteryLow _, hdrSensorType _, decWindSpeed _, decWindDir _,
      decWindGust _, decRainRateA _, decRainRateB _, decRainCounter _, decTemperature _, decHumidity _, decSolar _,
      decUv _, decCapVoltage _, EncodesToTableRow.rainObserve _, rainStatus, EncodesToTableRow.windObserve _,
      windStatus, frameProcess _, cfgWrite _ _, cfgRead]
  obtain ⟨r, hr, -, hw⟩ := h
  exact ⟨r, hr, hw⟩

/-- R62: a row's match is its opcode and zeros, and its mask covers all but the ARG bits of the opcode's ARG mask. -/
theorem row_shape : ∀ r ∈ opcodeRows, r.mtch = opcField r.mtch ++ 0#8 ++ 0#16 ∧
    ((argMask (opcField r.mtch)).map fun m => 0xFFFF#16 ++ ~~~m) = some r.mask := by
  decide

/-- R62: no two rows share an opcode. -/
theorem row_eq_of_opcode_eq {r r' : TableRow} (hr : r ∈ opcodeRows) (hr' : r' ∈ opcodeRows)
    (h : opcField r.mtch = opcField r'.mtch) : r = r' := by
  have hn : (opcodeRows.map fun r => opcField r.mtch).Nodup := by decide
  exact List.inj_on_of_nodup_map hn hr hr' h

/-- R61, R62: a word that matches a row has the row's opcode and passes the three checks. -/
theorem checks_of_matches {r : TableRow} (hr : r ∈ opcodeRows) {w : CmdWord} (hw : w &&& r.mask = r.mtch) :
    opcField w = opcField r.mtch ∧
      ∃ m, argMask (opcField w) = some m ∧ rsvField w = 0#8 ∧ argField w &&& ~~~m = 0#16 := by
  obtain ⟨hmtch, hmask⟩ := row_shape r hr
  obtain ⟨m, hm, hmask⟩ := Option.map_eq_some_iff.mp hmask
  rw [← hmask, hmtch] at hw
  obtain ⟨ho, hv, ha⟩ := (and_mask_eq_iff w _ m).mp hw
  exact ⟨ho, m, ho ▸ hm, hv, ha⟩

/-- R61: a word that passes the three checks decodes. -/
theorem exists_decode_of_checks {c : Command} {m : Arg} (hm : argMask (opcField c.cmd) = some m)
    (hr : rsvField c.cmd = 0#8) (ha : argField c.cmd &&& ~~~m = 0#16) : ∃ i, decode c = .ok i := by
  have hi := instrOf_isSome (opcField c.cmd) (argField c.cmd) c.frame
  rw [hm] at hi
  obtain ⟨i, hi⟩ := Option.isSome_iff_exists.mp hi
  exact ⟨i, (decode_eq_ok_iff c i).mpr ⟨m, hm, hr, ha, hi⟩⟩

/-- Settles O4: a legal word is an encoding, which matches a row; a word that matches passes the checks, and its opcode
is that of one row. -/
theorem legalWordsAreTableRows : Obligations.LegalWordsAreTableRows := by
  refine fun c => ⟨⟨?_, ?_⟩, fun r hr r' hr' hw hw' => ?_⟩
  · rintro ⟨i, hi⟩
    rw [← (encodeOfDecode c i hi).1]
    exact encode_matches_row i
  · rintro ⟨r, hr, hw⟩
    obtain ⟨-, m, hm, hv, ha⟩ := checks_of_matches hr hw
    exact exists_decode_of_checks hm hv ha
  · exact row_eq_of_opcode_eq hr hr' ((checks_of_matches hr hw).1.symm.trans (checks_of_matches hr' hw').1)

/-! ### The order of the checks -/

section

variable {c : Command} {m : Arg}

theorem decode_of_unknown_opcode (hm : argMask (opcField c.cmd) = none) : decode c = .error .unknownOpcode := by
  simp only [decode, hm]

theorem decode_of_reserved (hm : argMask (opcField c.cmd) = some m) (hr : rsvField c.cmd ≠ 0#8) :
    decode c = .error .reservedNotZero := by
  simp only [decode, hm, if_pos hr]

theorem decode_of_outside_mask (hm : argMask (opcField c.cmd) = some m) (hr : rsvField c.cmd = 0#8)
    (ha : argField c.cmd &&& ~~~m ≠ 0#16) : decode c = .error .argOutsideMask := by
  simp only [decode, hm, if_neg (not_not.mpr hr), if_pos ha]

/-- R61, R231: the commit of a refused word is ILLEGAL_COMMAND. -/
theorem commitCommand_of_error {e : DecodeError} (h : decode c = .error e) (s : State) :
    commitCommand c s = .next { s with executing := none, rsp := 7#144, rspValid := true } := by
  simp only [commitCommand, h]
  rfl

end

/-- Settles O5, one check at a time. -/
theorem decodeChecksInOrder : Obligations.DecodeChecksInOrder := by
  refine fun c s => ⟨decode_of_unknown_opcode, fun m => decode_of_reserved, fun m => decode_of_outside_mask,
    fun m hm hr ha => ?_, fun e he => commitCommand_of_error he s⟩
  obtain ⟨i, hi⟩ := exists_decode_of_checks hm hr ha
  exact ⟨i, hi, commitCommand_of_decode hi s⟩

/-! ### Fixed words, the response and the fetch -/

/-- Settles O1: each word is the encoding of its command, with any frame where the command ignores it. -/
theorem sampleWordsDecode : Obligations.SampleWordsDecode := fun f =>
  ⟨decode_encode (.crcCheck f), decode_encode (.hdrSensorType f), decode_encode (.decCapVoltage f),
    (decodeOfEncode (.rainObserve 50#7) f).2 rfl, (decodeOfEncode (.windObserve 14448#16) f).2 rfl,
    decode_encode (.frameProcess f), (decodeOfEncode (.cfgWrite 2#3 .formulaB) f).2 rfl,
    (decodeOfEncode .cfgRead f).2 rfl⟩

/-- Settles O8: the fields `unpackResponse` reads at the layout's bits are those of the response. -/
theorem responseLayout : Obligations.ResponseLayout := by
  intro r
  have h {α : Type} (field : Response → α) : field (unpackResponse (packResponse r)) = field r :=
    congrArg field (unpack_pack r)
  exact ⟨h (·.status), h (·.flags), h (·.value), h (·.aux), h (·.outcome), h (·.reached), h (·.hdrStation),
    h (·.hdrBattery), h (·.hdrType), h (·.windSpeed), h (·.windDirQ), h (·.avgStatus), h (·.avgDeg), h (·.rainTips),
    h (·.rainFirst), pack_reserved r⟩

theorem decode_of_decodeTableWord {nbits w : ℕ} {i : Instr} (h : decodeTableWord nbits w = some i) :
    decode (tableCommand nbits w) = .ok i := by
  unfold decodeTableWord at h
  cases hd : decode (tableCommand nbits w) <;> simp_all

/-- Settles O10: the placed command is the one `step` decodes, and the sample placed before the others has rst low. -/
theorem fetchedWordRuns : Obligations.FetchedWordRuns := fun _ _ _ i h =>
  stepRunsDecodedCommand _ _ i rfl rfl (decode_of_decodeTableWord h)

end Sys2Proof.Machine
end

