-- ==== Sys2Proof/Proofs/Assembler.lean ====
section
/-! PROOFS. Proofs/Assembler.lean: the lines of the assembler, parsed and in characters (spec 30_encoding.md R72,
R73). -/

namespace Sys2Proof.Machine

/-! ### Parsed lines -/

section

variable {sel : RainSel}

theorem assemble_windObserve {h : ℕ} (hh : h ≤ 65535) :
    assemble (.windObserve h) = some [.windObserve (BitVec.ofNat 16 h)] := if_pos hh

theorem assemble_rainObserve {c : ℕ} (hc : c ≤ 127) :
    assemble (.rainObserve c) = some [.rainObserve (BitVec.ofNat 7 c)] := if_pos hc

theorem assemble_cfgWrite {e : ℕ} (he : e ≤ 7) :
    assemble (.cfgWrite e sel) = some [.cfgWrite (BitVec.ofNat 3 e) sel] := if_pos he

/-- R73: `WIND_OBSERVE_DEG d`. -/
theorem assemble_windObserveDeg {d : ℕ} (hd : d ≤ 409) :
    assemble (.windObserveDeg d) = some [.windObserve (BitVec.ofNat 16 (160 * d))] :=
  (if_pos hd).trans (assemble_windObserve (by omega))

/-- R73: `WIND_OBSERVE_CODE c`. -/
theorem assemble_windObserveCode {c : ℕ} (h1 : 1 ≤ c) (hc : c ≤ 255) :
    assemble (.windObserveCode c) = some [.windObserve (BitVec.ofNat 16 (225 * c + 48))] := by
  rw [assemble, if_pos hc, if_neg (by omega)]
  exact assemble_windObserve (by omega)

/-- R73: the commands of `SET_STATION n` and `SET_STATION_B n`. -/
theorem asmSetStation_eq {n : ℕ} (h1 : 1 ≤ n) (hn : n ≤ 8) :
    asmSetStation n sel = some [.cfgWrite (BitVec.ofNat 3 (n - 1)) sel] :=
  (if_pos h1).trans (if_pos (by omega))

/-! ### The words of a line -/

/-- R60, R72: CMD as a number, from its opcode and its argument. -/
theorem cmdWord_eq_ofNat (opc : BitVec 8) {arg : Arg} {n : ℕ} (hn : arg.toNat = n) :
    cmdWord opc arg = BitVec.ofNat 32 (opc.toNat * 2 ^ 24 + n) := by
  subst hn
  apply BitVec.eq_of_toNat_eq
  have hword : (cmdWord opc arg).toNat = (opc ++ 0x00#8).toNat <<< 16 ||| arg.toNat := BitVec.toNat_append _ _
  have hlt : opc.toNat * 2 ^ 24 + arg.toNat < 2 ^ 32 := by
    have := opc.isLt
    have := arg.isLt
    omega
  rw [hword, ← Nat.shiftLeft_add_eq_or_of_lt (by exact arg.isLt), BitVec.toNat_append]
  simp only [BitVec.toNat_ofNat, Nat.zero_mod, Nat.or_zero, Nat.shiftLeft_eq, Nat.mod_eq_of_lt hlt]
  omega

/-- R63: the ARG of RAIN_OBSERVE as a number. -/
theorem rainArg_toNat {c : ℕ} (hc : c ≤ 127) : BitVec.toNat (0#9 ++ BitVec.ofNat 7 c) = c := by
  rw [BitVec.toNat_append]
  simpa using Nat.lt_succ_of_le hc

theorem assembleWords_rainObserve {c : ℕ} (hc : c ≤ 127) :
    assembleWords (.rainObserve c) = some [⟨BitVec.ofNat 32 (0x30000000 + c), 0#64⟩] := by
  have hw : cmdWord 0x30#8 (0#9 ++ BitVec.ofNat 7 c) = BitVec.ofNat 32 (0x30000000 + c) :=
    cmdWord_eq_ofNat _ (rainArg_toNat hc)
  simp only [assembleWords, assemble_rainObserve hc, Option.map_some, List.map_cons, List.map_nil, encode, hw]

theorem assembleWords_windObserve {h : ℕ} (hh : h ≤ 65535) :
    assembleWords (.windObserve h) = some [⟨BitVec.ofNat 32 (0x40000000 + h), 0#64⟩] := by
  have hw : cmdWord 0x40#8 (BitVec.ofNat 16 h) = BitVec.ofNat 32 (0x40000000 + h) :=
    cmdWord_eq_ofNat _ (Nat.mod_eq_of_lt (by omega))
  simp only [assembleWords, assemble_windObserve hh, Option.map_some, List.map_cons, List.map_nil, encode, hw]

/-- R72, R210: the pair of CFG_WRITE, its eight stations and two formulas. -/
theorem assembleWords_cfgWrite : ∀ e ≤ 7,
    assembleWords (.cfgWrite e .formulaA) = some [⟨BitVec.ofNat 32 (0x60000000 + e), 0#64⟩] ∧
    assembleWords (.cfgWrite e .formulaB) = some [⟨BitVec.ofNat 32 (0x60000008 + e), 0#64⟩] := by
  decide

/-- R62, R72: every frame mnemonic names a command, whose word is the mnemonic's. -/
theorem exists_lookup_frameCommands {p : String × CmdWord} (hp : p ∈ frameMnemonics) :
    ∃ mk, frameCommands.lookup p.1 = some mk ∧ ∀ f, encode (mk f) = ⟨p.2, f⟩ := by
  fin_cases hp <;> exact ⟨_, rfl, fun _ => rfl⟩

/-- R72: the pair of a frame command, zeros where its frame is missing. -/
theorem assembleWords_frameCommand {p : String × CmdWord} (hp : p ∈ frameMnemonics) (f : Option Frame) :
    assembleWords (.frameCommand p.1 f) = some [⟨p.2, frameOrZero f⟩] := by
  obtain ⟨mk, hl, he⟩ := exists_lookup_frameCommands hp
  simp only [assembleWords, assemble, hl, Option.map_some, List.map_cons, List.map_nil, he]

end

/-- Settles O7: the pseudo-commands, then the pairs of the frame commands, of the other operands and of the plain
mnemonics. -/
theorem assemblerLines : Obligations.AssemblerLines :=
  ⟨fun _ => assemble_windObserveDeg, rfl, fun _ => assemble_windObserveCode,
    fun _ h1 hn => ⟨asmSetStation_eq h1 hn, asmSetStation_eq h1 hn⟩, fun _ => rfl, rfl,
    fun _ hp f => ⟨assembleWords_frameCommand hp (some f), assembleWords_frameCommand hp none⟩,
    fun _ => assembleWords_rainObserve, fun _ => assembleWords_windObserve, assembleWords_cfgWrite,
    fun _ _ _ _ _ _ _ _ => assembleWords_frameCommand (p := ("FRAME_PROCESS", 0x50000000#32)) (by decide) (some _),
    by decide, by decide, by decide⟩

/-! ### Lines in characters -/

theorem isMnemonic_of_mem_frameMnemonics {m : String} (hm : m ∈ frameMnemonics.map Prod.fst) : isMnemonic m := by
  have h : ∀ m ∈ frameMnemonics.map Prod.fst, isMnemonic m := by decide +kernel
  exact h m hm

/-- R72: a frame mnemonic is none of the others, so its operands are a frame. -/
theorem parseOperands_frameCommand {m : String} (hm : m ∈ frameMnemonics.map Prod.fst) (ws : List (List Char)) :
    parseOperands m ws = (frameOperand ws).map (.frameCommand m) := by
  fin_cases hm <;> simp [parseOperands, plainCommands]

/-- R72: a mnemonic that takes no operand. -/
theorem assembleText_plain {m : String} (hm : m ∈ ["RAIN_STATUS", "WIND_STATUS", "CFG_READ"]) :
    assembleText m = assemble (.plain m) := by
  fin_cases hm <;> decide +kernel

/-- R72, R73: a line of each shape. -/
theorem assembleText_lineText (l : AsmLine)
    (hf : ∀ m f, l = .frameCommand m f → m ∈ frameMnemonics.map Prod.fst)
    (hp : ∀ m, l = .plain m → m ∈ ["RAIN_STATUS", "WIND_STATUS", "CFG_READ"]) :
    assembleText (lineText l) = assemble l := by
  cases l with
  | frameCommand m f =>
    have hm := hf m f rfl
    exact assembleText_frameLine (isMnemonic_of_mem_frameMnemonics hm) (parseOperands_frameCommand hm) f
  | plain m => exact assembleText_plain (hp m rfl)
  | cfgWrite e sel => exact assembleText_cfgText e sel
  | rainObserve n | windObserve n | windObserveDeg n | windObserveCode n | setStation n | setStationB n =>
    exact assembleText_operandLine (by decide +kernel) (fun _ => by simp [parseOperands]) n
  | checkAndProcess f => exact assembleText_frameLine (by decide +kernel) (fun _ => by simp [parseOperands]) f

/-- Settles O60: the shapes, the two hexadecimal operands, and the comment. -/
theorem assemblerText : Obligations.AssemblerText := by
  refine ⟨assembleText_lineText, fun c hc => ?_, fun h hh => ?_, assembleText_comment⟩
  · rw [assembleText_hexLine (by decide +kernel) (mk := .rainObserve) (fun _ => by simp [parseOperands]) (by omega)]
    exact assemble_rainObserve hc
  · rw [assembleText_hexLine (by decide +kernel) (mk := .windObserve) (fun _ => by simp [parseOperands]) (by omega)]
    exact assemble_windObserve hh

end Sys2Proof.Machine
end

