-- ==== Sys2Proof/Proofs/Checksum.lean ====
section
/-! PROOFS. Proofs/Checksum.lean: the frame CRC in number arithmetic, its algebra, and the two commands that answer it
(spec 40_checksum.md R80 to R86). -/

namespace Sys2Proof.Machine

/-! ### Rounds on numbers -/

/-- R82: a round reads no bit above bit 15, so dropping those bits commutes with it. -/
theorem ofNat_unmaskedRound : Function.Semiconj (BitVec.ofNat 16) unmaskedRound crcRound := by
  intro n
  have hshift : BitVec.ofNat 16 (n <<< 1) = BitVec.ofNat 16 n <<< 1 := by
    apply BitVec.eq_of_toNat_eq
    simp only [BitVec.toNat_ofNat, BitVec.toNat_shiftLeft, Nat.shiftLeft_eq, Nat.mod_mul_mod]
  have hbit : (BitVec.ofNat 16 n).getLsbD 15 = n.testBit 15 := by
    rw [BitVec.getLsbD_ofNat, decide_eq_true (by decide), Bool.true_and]
  unfold unmaskedRound crcRound
  rw [hbit]
  split_ifs
  · rw [BitVec.ofNat_xor, hshift]
  · exact hshift

theorem maskedRound_eq_unmaskedRound_and (n : ℕ) : maskedRound n = unmaskedRound n &&& 0xFFFF :=
  (apply_ite (· &&& 0xFFFF) _ _ _).symm

theorem ofNat_toNat_eq_and (n : ℕ) : (BitVec.ofNat 16 n).toNat = n &&& 0xFFFF :=
  (Nat.and_two_pow_sub_one_eq_mod n 16).symm

/-- R80: a round on numbers. -/
theorem toNat_crcRound : Function.Semiconj BitVec.toNat crcRound maskedRound := by
  intro c
  have h := congrArg BitVec.toNat (ofNat_unmaskedRound c.toNat)
  rw [BitVec.ofNat_toNat, BitVec.setWidth_eq, ofNat_toNat_eq_and] at h
  exact h.symm.trans (maskedRound_eq_unmaskedRound_and _).symm

theorem crcRounds_eq_iterate (n : ℕ) (c : BitVec 16) : crcRounds n c = crcRound^[n] c := by
  induction n generalizing c with
  | zero => rfl
  | succ n ih => exact ih _

/-- R80: a byte in the high half of the register. -/
theorem append_zero_toNat (b : Byte) : BitVec.toNat (w := 16) (b ++ 0#8) = b.toNat <<< 8 :=
  (BitVec.toNat_append b 0#8).trans (Nat.or_zero _)

theorem xor_append_zero_toNat (c : BitVec 16) (b : Byte) : (c ^^^ (b ++ 0#8)).toNat = c.toNat ^^^ (b.toNat <<< 8) := by
  rw [BitVec.toNat_xor, append_zero_toNat]

/-- R80: the byte step on numbers. -/
theorem crcStep_toNat (c : BitVec 16) (b : Byte) : (crcStep c b).toNat = crcStepNat c.toNat b.toNat := by
  rw [crcStep, crcRounds_eq_iterate, (toNat_crcRound.iterate_right 8).eq, xor_append_zero_toNat, crcStepNat]

/-- Settles O20: the byte step on numbers, six times from 0. -/
theorem frameCrcArithmetic : Obligations.FrameCrcArithmetic := by
  refine ⟨crcStep_toNat, fun f => ?_⟩
  simp only [frameCrc, crcFold, crcSpan, List.foldl_cons, List.foldl_nil, crcStep_toNat]
  rfl

/-- Settles O21: eight rounds commute with dropping the bits above bit 15, so it may wait until after them. -/
theorem maskOncePerByte : Obligations.MaskOncePerByte := by
  intro c b
  rw [← xor_append_zero_toNat, ← ofNat_toNat_eq_and, (ofNat_unmaskedRound.iterate_right 8).eq, BitVec.ofNat_toNat,
    BitVec.setWidth_eq, ← crcRounds_eq_iterate, crcStep]

/-! ### Linearity -/

theorem frameByte_xor (f g : Frame) (k : Fin 8) : frameByte (f ^^^ g) k = frameByte f k ^^^ frameByte g k :=
  BitVec.extractLsb'_xor

theorem receivedCrc_xor (f g : Frame) : receivedCrc (f ^^^ g) = receivedCrc f ^^^ receivedCrc g := by
  simp only [receivedCrc, frameByte_xor]
  exact BitVec.xor_append.symm

/-- R86.1 for any bytes of a frame. -/
theorem crcFold_xor (f g : Frame) (ks : List (Fin 8)) (c d : BitVec 16) :
    crcFold (c ^^^ d) (ks.map (frameByte (f ^^^ g))) =
      crcFold c (ks.map (frameByte f)) ^^^ crcFold d (ks.map (frameByte g)) := by
  induction ks generalizing c d with
  | nil => rfl
  | cons k ks ih =>
    have hstep : crcStep (c ^^^ d) (frameByte (f ^^^ g) k) =
        crcStep c (frameByte f k) ^^^ crcStep d (frameByte g k) := by
      rw [frameByte_xor, crcStep_xor]
    simp only [crcFold, List.map_cons, List.foldl_cons, hstep]
    exact ih _ _

/-- R81: the bytes of CRC_SPAN by their numbers. -/
theorem crcSpan_eq_map (f : Frame) : crcSpan f = [0, 1, 2, 3, 4, 5].map (frameByte f) := rfl

/-- Settles O22: the fold over CRC_SPAN is linear, and its initial value is 0. -/
theorem crcLinear : Obligations.CrcLinear := fun f g => by
  simp only [frameCrc, crcSpan_eq_map]
  exact crcFold_xor f g _ crcInit crcInit

/-! ### Single-bit flips -/

/-- R83, R86.1: an error leaves a valid frame valid only if it is itself consistent. -/
theorem frameValid_xor_eq_false {f e : Frame} (hf : frameValid f = true) (he : frameCrc e ≠ receivedCrc e) :
    frameValid (f ^^^ e) = false := by
  obtain ⟨hc, -⟩ := (frameValid_iff f).mp hf
  refine Bool.eq_false_iff.mpr fun h => he ?_
  obtain ⟨hx, -⟩ := (frameValid_iff _).mp h
  rwa [crcLinear, receivedCrc_xor, hc, BitVec.xor_right_inj] at hx

/-- R86.2: the 48 single-bit prefixes. -/
theorem frameCrc_prefixBit : ∀ k < 64, 16 ≤ k →
    0x022D ≤ (frameCrc (1#64 <<< k)).toNat ∧ receivedCrc (1#64 <<< k) = 0#16 := by
  decide +kernel

/-- R86.2: the 16 single-bit values of bytes 6 and 7. -/
theorem frameCrc_receivedBit : ∀ k < 16, frameCrc (1#64 <<< k) = 0#16 ∧ receivedCrc (1#64 <<< k) ≠ 0#16 := by
  decide +kernel

theorem frameCrc_bit_ne_receivedCrc {k : ℕ} (hk : k < 64) : frameCrc (1#64 <<< k) ≠ receivedCrc (1#64 <<< k) := by
  rcases Nat.lt_or_ge k 16 with h | h
  · obtain ⟨hc, hr⟩ := frameCrc_receivedBit k h
    rw [hc]
    exact hr.symm
  · obtain ⟨hc, hr⟩ := frameCrc_prefixBit k hk h
    rw [hr]
    exact fun h0 => absurd (h0 ▸ hc) (by decide)

/-- Settles O23: the two lists of single-bit errors, none of them consistent. -/
theorem singleBitFlipRejected : Obligations.SingleBitFlipRejected :=
  ⟨fun k h hk => (frameCrc_prefixBit k hk h).1, ⟨51, by decide, by decide, by decide +kernel⟩,
    fun _ _ hk hf => frameValid_xor_eq_false hf (frameCrc_bit_ne_receivedCrc hk)⟩

/-! ### Prefixes -/

theorem crcRounds_add (m n : ℕ) (c : BitVec 16) : crcRounds (m + n) c = crcRounds m (crcRounds n c) := by
  simp only [crcRounds_eq_iterate, Function.iterate_add_apply]

/-- Rounds that bring no 1 to bit 15 only shift. -/
theorem crcRounds_eq_shiftLeft {n : ℕ} {c : BitVec 16} (h : ∀ i, 16 ≤ i + n → c.getLsbD i = false) :
    crcRounds n c = c <<< n := by
  induction n generalizing c with
  | zero => exact (BitVec.shiftLeft_zero c).symm
  | succ n ih =>
    have hround : crcRound c = c <<< 1 := if_neg (Bool.eq_false_iff.mp (h 15 (by omega)))
    rw [crcRounds, hround, ih fun i hi => ?_, ← BitVec.shiftLeft_add, Nat.add_comm]
    rw [BitVec.getLsbD_shiftLeft, h (i - 1) (by omega), Bool.and_false]

/-- Eight rounds bring a low byte to the high half. -/
theorem crcRounds_zero_append (b : Byte) : crcRounds 8 (0#8 ++ b) = b ++ 0#8 := by
  have hhigh : ∀ i, 16 ≤ i + 8 → BitVec.getLsbD (w := 16) (0#8 ++ b) i = false := fun i hi =>
    BitVec.getLsbD_append.trans ((if_neg (by omega)).trans BitVec.getLsbD_zero)
  have hlow : BitVec.toNat (w := 16) (0#8 ++ b) = b.toNat :=
    (BitVec.toNat_append 0#8 b).trans (by rw [BitVec.toNat_zero, Nat.zero_shiftLeft, Nat.zero_or])
  apply BitVec.eq_of_toNat_eq
  rw [crcRounds_eq_shiftLeft hhigh, BitVec.toNat_shiftLeft, hlow, append_zero_toNat, Nat.shiftLeft_eq]
  omega

/-- Two byte steps are 16 rounds, with both bytes XORed in before them. -/
theorem crcStep_crcStep (c : BitVec 16) (a b : Byte) : crcStep (crcStep c a) b = crcRounds 16 (c ^^^ (a ++ b)) := by
  have hsplit : a ++ b = (a ++ 0#8) ^^^ (0#8 ++ b) := by
    refine Eq.trans ?_ BitVec.xor_append.symm
    rw [BitVec.xor_zero, BitVec.zero_xor]
  rw [hsplit, ← BitVec.xor_assoc, crcRounds_add 8 8, crcRounds_xor 8 _ (0#8 ++ b), crcRounds_zero_append]
  rfl

/-- R40: bytes 0 to 5 of a frame written as these six and a received checksum. -/
theorem frameByte_append (p : BitVec 48) (t : BitVec 16) {k : Fin 8} (hk : k.val < 6) :
    frameByte (p ++ t) k = p.extractLsb' (40 - 8 * k.val) 8 := by
  refine (extract_append_high p t _ _ (by omega)).trans ?_
  rw [show 56 - 8 * k.val - 16 = 40 - 8 * k.val by omega]

/-- R81: the checksum does not depend on bytes 6 and 7. -/
theorem frameCrc_append (p : BitVec 48) (t : BitVec 16) : frameCrc (p ++ t) = frameCrc (p ++ 0#16) := by
  refine congrArg (crcFold crcInit) (List.map_congr_left (l := [0, 1, 2, 3, 4, 5]) fun k hk => ?_)
  have hlt : ∀ k ∈ ([0, 1, 2, 3, 4, 5] : List (Fin 8)), k.val < 6 := by decide
  rw [frameByte_append p t (hlt k hk), frameByte_append p 0#16 (hlt k hk)]

theorem receivedCrc_append (p : BitVec 48) (t : BitVec 16) : receivedCrc (p ++ t) = t := by
  have h : receivedCrc (p ++ t) = (p ++ t).extractLsb' 0 (8 + 8) :=
    BitVec.extractLsb'_append_extractLsb'_eq_extractLsb' (start₁ := 0) (by rfl)
  exact h.trans ((extract_append_low p t 0 16 (by decide)).trans BitVec.extractLsb'_eq_self)

/-- R81: the last two byte steps as one, of the register that bytes 0 to 3 leave. -/
theorem frameCrc_eq_crcRounds (f : Frame) : frameCrc f =
    crcRounds 16 (crcFold crcInit ([0, 1, 2, 3].map (frameByte f)) ^^^ (frameByte f 4 ++ frameByte f 5)) :=
  crcStep_crcStep _ _ _

/-- R40: bytes 0 to 3 of a frame written as these four, bytes 4 and 5, and a received checksum. -/
theorem frameByte_append_append (a : BitVec 32) (q t : BitVec 16) {k : Fin 8} (hk : k.val < 4) :
    frameByte (a ++ q ++ t) k = a.extractLsb' (24 - 8 * k.val) 8 := by
  rw [frameByte_append (a ++ q) t (by omega), extract_append_high a q _ _ (by omega),
    show 40 - 8 * k.val - 16 = 24 - 8 * k.val by omega]

theorem frameByte_four_five_append (a : BitVec 32) (q t : BitVec 16) :
    frameByte (a ++ q ++ t) 4 ++ frameByte (a ++ q ++ t) 5 = q := by
  rw [frameByte_append (a ++ q) t (by decide), frameByte_append (a ++ q) t (by decide)]
  refine (BitVec.extractLsb'_append_extractLsb'_eq_extractLsb' (by rfl)).trans ?_
  exact (extract_append_low a q 0 16 (by decide)).trans BitVec.extractLsb'_eq_self

/-- Bytes 4 and 5 enter the checksum by XOR into a register that bytes 0 to 3 decide. -/
theorem frameCrc_append_append (a : BitVec 32) (q : BitVec 16) : frameCrc (a ++ q ++ 0#16) =
    crcRounds 16 (crcFold crcInit ([0, 1, 2, 3].map (frameByte (a ++ 0#16 ++ 0#16))) ^^^ q) := by
  have hhead : ([0, 1, 2, 3] : List (Fin 8)).map (frameByte (a ++ q ++ 0#16)) =
      [0, 1, 2, 3].map (frameByte (a ++ 0#16 ++ 0#16)) := by
    refine List.map_congr_left fun k hk => ?_
    have hlt : ∀ k ∈ ([0, 1, 2, 3] : List (Fin 8)), k.val < 4 := by decide
    rw [frameByte_append_append a q _ (hlt k hk), frameByte_append_append a 0#16 _ (hlt k hk)]
  rw [frameCrc_eq_crcRounds, hhead, frameByte_four_five_append]

/-- R86.3: bytes 0 to 3 leave one choice of bytes 4 and 5 for each checksum. -/
theorem existsUnique_frameCrc_eq (a : BitVec 32) (c : BitVec 16) :
    ∃! q : BitVec 16, frameCrc (a ++ q ++ 0#16) = c := by
  have hinj : Function.Injective fun q : BitVec 16 => frameCrc (a ++ q ++ 0#16) := by
    simp only [frameCrc_append_append]
    exact (crcRounds_injective 16).comp fun _ _ => (BitVec.xor_right_inj _).mp
  exact hinj.bijective_of_finite.existsUnique c

/-- R86.3: the prefixes of a checksum are as many as the values of bytes 0 to 3. -/
theorem card_prefixes (c : BitVec 16) :
    Nat.card (Subtype fun p : BitVec 48 => frameCrc (p ++ 0#16) = c) = 2 ^ 32 := by
  refine (Nat.card_eq_of_bijective (fun p => p.val.extractLsb' 16 32) ?_).trans
    (Nat.card_eq_of_equiv_fin BitVec.equivFin.toEquiv)
  refine (Function.bijective_iff_existsUnique _).mpr fun a => ?_
  obtain ⟨q, hq, huniq⟩ := existsUnique_frameCrc_eq a c
  refine ⟨⟨a ++ q, hq⟩, (extract_append_high a q 16 32 (by decide)).trans BitVec.extractLsb'_eq_self, ?_⟩
  rintro ⟨p, hp⟩ rfl
  have hsplit : p.extractLsb' 16 32 ++ p.extractLsb' 0 16 = p := BitVec.extractLsb'_append_extractLsb'
  refine Subtype.ext (hsplit.symm.trans (congrArg _ (huniq _ ?_)))
  exact (congrArg (fun p : BitVec 48 => frameCrc (p ++ 0#16)) hsplit).trans hp

/-- R83 on a frame written as bytes 0 to 5 and a received checksum. -/
theorem frameValid_append_iff (p : BitVec 48) (q : BitVec 16) :
    frameValid (p ++ q) = true ↔ q = frameCrc (p ++ 0#16) ∧ frameCrc (p ++ 0#16) ≠ 0#16 := by
  rw [frameValid_iff, frameCrc_append, receivedCrc_append, eq_comm]
  exact and_congr_right fun h => by rw [h]

/-- Settles O24: the count, and what a frame needs to be valid, given its bytes 0 to 5. -/
theorem prefixesPerCrc : Obligations.PrefixesPerCrc := ⟨card_prefixes, frameValid_append_iff⟩

/-! ### The two commands -/

/-- R62: the encoding of a command whose row has the opcode `opc` and leaves ARG the bits of `m`. -/
theorem encodedAs_of_instrOf {opc : BitVec 8} {m : Arg} {mk : CmdWord → Frame → Instr} (hm : argMask opc = some m)
    (hi : ∀ w f, instrOf opc (argField w) f = some (mk w f)) :
    EncodedAs (opc ++ 0#8 ++ 0#16) (0xFFFF#16 ++ ~~~m) mk := fun w f hw =>
  decode_of_matches hm hw (hi w f)

theorem zeroExtend_eq_num32 {w : ℕ} (x : BitVec w) : x.zeroExtend 32 = num32 x.toNat := (BitVec.ofNat_toNat 32 x).symm

/-- R85: the pair of checksums as a number. -/
theorem crcPair_eq_num32 (f : Frame) :
    crcPair f = num32 ((byteNat f 6 * 256 + byteNat f 7) * 65536 + (frameCrc f).toNat) := by
  have hnat : (crcPair f).toNat = (byteNat f 6 * 256 + byteNat f 7) * 65536 + (frameCrc f).toNat := by
    rw [crcPair, BitVec.toNat_append, ← Nat.shiftLeft_add_eq_or_of_lt (frameCrc f).isLt, receivedCrc_toNat,
      Nat.shiftLeft_eq]
  rw [← hnat, num32, BitVec.ofNat_toNat, BitVec.setWidth_eq]

/-- R84: CRC_COMPUTE. -/
theorem execCrcCompute_eq (f : Frame) (s : State) : exec (.crcCompute f) s = .next
    { s with
      rsp := packResponse { value := num32 (frameCrc f).toNat, aux := num32 (byteNat f 6 * 256 + byteNat f 7) }
      rspValid := true } := by
  rw [← receivedCrc_toNat, ← zeroExtend_eq_num32, ← zeroExtend_eq_num32]
  rfl

/-- R85: CRC_CHECK. -/
theorem execCrcCheck_eq (f : Frame) (s : State) : exec (.crcCheck f) s = .next
    { s with
      rsp := packResponse
        { status := if ChecksumPasses f then 0#4 else 3#4
          value := if ChecksumPasses f then 1#32 else 0#32
          aux := num32 ((byteNat f 6 * 256 + byteNat f 7) * 65536 + (frameCrc f).toNat) }
      rspValid := true } := by
  rw [← crcPair_eq_num32]
  simp only [exec, execCrcCheck, frameValid_iff]
  split_ifs <;> rfl

/-- R83: the zero guard. -/
theorem frameValid_eq_false_of_frameCrc_eq_zero {f : Frame} (h : frameCrc f = 0#16) : frameValid f = false := by
  refine Bool.eq_false_iff.mpr fun hv => ?_
  obtain ⟨hc, hr⟩ := (frameValid_iff f).mp hv
  exact hr (hc.symm.trans h)

/-- Settles O25: the two rows of the opcode table, the zero guard, and the two answers as numbers. -/
theorem crcCommandResults : Obligations.CrcCommandResults :=
  ⟨encodedAs_of_instrOf (opc := 0x01#8) (m := 0#16) rfl fun _ _ => rfl,
    encodedAs_of_instrOf (opc := 0x02#8) (m := 0#16) rfl fun _ _ => rfl, frameValid_iff,
    fun _ => frameValid_eq_false_of_frameCrc_eq_zero, fun f s => ⟨execCrcCompute_eq f s, execCrcCheck_eq f s⟩⟩

end Sys2Proof.Machine
end

