-- ==== Sys2Proof/Proofs/Header.lean ====
section
/-! PROOFS. Proofs/Header.lean: the three commands that answer a field of byte 0 (spec 41_header.md R100 to R105). -/

namespace Sys2Proof.Machine

theorem batteryLow_toNat (f : Frame) : (batteryLow f).toNat = byteNat f 0 / 8 % 2 := by
  rw [batteryLow_ofNat, BitVec.toNat_ofNat]
  omega

/-- R103: HDR_STATION_ID. -/
theorem execHdrStationId_eq (f : Frame) (s : State) : exec (.hdrStationId f) s = .next
    { s with rsp := packResponse { value := num32 (byteNat f 0 % 8 + 1) }, rspValid := true } := by
  rw [← externalStation_toNat, ← zeroExtend_eq_num32]
  rfl

/-- R104: HDR_BATTERY_LOW. -/
theorem execHdrBatteryLow_eq (f : Frame) (s : State) : exec (.hdrBatteryLow f) s = .next
    { s with rsp := packResponse { value := num32 (byteNat f 0 / 8 % 2) }, rspValid := true } := by
  rw [← batteryLow_toNat, ← zeroExtend_eq_num32]
  rfl

/-- R105: HDR_SENSOR_TYPE. The model looks the nibble up; it finds no type exactly for the unknown ones. -/
theorem execHdrSensorType_eq (f : Frame) (s : State) : exec (.hdrSensorType f) s = .next
    { s with
      rsp := packResponse
        { status := if nibble f ∈ knownNibbles then 0#4 else 5#4, value := num32 (nibble f) }
      rspValid := true } := by
  have hnone := sensorTypeOf_eq_none_iff f
  simp only [exec, execHdrSensorType, sensorNibble_zeroExtend]
  cases ht : sensorTypeOf (sensorNibble f) with
  | none => rw [if_neg (hnone.mp ht)]; rfl
  | some t =>
    have hknown : nibble f ∈ knownNibbles := by
      by_contra h
      exact absurd (hnone.mpr h) (by simp [ht])
    rw [if_pos hknown]
    rfl

/-- Settles O26: the three rows of the opcode table, and the three answers as numbers. -/
theorem headerResults : Obligations.HeaderResults :=
  ⟨encodedAs_of_instrOf (opc := 0x10#8) (m := 0#16) rfl fun _ _ => rfl,
    encodedAs_of_instrOf (opc := 0x11#8) (m := 0#16) rfl fun _ _ => rfl,
    encodedAs_of_instrOf (opc := 0x12#8) (m := 0#16) rfl fun _ _ => rfl,
    fun f s => ⟨execHdrStationId_eq f s, execHdrBatteryLow_eq f s, execHdrSensorType_eq f s⟩⟩

end Sys2Proof.Machine
end

