-- ==== Sys2Proof/Proofs/Fields.lean ====
section
/-! PROOFS. Proofs/Fields.lean: the eleven decoder commands and the range check on raw values (spec 42_field_decoders.md
R120 to R136). -/

namespace Sys2Proof.Machine

/-! ### The template -/

section

variable {x : Field} {f : Frame}

/-- R120: only the decoder of the wind direction, which has no sensor type, has an AUX. -/
theorem fieldAux_of_fieldType {t : SensorType} (ht : fieldType x = some t) (f : Frame) : fieldAux x f = 0#32 := by
  cases x with
  | windDir => cases ht
  | _ => rfl

/-- R120: the answer of a decoder of one sensor type. -/
theorem fieldAnswer_of_fieldType {t : SensorType} (ht : fieldType x = some t) :
    ({ fieldResult x f with status := statusCode (fieldStatus x f) } : Response) =
      typedAnswer (nibbleOf t).toNat f (rangeAnswer (fieldInRange x f) (fieldRaw x f) (fieldFlags x f)) := by
  simp only [fieldAnswer_eq, fieldTypeMatches_eq, ht, decide_eq_true_eq, fieldAux_of_fieldType ht, ite_self]
  rfl

variable {b : Bool} {raw : Int} {flags : BitVec 8}

/-- R120: a decoder of a field present in every frame. -/
theorem execField_of_untyped (ht : fieldType x = none) (hb : fieldInRange x f = b) (hr : fieldRaw x f = raw)
    (hf : fieldFlags x f = flags) (s : State) : execField x f s = .next
      { s with
        rsp := packResponse
          { status := if b then 0#4 else 2#4, value := BitVec.ofInt 32 raw, flags := flags
            aux := if b then fieldAux x f else 0#32 }
        rspValid := true } := by
  have hm : fieldTypeMatches x f = true := by rw [fieldTypeMatches, ht]
  rw [execField_eq, fieldAnswer_eq, if_pos hm, hb, hr, hf]

/-- R120: a decoder of a payload field, whose sensor type has nibble n. -/
theorem execField_of_typed {t : SensorType} {n : ℕ} (ht : fieldType x = some t) (hn : (nibbleOf t).toNat = n)
    (hb : fieldInRange x f = b) (hr : fieldRaw x f = raw) (hf : fieldFlags x f = flags) (s : State) :
    execField x f s = .next
      { s with rsp := packResponse (typedAnswer n f (rangeAnswer b raw flags)), rspValid := true } := by
  rw [execField_eq, fieldAnswer_of_fieldType ht, hn, hb, hr, hf]

end

theorem flagIf_decide (p : Prop) [Decidable p] (flag : BitVec 8) :
    flagIf (decide p) flag = if p then flag else 0#8 := by
  simp [flagIf]

/-! ### Wind speed and direction -/

/-- R123: DEC_WIND_SPEED. -/
theorem execDecWindSpeed_eq (f : Frame) (s : State) : exec (.decWindSpeed f) s = .next
    { s with rsp := packResponse (rangeAnswer (byteNat f 1 ≤ 240) (byteNat f 1) 0#8), rspValid := true } := by
  refine (execField_of_untyped rfl (windSpeed_inRange f) rfl rfl s).trans ?_
  rw [show fieldAux .windSpeed f = 0#32 from rfl, ite_self]
  rfl

theorem fieldFlags_windDir (f : Frame) : fieldFlags .windDir f = if byteNat f 2 = 0 then 0x04#8 else 0#8 := by
  have hz : (frameByte f 2 == 0#8) = decide (byteNat f 2 = 0) := by
    rw [Bool.eq_iff_iff, beq_iff_eq, decide_eq_true_eq, frameByte_eq_iff]
    rfl
  rw [fieldFlags, hz, flagIf_decide]
  rfl

theorem headingNumber_lt {c : ℕ} (hc : c < 256) : headingNumber c < 2 ^ 16 := by
  rw [headingNumber]
  split_ifs <;> omega

/-- R124: the heading word of a code. -/
theorem headingWord_toNat (c : Byte) : (headingWord c).toNat = headingNumber c.toNat := by
  have hw : headingWord c = BitVec.ofNat 16 (headingNumber c.toNat) := by
    rw [headingWord, headingNumber, apply_ite (BitVec.ofNat 16)]
    exact if_congr BitVec.toNat_eq rfl rfl
  rw [hw, BitVec.toNat_ofNat, Nat.mod_eq_of_lt (headingNumber_lt c.isLt)]

/-- R125: DEC_WIND_DIR. -/
theorem execDecWindDir_eq (f : Frame) (s : State) : exec (.decWindDir f) s = .next
    { s with
      rsp := packResponse
        { value := num32 (byteNat f 2), flags := if byteNat f 2 = 0 then 0x04#8 else 0#8
          aux := num32 (headingNumber (byteNat f 2)) }
      rspValid := true } := by
  refine (execField_of_untyped rfl (windDir_inRange f) (raw := byteNat f 2) rfl (fieldFlags_windDir f) s).trans ?_
  have haux : fieldAux .windDir f = num32 (headingNumber (byteNat f 2)) := by
    rw [fieldAux, zeroExtend_eq_num32, headingWord_toNat]
    rfl
  rw [haux, BitVec.ofInt_natCast]
  rfl

/-- Settles O27: the two rows of the opcode table, and the two answers. -/
theorem windDecoderResults : Obligations.WindDecoderResults :=
  ⟨encodedAs_of_instrOf (opc := 0x20#8) (m := 0#16) rfl fun _ _ => rfl,
    encodedAs_of_instrOf (opc := 0x21#8) (m := 0#16) rfl fun _ _ => rfl,
    fun f s => ⟨execDecWindSpeed_eq f s, execDecWindDir_eq f s⟩⟩

/-! ### Payload fields with one extraction and an upper bound -/

theorem rainCounterRaw_eq (f : Frame) : fieldRaw .rainCounter f = (byteNat f 3 % 128 : Nat) :=
  congrArg Nat.cast (and_7F_eq_mod _)

theorem temperatureRaw_eq (f : Frame) :
    fieldRaw .temperature f = ((byteNat f 3 * 256 + byteNat f 4) / 16 : Nat) :=
  congrArg Nat.cast (payload_shift_eq f)

/-- Settles O28: the five rows of the opcode table, and the answers from each field's raw value and range check. -/
theorem plainDecoderResults : Obligations.PlainDecoderResults :=
  ⟨encodedAs_of_instrOf (opc := 0x22#8) (m := 0#16) rfl fun _ _ => rfl,
    encodedAs_of_instrOf (opc := 0x25#8) (m := 0#16) rfl fun _ _ => rfl,
    encodedAs_of_instrOf (opc := 0x26#8) (m := 0#16) rfl fun _ _ => rfl,
    encodedAs_of_instrOf (opc := 0x27#8) (m := 0#16) rfl fun _ _ => rfl,
    encodedAs_of_instrOf (opc := 0x2A#8) (m := 0#16) rfl fun _ _ => rfl,
    fun f s =>
      ⟨execField_of_typed (x := .windGust) rfl rfl (windGust_inRange f) rfl rfl s,
        execField_of_typed (x := .rainCounter) rfl rfl (rainCounter_inRange f) (rainCounterRaw_eq f) rfl s,
        execField_of_typed (x := .temperature) rfl rfl (temperature_inRange f) (temperatureRaw_eq f) rfl s,
        execField_of_typed (x := .humidity) rfl rfl (humidity_inRange f) (humidityRaw_eq f) rfl s,
        execField_of_typed (x := .capVoltage) rfl rfl (capVoltage_inRange f) (capVoltageRaw_eq f) rfl s⟩⟩

/-! ### Rain rate -/

/-- R127: the branches of formula A the other way round. -/
theorem rainARaw_eq_rainANumber (f : Frame) : rainARaw f = rainANumber f := by
  rw [rainARaw_eq, rainANumber, ← ite_not]
  exact if_congr (by omega) rfl rfl

/-- R127, R128: the largest raw value of formula A is below its bound, and the smallest valid one is 11. -/
theorem rainRateA_inRange_rainANumber (f : Frame) : fieldInRange .rainRateA f =
    (decide (0 ≤ rainANumber f) && decide (rainANumber f ≤ 3600) && decide (10 < rainANumber f)) := by
  obtain ⟨-, hmax⟩ := rainARaw_bounds f
  rw [rainRateA_inRange, ← rainARaw_eq_rainANumber, Bool.eq_iff_iff]
  simp only [Bool.and_eq_true, decide_eq_true_eq]
  omega

theorem flagIf_heavyRain (f : Frame) : flagIf (heavyRain f) flagHeavy = heavyBits f := by
  rw [heavyRain_eq, flagIf_decide]
  rfl

/-- Settles O29: the two rows of the opcode table, and the two formulas. -/
theorem rainRateResults : Obligations.RainRateResults :=
  ⟨encodedAs_of_instrOf (opc := 0x23#8) (m := 0#16) rfl fun _ _ => rfl,
    encodedAs_of_instrOf (opc := 0x24#8) (m := 0#16) rfl fun _ _ => rfl,
    fun f s =>
      ⟨execField_of_typed (x := .rainRateA) rfl rfl (rainRateA_inRange_rainANumber f) (rainARaw_eq_rainANumber f)
          (flagIf_heavyRain f) s,
        execField_of_typed (x := .rainRateB) rfl rfl (rainRateB_inRange f) (rainBRaw_eq f)
          (congrArg (flagFormulaB ||| ·) (flagIf_heavyRain f)) s⟩⟩

/-! ### Solar radiation and UV index -/

/-- R134, R135: the answer of a decoder that checks for OFFLINE before it reads its raw value. -/
theorem rangeAnswer_of_offline_or (off p : Prop) [Decidable off] [Decidable p] (n : ℕ) :
    rangeAnswer (decide (off ∨ p)) (if off then 0 else n : ℕ) (flagIf (decide off) flagOffline) =
      if off then { flags := 0x01#8 } else rangeAnswer p n 0#8 := by
  by_cases h : off <;> simp [h, flagIf, flagOffline]

theorem fieldFlags_solar (f : Frame) : fieldFlags .solar f = flagIf (decide (byteNat f 3 = 255)) flagOffline :=
  congrArg (flagIf · flagOffline) (sensorOffline_eq f)

/-- Settles O30: the two rows of the opcode table, and the OFFLINE case of each answer. -/
theorem solarUvResults : Obligations.SolarUvResults := by
  refine ⟨encodedAs_of_instrOf (opc := 0x28#8) (m := 0#16) rfl fun _ _ => rfl,
    encodedAs_of_instrOf (opc := 0x29#8) (m := 0#16) rfl fun _ _ => rfl, fun f s => ⟨?_, ?_⟩⟩
  · refine (execField_of_typed (x := .solar) rfl rfl (solar_inRange f) (solarRaw_eq f) (fieldFlags_solar f) s).trans ?_
    rw [rangeAnswer_of_offline_or]
    rfl
  · refine (execField_of_typed (x := .uv) rfl rfl (uv_inRange f) (uvRaw_eq f) (fieldFlags_solar f) s).trans ?_
    rw [rangeAnswer_of_offline_or, Bool.decide_and]
    rfl

/-! ### The range check -/

section

variable {x : Field} {f : Frame}

/-- R121: the check of the physical value, with its integer form. -/
theorem validOf_iff_of_inRange {p : Prop} [Decidable p] (h : fieldInRange x f = decide p) : validOf x f ↔ p := by
  rw [← decide_eq_true_iff (p := p), ← h]
  rfl

/-- R121: the check of a field without a guard is the check of its bounds. -/
theorem validOf_iff_bounds (hg : fieldGuard x (fieldRaw x f) = true) :
    validOf x f ↔ (fieldRange x).1 ≤ physOf x f ∧ physOf x f ≤ (fieldRange x).2 :=
  (fieldInRange_iff x f).trans (and_iff_left hg)

end

/-- R124, R125: the greatest heading is that of code 255. -/
theorem physOf_windDir_bounds (f : Frame) : 0 ≤ physOf .windDir f ∧ physOf .windDir f ≤ 57423 / 160 := by
  have h255 : (byteNat f 2 : ℚ) ≤ 255 := by exact_mod_cast Nat.le_of_lt_succ (byteNat_lt f 2)
  have h0 : (0 : ℚ) ≤ byteNat f 2 := Nat.cast_nonneg _
  simp only [physOf, fieldPhys, fieldRaw, Int.cast_natCast]
  split_ifs <;> constructor <;> linarith

/-- R129: the greatest raw value of formula B is 3 * 250 + 255, and a heavy rate is a sixteenth of its raw value. -/
theorem physOf_rainRateB_bounds (f : Frame) : 0 ≤ physOf .rainRateB f ∧ physOf .rainRateB f ≤ 1005 := by
  have h3 := byteNat_lt f 3
  have hmax : ((byteNat f 4 / 16 % 4 * 250 + byteNat f 3 : ℕ) : ℚ) ≤ 1005 := by exact_mod_cast (by omega)
  have h0 : (0 : ℚ) ≤ (byteNat f 4 / 16 % 4 * 250 + byteNat f 3 : ℕ) := Nat.cast_nonneg _
  simp only [physOf, fieldPhys, fieldRaw, rainBRaw_eq, Int.cast_natCast]
  split_ifs <;> constructor <;> linarith

/-- R132: no temperature is below 0. -/
theorem physOf_temperature_nonneg (f : Frame) : 0 ≤ physOf .temperature f := by
  simp only [physOf, fieldPhys, temperatureRaw_eq, Int.cast_natCast]
  positivity

/-- R134, R135: the OFFLINE flag of the two decoders that have one. -/
theorem hasFlag_fieldFlags_solar (f : Frame) :
    hasFlag (fieldFlags .solar f) flagOffline = decide (byteNat f 3 = 255) := by
  rw [fieldFlags_solar, hasFlag_offline]

theorem physOf_solar (f : Frame) : physOf .solar f =
    if byteNat f 3 = 255 then 0 else ((fieldRaw .solar f : ℚ) - 4) * 100 / 227 - 311 / 1250 := by
  simp only [physOf, fieldPhys, hasFlag_fieldFlags_solar, decide_eq_true_eq]

theorem physOf_uv (f : Frame) : physOf .uv f =
    if byteNat f 3 = 255 then 0 else ((fieldRaw .uv f : ℚ) - 4) / 200 := by
  simp only [physOf, fieldPhys, show fieldFlags .uv f = fieldFlags .solar f from rfl, hasFlag_fieldFlags_solar,
    decide_eq_true_eq]

/-- R122: the rows of the two fields that can be OFFLINE, where the sensor is online. -/
theorem validOf_solar_uv_of_online {f : Frame} (h : byteNat f 3 ≠ 255) :
    (validOf .solar f ↔ 5 ≤ fieldRaw .solar f) ∧
    (validOf .solar f ↔ 0 ≤ ((fieldRaw .solar f : ℚ) - 4) * 100 / 227 - 311 / 1250 ∧
      ((fieldRaw .solar f : ℚ) - 4) * 100 / 227 - 311 / 1250 ≤ 2000) ∧
    (validOf .uv f ↔ 4 ≤ fieldRaw .uv f ∧ fieldRaw .uv f ≤ 3204) ∧
    (validOf .uv f ↔ 0 ≤ ((fieldRaw .uv f : ℚ) - 4) / 200 ∧ ((fieldRaw .uv f : ℚ) - 4) / 200 ≤ 16) := by
  have hs := validOf_iff_of_inRange (solar_inRange f)
  have hu := validOf_iff_of_inRange (uv_inRange f)
  have hsb := validOf_iff_bounds (x := .solar) (f := f) rfl
  have hub := validOf_iff_bounds (x := .uv) (f := f) rfl
  rw [physOf_solar, if_neg h] at hsb
  rw [physOf_uv, if_neg h] at hub
  refine ⟨hs.trans ?_, hsb, hu.trans ?_, hub⟩
  · rw [solarRaw_eq, if_neg h, or_iff_right h]
    exact_mod_cast Iff.rfl
  · rw [uvRaw_eq, if_neg h, or_iff_right h]
    exact_mod_cast Iff.rfl

/-- R122: an OFFLINE sensor's value is 0 and in range. -/
theorem validOf_solar_uv_of_offline {f : Frame} (h : byteNat f 3 = 255) :
    physOf .solar f = 0 ∧ validOf .solar f ∧ physOf .uv f = 0 ∧ validOf .uv f :=
  ⟨(physOf_solar f).trans (if_pos h), (validOf_iff_of_inRange (solar_inRange f)).mpr (.inl h),
    (physOf_uv f).trans (if_pos h), (validOf_iff_of_inRange (uv_inRange f)).mpr (.inl h)⟩

/-- Settles O31, one row of R122 at a time: each range check in its integer form, and where the row has two bounds, in
the form of R121. -/
theorem rangeCheckOnRaw : Obligations.RangeCheckOnRaw := by
  intro f
  have htemp : validOf .temperature f ↔ fieldRaw .temperature f ≤ 1300 := by
    rw [validOf_iff_of_inRange (temperature_inRange f), temperatureRaw_eq]
    exact_mod_cast Iff.rfl
  have hhum : validOf .humidity f ↔ fieldRaw .humidity f ≤ 1000 := by
    rw [validOf_iff_of_inRange (humidity_inRange f), humidityRaw_eq]
    exact_mod_cast Iff.rfl
  have hcap : validOf .capVoltage f ↔ fieldRaw .capVoltage f ≤ 1000 := by
    rw [validOf_iff_of_inRange (capVoltage_inRange f), capVoltageRaw_eq]
    exact_mod_cast Iff.rfl
  exact ⟨validOf_iff_of_inRange (windSpeed_inRange f), ⟨windDir_inRange f, physOf_windDir_bounds f⟩,
    validOf_iff_of_inRange (windGust_inRange f), validOf_iff_of_inRange (rainRateA_inRange f), rainARaw_bounds f,
    ⟨rainRateB_inRange f, physOf_rainRateB_bounds f⟩, rainCounter_inRange f,
    htemp, validOf_iff_bounds rfl, physOf_temperature_nonneg f, hhum, validOf_iff_bounds rfl,
    validOf_solar_uv_of_online, validOf_solar_uv_of_offline, hcap, validOf_iff_bounds rfl⟩

/-! ### The heading word -/

/-- Settles O32: the heading word of a non-zero code c is 160 times c * 45/32 + 3/10. -/
theorem headingWordExact : Obligations.HeadingWordExact := by
  intro c
  by_cases hc : c = 0#8
  · exact ⟨by rw [hc]; norm_num [headingWord], fun h => absurd hc h⟩
  · have hpos : c.toNat ≠ 0 := fun h => hc (BitVec.eq_of_toNat_eq h)
    have hw : (headingWord c).toNat = 225 * c.toNat + 48 := (headingWord_toNat c).trans (if_neg hpos)
    refine ⟨?_, fun _ => ⟨hw, by omega, by have := c.isLt; omega⟩⟩
    rw [if_neg hc, hw]
    push_cast
    ring

end Sys2Proof.Machine
end

