-- ==== Sys2Proof/Proofs/Payload.lean ====
section
/-! PROOFS. Proofs/Payload.lean: FRAME_PROCESS on a frame whose payload a standalone decoder command decodes too (spec
42_field_decoders.md R137; 45_frame_pipeline.md R204 to R206). -/

namespace Sys2Proof.Machine

open Sys2Proof.Laws

section

variable {f : Frame} {s : State} {i : Instr} {t : SensorType}

/-! ### The dispatched decoder -/

theorem sensorTypeOf_of_nibble (h : nibble f = (nibbleOf t).toNat) : sensorTypeOf (sensorNibble f) = some t :=
  (sensorTypeOf_eq_some_iff _ _).mpr (BitVec.eq_of_toNat_eq ((sensorNibble_toNat f).trans h))

/-- R204: formula B is dispatched exactly when CFG.RAIN_SEL is 1. -/
theorem exec_decRainRate (f : Frame) (s u : State) :
    exec (if s.cfg.getLsbD 3 then .decRainRateB f else .decRainRateA f) u =
      execField (dispatchField .rainSeconds (cfgRainSel s.cfg)) f u := by
  unfold cfgRainSel
  cases s.cfg.getLsbD 3 <;> rfl

/-- R137, R204: the dispatched command is that of the field which the payload stage decodes. -/
theorem exec_of_dispatchedCommand (h : dispatchedCommand f s = some i) :
    ∃ t, sensorTypeOf (sensorNibble f) = some t ∧ nibble f = (nibbleOf t).toNat ∧
      ∀ u, exec i u = execField (dispatchField t (cfgRainSel s.cfg)) f u := by
  suffices ∃ t, nibble f = (nibbleOf t).toNat ∧
      ∀ u, exec i u = execField (dispatchField t (cfgRainSel s.cfg)) f u by
    obtain ⟨t, hn, hx⟩ := this
    exact ⟨t, sensorTypeOf_of_nibble hn, hn, hx⟩
  unfold dispatchedCommand at h
  split at h <;> cases h
  case h_1 hn => exact ⟨.capVoltage, hn, fun _ => rfl⟩
  case h_2 hn => exact ⟨.uvIndex, hn, fun _ => rfl⟩
  case h_3 hn => exact ⟨.rainSeconds, hn, exec_decRainRate f s⟩
  case h_4 hn => exact ⟨.solarRadiation, hn, fun _ => rfl⟩
  case h_5 hn => exact ⟨.outsideTemp, hn, fun _ => rfl⟩
  case h_6 hn => exact ⟨.windGust, hn, fun _ => rfl⟩
  case h_7 hn => exact ⟨.humidity, hn, fun _ => rfl⟩
  case h_8 hn => exact ⟨.rainCount, hn, fun _ => rfl⟩

/-- R120, R204: what a dispatched decoder answers: its type is the frame's, and it has no AUX. -/
theorem fieldAnswer_of_dispatch (ht : sensorTypeOf (sensorNibble f) = some t) (sel : RainSel) :
    ({ fieldResult (dispatchField t sel) f with status := statusCode (fieldStatus (dispatchField t sel) f) } :
      Response) = rangeAnswer (fieldInRange (dispatchField t sel) f) (fieldRaw (dispatchField t sel) f)
        (fieldFlags (dispatchField t sel) f) := by
  rw [fieldAnswer_eq, if_pos (dispatch_typeMatches ht sel), dispatch_aux, ite_self]
  rfl

theorem packResponse_injective : Function.Injective packResponse :=
  Function.LeftInverse.injective unpack_pack

/-- R137: the response of the dispatched command, from the field that the payload stage decodes. -/
theorem response_of_dispatchedCommand {r : Response} (hi : dispatchedCommand f s = some i)
    (hx : exec i s = .next { s with rsp := packResponse r, rspValid := true }) :
    ∃ t, sensorTypeOf (sensorNibble f) = some t ∧ nibble f = (nibbleOf t).toNat ∧
      r = rangeAnswer (fieldInRange (dispatchField t (cfgRainSel s.cfg)) f)
        (fieldRaw (dispatchField t (cfgRainSel s.cfg)) f) (fieldFlags (dispatchField t (cfgRainSel s.cfg)) f) := by
  obtain ⟨t, ht, hn, he⟩ := exec_of_dispatchedCommand hi
  have hstate := Host.Outcome.next.inj (hx.symm.trans ((he s).trans (execField_eq _ f s)))
  exact ⟨t, ht, hn, (packResponse_injective (congrArg State.rsp hstate)).trans (fieldAnswer_of_dispatch ht _)⟩

/-! ### The wind stage -/

/-- R182 to R186: what an observation leaves and gives, in the words of the real-number rule. -/
theorem windObserve_windStep (q : HeadingWord) (s : State) : ∃ w a d, WindStep q s w a d ∧
    windObserve q s = ({ s with win := w, draws := d }, a) := by
  obtain ⟨w, a, d, ho, hd, hw, ha⟩ := windObserve_cases q s
  refine ⟨w, a, d, ?_, ho⟩
  unfold WindStep
  split_ifs at hw ha ⊢
  · exact ⟨hw, ha⟩
  · obtain ⟨n, hn, rfl⟩ := ha
    exact ⟨hw, ⟨n, rfl, meanChoices_lt hn, (mem_meanChoices_iff _ _ _).mp hn⟩, hd⟩

/-- R200, R203: past the gates a frame with a recognized nibble feeds its heading, and then its payload is decoded. -/
theorem frameProcess_payloadStage (hg : ReachesWind f s) (ht : sensorTypeOf (sensorNibble f) = some t) :
    ∃ w a d, WindStep (BitVec.ofNat 16 (headingNumber (byteNat f 2))) s w a d ∧
      exec (.frameProcess f) s = payloadStage f t a { s with win := w, draws := d } := by
  obtain ⟨w, a, d, hstep, ho⟩ := windObserve_windStep (headingWord (frameByte f 2)) s
  obtain ⟨hv, hs, hspeed⟩ := (reachesWind_iff f s).mp hg
  refine ⟨w, a, d, by rwa [← headingWord_ofNat], ?_⟩
  exact (frameProcess_windStage hv hs hspeed).trans (windStage_payload ho ht)

/-- R200, R206: the fields HDR_*, WIND_* and AVG_* as numbers of the frame's bytes. -/
theorem windFields_eq_withWind (f : Frame) (a : Option ℕ) :
    windFields f a = withWind f a { reached := 0b00111#5 } := by
  simp only [windFields, headerFields, externalStation_ofNat, batteryLow_ofNat, sensorNibble_ofNat, headingWord_ofNat,
    frameByte_ofNat f 1]
  cases a <;> rfl

end

/-- Settles O48: the standalone command answers a status other than OK exactly when the field is out of range. -/
theorem payloadRejectedFrame : Obligations.PayloadRejectedFrame := by
  intro f s i r hg hi hx hr
  obtain ⟨t, ht, -, rfl⟩ := response_of_dispatchedCommand hi hx
  have hin : fieldInRange (dispatchField t (cfgRainSel s.cfg)) f = false :=
    Bool.eq_false_iff.mpr fun h => hr (if_pos h)
  obtain ⟨w, a, d, hstep, he⟩ := frameProcess_payloadStage hg ht
  refine ⟨w, a, d, hstep, ?_⟩
  refine he.trans ((payloadStage_rejected (s1 := { s with win := w, draws := d }) ht hin).trans ?_)
  rw [windFields_eq_withWind, hin]
  rfl

/-- Settles O49: the standalone command answers OK exactly when the field is in range. -/
theorem payloadAppliedFrame : Obligations.PayloadAppliedFrame := by
  intro f s i r hg hi hx hr hne
  obtain ⟨t, ht, hn, rfl⟩ := response_of_dispatchedCommand hi hx
  have hin : fieldInRange (dispatchField t (cfgRainSel s.cfg)) f = true :=
    by_contra fun h => absurd ((if_neg h).symm.trans hr) (by decide)
  have hc : t ≠ .rainCount := by
    rintro rfl
    exact hne hn
  obtain ⟨w, a, d, hstep, he⟩ := frameProcess_payloadStage hg ht
  refine ⟨w, a, d, hstep, ?_⟩
  refine he.trans ((payloadStage_applied (s1 := { s with win := w, draws := d }) ht hc hin).trans ?_)
  rw [windFields_eq_withWind]

end Sys2Proof.Machine
end

