-- ==== Sys2Proof/Proofs/Rain.lean ====
section
/-! PROOFS. Proofs/Rain.lean: the rain accumulator (spec 43_rain_accumulator.md R160 to R164), its observation inside
FRAME_PROCESS (45_frame_pipeline.md R204, R206), and the three commands that only report state. -/

namespace Sys2Proof.Machine

/-! ### The tips of an observation -/

section

variable {r : RainState}

theorem tipsNumber_unprimed (h : r.primed = false) (c : BitVec 7) : tipsNumber c r = 0 := if_pos h

theorem tipsNumber_baseline (r : RainState) : tipsNumber r.baseline r = 0 := by
  rw [tipsNumber, if_pos rfl, ite_self]

/-- R160, R162: the three cases of a primed observation are one difference of 7-bit words, with its wrap. -/
theorem tipsNumber_primed (h : r.primed = true) (c : BitVec 7) : tipsNumber c r = (c - r.baseline).toNat := by
  by_cases hc : c = r.baseline
  · rw [hc, tipsNumber_baseline, BitVec.sub_self, BitVec.toNat_zero]
  · rw [tipsNumber, if_neg (by simp [h]), if_neg hc, BitVec.toNat_sub]
    have := c.isLt
    have := r.baseline.isLt
    split_ifs <;> omega

/-- R160: the tips that `rain_observe` counts. -/
theorem rainObserve_tips_toNat (c : BitVec 7) (r : RainState) : (rainObserve c r).2.1.toNat = tipsNumber c r := by
  cases h : r.primed
  · rw [rainObserve_unprimed h, tipsNumber_unprimed h, BitVec.toNat_zero]
  · rw [rainObserve_primed h, tipsNumber_primed h]

/-- R160: the field RAIN_TIPS holds every count of tips. -/
theorem rainObserve_tips_ofNat (c : BitVec 7) (r : RainState) :
    (rainObserve c r).2.1 = BitVec.ofNat 7 (tipsNumber c r) := by
  rw [← rainObserve_tips_toNat, BitVec.ofNat_toNat, BitVec.setWidth_eq]

end

/-- Settles O35: a primed observation counts the difference of the two 7-bit words, which is 0 only for equal words. -/
theorem rainTipsModulo128 : Obligations.RainTipsModulo128 := by
  refine fun c r => ⟨fun h => ?_, fun h hc => ?_, fun h => by rw [rainObserve_unprimed h]⟩
  · rw [rainObserve_primed h, BitVec.toNat_sub]
    have := r.baseline.isLt
    omega
  · have hne : (c - r.baseline).toNat ≠ 0 := fun h0 =>
      hc (sub_eq_zero.mp (BitVec.eq_of_toNat_eq h0))
    rw [rainObserve_primed h]
    exact ⟨Nat.one_le_iff_ne_zero.mpr hne, Nat.le_of_lt_succ (c - r.baseline).isLt⟩

/-! ### RAIN_OBSERVE -/

/-- R163: FIRST on the first observation, PRIMED on every one. -/
theorem flagFirst_or_flagPrimed : ∀ primed : Bool,
    flagIf (!primed) flagFirst ||| flagIf true flagPrimed = if primed then 0x20#8 else 0x28#8 := by
  decide

/-- R163: RAIN_OBSERVE. -/
theorem execRainObserve_eq (c : BitVec 7) (s : State) : exec (.rainObserve c) s = .next
    { s with
      rain := ⟨true, c⟩
      rsp := packResponse
        { value := num32 (tipsNumber c s.rain), aux := num32 c.toNat
          flags := if s.rain.primed then 0x20#8 else 0x28#8 }
      rspValid := true } := by
  simp only [exec, execRainObserve, rainObserve_state, rainObserve_first, flagFirst_or_flagPrimed, zeroExtend_eq_num32,
    rainObserve_tips_toNat]
  rfl

/-- R160: the inches of an observation. -/
theorem rainObserveInches_eq (c : BitVec 7) (r : RainState) :
    rainObserveInches c r = (tipsNumber c r : ℚ) / 100 := by
  rw [rainObserveInches, rainDeltaInches, rainObserve_tips_toNat, rainTip, mul_one_div]

/-- Settles O33: the row of the opcode table, the next state, and the inches. -/
theorem rainObserveResult : Obligations.RainObserveResult :=
  ⟨encodedAs_of_instrOf (opc := 0x30#8) (m := 0x7F#16) rfl fun w _ =>
      congrArg (fun c => some (Instr.rainObserve c)) (argField_parts w).1,
    fun c s => ⟨execRainObserve_eq c s, rainObserveInches_eq c s.rain⟩⟩

/-- R161: a primed observation of the baseline. -/
theorem execRainObserve_baseline {s : State} (h : s.rain.primed = true) : exec (.rainObserve s.rain.baseline) s = .next
    { s with
      rsp := packResponse { aux := num32 s.rain.baseline.toNat, flags := 0x20#8 }, rspValid := true } := by
  have hrain : (⟨true, s.rain.baseline⟩ : RainState) = s.rain := by rw [← h]
  rw [execRainObserve_eq, hrain, tipsNumber_baseline, if_pos h]
  rfl

/-- Settles O34: the observation of the baseline, and R45's law of a repeated observation. -/
theorem rainRepeatIsNoOp : Obligations.RainRepeatIsNoOp :=
  fun _ _ => ⟨fun h hc => hc ▸ execRainObserve_baseline h, fun _ => execRainObserve_again⟩

/-! ### A rain-counter frame -/

/-- Settles O50: past the gates the payload stage decodes the counter and observes it; the wind stage left RAIN as it
was. -/
theorem rainCounterFrame : Obligations.RainCounterFrame := by
  intro f s hg hn
  have ht : sensorTypeOf (sensorNibble f) = some .rainCount := sensorTypeOf_of_nibble hn
  obtain ⟨w, a, d, hstep, he⟩ := frameProcess_payloadStage hg ht
  refine ⟨w, a, d, hstep, he.trans ((payloadStage_rainCount ht).trans ?_)⟩
  rw [rainObserve_state, rainObserve_first, rainObserve_tips_ofNat, windFields_eq_withWind]
  cases s.rain.primed <;> rfl

/-! ### The commands that report state -/

/-- R187, R188: FULL as a condition on the length. -/
theorem fullFlag_eq (w : List HeadingWord) : fullFlag w = if w.length = 30 then 0x40#8 else 0#8 :=
  flagIf_decide (w.length = 30) flagFull

/-- R164: RAIN_STATUS. -/
theorem execRainStatus_eq (s : State) : exec .rainStatus s = .next
    { s with
      rsp := packResponse
        { value := num32 s.rain.baseline.toNat, flags := if s.rain.primed then 0x20#8 else 0#8 }
      rspValid := true } := by
  rw [← zeroExtend_eq_num32]
  rfl

/-- R188: WIND_STATUS. -/
theorem execWindStatus_eq (s : State) : exec .windStatus s = .next
    { s with
      rsp := packResponse { value := num32 s.win.length, flags := if s.win.length = 30 then 0x40#8 else 0#8 }
      rspValid := true } := by
  rw [← fullFlag_eq]
  rfl

/-- R211: CFG_READ. -/
theorem execCfgRead_eq (s : State) : exec .cfgRead s = .next
    { s with rsp := packResponse { value := num32 s.cfg.toNat }, rspValid := true } := by
  rw [← zeroExtend_eq_num32]
  rfl

/-- Settles O36: the three rows of the opcode table, and the three answers. -/
theorem statusCommandResults : Obligations.StatusCommandResults :=
  ⟨encodedAs_of_instrOf (opc := 0x31#8) (m := 0#16) rfl fun _ _ => rfl,
    encodedAs_of_instrOf (opc := 0x41#8) (m := 0#16) rfl fun _ _ => rfl,
    encodedAs_of_instrOf (opc := 0x61#8) (m := 0#16) rfl fun _ _ => rfl,
    fun s => ⟨execRainStatus_eq s, execWindStatus_eq s, execCfgRead_eq s⟩⟩

end Sys2Proof.Machine
end

