-- ==== Sys2Proof/Proofs/WindAverager.lean ====
section
/-! PROOFS. Proofs/WindAverager.lean: the warm-up of the window, and the mean of three kinds of window, from the sum of
its unit vectors (spec 44_wind_averager.md R180, R183, R189). -/

namespace Sys2Proof.Machine

open Sys2Proof.Laws

/-! ### Warm-up -/

/-- R182: the length of the window after an observation. -/
theorem length_observed {w : List HeadingWord} (hl : w.length ≤ 30) (q : HeadingWord) :
    ((if w.length < 30 then w else w.drop 1) ++ [q]).length = min (w.length + 1) 30 := by
  split_ifs <;> simp <;> omega

/-- R26: no command shortens the window or takes it past 30 samples. -/
theorem length_win_exec {i : Instr} {s t : State} (hl : s.win.length ≤ 30) (h : exec i s = .next t) :
    s.win.length ≤ t.win.length ∧ t.win.length ≤ 30 := by
  obtain ⟨r, cfg, rain, w, d, he, -, hw, -⟩ := exec_effect i s
  obtain rfl := Host.Outcome.next.inj (h.symm.trans he)
  exact hw hl

/-- R183, R187: WIND_OBSERVE reports INSUFFICIENT_DATA exactly during the warm-up. -/
theorem windObserve_insufficient_iff {q : HeadingWord} {s t : State} (h : exec (.windObserve q) s = .next t) :
    t.response.status = 6#4 ↔ s.win.length < 30 := by
  obtain ⟨w, a, d, -, -, -, ha, he⟩ := windObserve_effect q s
  obtain rfl := Host.Outcome.next.inj (h.symm.trans he)
  simp only [State.response, unpack_pack]
  split_ifs at ha with hl
  · simp [ha.1, hl]
  · obtain ⟨n, -, rfl⟩ := ha
    simp [hl]

/-- R69, R183: a frame whose heading was fed to the window reports INSUFFICIENT_DATA exactly during the warm-up. -/
theorem frameProcess_fed {f : Frame} {s t : State} (h : exec (.frameProcess f) s = .next t)
    (hfed : t.response.reached.getLsbD 2 = true) :
    t.win = (if s.win.length < 30 then s.win else s.win.drop 1) ++ [headingWord (frameByte f 2)] ∧
    (t.response.avgStatus = 6#4 ↔ s.win.length < 30) := by
  obtain ⟨r, rain, w, d, he, -, -, -, hc⟩ := frameProcess_effect f s
  obtain rfl := Host.Outcome.next.inj (h.symm.trans he)
  simp only [State.response, unpack_pack] at hfed ⊢
  by_cases hg : ReachesWind f s
  · rw [if_pos ((reachesWind_iff f s).mp hg)] at hc
    obtain ⟨-, hw, hs, -⟩ := hc
    exact ⟨hw, hs⟩
  · rw [if_neg (mt (reachesWind_iff f s).mpr hg)] at hc
    obtain ⟨-, -, -, hno⟩ := hc
    exact absurd (hno.symm.trans hfed) (by decide)

/-- Settles O38: the bound for every command, then the length and the report of the two observations. -/
theorem warmUpThirtySamples : Obligations.WarmUpThirtySamples := by
  intro i s t hl h
  obtain ⟨hle, h30⟩ := length_win_exec hl h
  refine ⟨hle, h30, ?_, ?_⟩
  · rintro q rfl
    exact ⟨(windObserve_writes h).1 ▸ length_observed hl q, windObserve_insufficient_iff h⟩
  · rintro f rfl hfed
    obtain ⟨hw, hs⟩ := frameProcess_fed h hfed
    exact ⟨hw ▸ length_observed hl _, hs⟩

/-! ### Unit vectors -/

/-- R180: a full turn less in the heading word is a full turn less in the angle. -/
theorem headingAngle_eq_sub_turn {h : HeadingWord} (hh : 57600 ≤ h.toNat) :
    headingAngle h = headingAngle (h - 57600#16) + 2 * Real.pi := by
  have hn : h.toNat = (h - 57600#16).toNat + 57600 := by bv_omega
  rw [headingAngle, headingAngle, hn]
  push_cast
  ring

/-- Settles O43: sine and cosine do not change by a full turn. -/
theorem headingsPastFullTurn : Obligations.HeadingsPastFullTurn := by
  intro h hh
  rw [headingAngle_eq_sub_turn hh]
  exact ⟨Real.cos_add_two_pi _, Real.sin_add_two_pi _⟩

/-- R181: the unit vector of a heading. -/
noncomputable def unitVector (h : HeadingWord) : ℂ := Complex.exp (headingAngle h * Complex.I)

/-- R184: C and S are the coordinates of the sum of the unit vectors. -/
theorem mk_sumCos_sumSin (w : List HeadingWord) : (⟨sumCos w, sumSin w⟩ : ℂ) = (w.map unitVector).sum := by
  induction w with
  | nil => rfl
  | cons h w ih =>
    rw [List.map_cons, List.sum_cons, ← ih, sumCos_cons, sumSin_cons, unitVector]
    apply Complex.ext
    · simp [Complex.exp_ofReal_mul_I_re]
    · simp [Complex.exp_ofReal_mul_I_im]

theorem resultant_eq_norm_sum (w : List HeadingWord) : resultant w = ‖(w.map unitVector).sum‖ := by
  rw [resultant_eq_norm, mk_sumCos_sumSin]

@[simp] theorem norm_unitVector (h : HeadingWord) : ‖unitVector h‖ = 1 := Complex.norm_exp_ofReal_mul_I _

/-! ### A window that points at a heading -/

section

variable {w : List HeadingWord} {r : ℝ} {h : HeadingWord}

/-- R184: the resultant of a window that points at h. -/
theorem resultant_of_sum_eq (hr : 0 < r) (hw : (w.map unitVector).sum = r * unitVector h) : resultant w = r := by
  rw [resultant_eq_norm_sum, hw, norm_mul, norm_unitVector, mul_one, Complex.norm_of_nonneg hr.le]

/-- R185: the mean angle of a window that points at h is h, up to full turns. -/
theorem meanDegrees_of_sum_eq (hr : 0 < r) (hw : (w.map unitVector).sum = r * unitVector h) :
    ∃ k : ℤ, meanDegrees w = (h.toNat : ℝ) / 160 + (360 * k : ℤ) := by
  obtain ⟨k, hk⟩ := meanDegrees_angle w
  have harg := Complex.arg_mul_cos_add_sin_mul_I_sub hr (headingAngle h)
  rw [← Complex.exp_mul_I, ← unitVector, ← hw, ← mk_sumCos_sumSin, sub_eq_iff_eq_add] at harg
  generalize ⌊(Real.pi - headingAngle h) / (2 * Real.pi)⌋ = m at harg
  refine ⟨k + m, mul_right_cancel₀ Real.pi_ne_zero ?_⟩
  rw [harg, headingAngle] at hk
  push_cast
  linear_combination 180 * hk

/-- R3: the default of both open parameters. -/
@[simp] theorem toleranceValue_zero : toleranceValue Tolerance.zero = 0 := by
  simp [toleranceValue, Tolerance.zero]

/-- R180, R186: n heading units, rounded to a degree. -/
theorem round_div_160 (n : ℕ) : round ((n : ℝ) / 160) = ((n + 80 : ℕ) : ℤ) / 160 := by
  rw [round_eq, show (n : ℝ) / 160 + 1 / 2 = ((n + 80 : ℕ) : ℝ) / (160 : ℕ) by push_cast; ring,
    Int.floor_div_natCast, Int.floor_natCast]
  rfl

/-- R186, with WIND_EPS 0: a mean angle off the half degrees is no tie. -/
theorem not_nearTie_default {k : ℤ} (hd : meanDegrees w = (h.toNat : ℝ) / 160 + (360 * k : ℤ))
    (h80 : h.toNat % 160 ≠ 80) (j : ℤ) : ¬ nearTie WindParams.default w j := by
  intro hj
  have hzero : meanDegrees w - (j + 1 / 2) = 0 := by simpa [nearTie, WindParams.default] using hj
  have hint : (h.toNat : ℤ) + 57600 * k = 160 * j + 80 := by
    rw [hd] at hzero
    push_cast at hzero
    exact_mod_cast (by linarith : (h.toNat : ℝ) + 57600 * k = 160 * j + 80)
  omega

/-- R186, with the default parameters: a window that points at a heading off the half degrees has that heading rounded
as its one mean. -/
theorem meanChoices_default_of_sum_eq (hr : 0 < r) (hw : (w.map unitVector).sum = r * unitVector h)
    (h80 : h.toNat % 160 ≠ 80) : meanChoices WindParams.default w = [(h.toNat + 80) / 160 % 360] := by
  obtain ⟨k, hk⟩ := meanDegrees_of_sum_eq hr hw
  have hR : resultant w = r := resultant_of_sum_eq hr hw
  have hround := round_meanDegrees (hR ▸ hr : 0 < resultant w)
  rw [hk, round_add_intCast, round_div_160] at hround
  have hrmin : toleranceValue WindParams.default.rmin < resultant w := by
    simpa [WindParams.default, hR] using hr
  rw [meanChoices_of_no_tie hrmin (not_nearTie_default hk h80), List.singleton_inj]
  omega

end

/-- R182, R187: on a full window with one admitted mean, WIND_OBSERVE answers it and takes no draw. -/
theorem execWindObserve_of_meanChoices_eq {q : HeadingWord} {s : State} {n : ℕ} (hl : s.win.length = 30)
    (hc : meanChoices s.params (s.win.drop 1 ++ [q]) = [n]) : exec (.windObserve q) s = .next
      { s with
        win := s.win.drop 1 ++ [q]
        rsp := packResponse { value := num32 n, aux := 30#32, flags := 0x40#8 }
        rspValid := true } := by
  have ho := windObserve_of_ge hl.ge q
  rw [windMean_of_eq hc] at ho
  have hlen : (s.win.drop 1 ++ [q]).length = 30 := by simp [hl]
  refine (execWindObserve_of_windObserve ho).trans ?_
  simp only [fullFlag_eq, hlen, if_true, reduceCtorEq, if_false, Option.getD_some]
  rfl

/-! ### The windows of R189 -/

/-- R189.1: copies of one heading point at it. -/
theorem sum_unitVector_replicate (n : ℕ) (h : HeadingWord) :
    ((List.replicate n h).map unitVector).sum = (n : ℝ) * unitVector h := by
  simp

/-- Settles O39: the window stays 30 copies of the heading, and points at it. -/
theorem identicalHeadingsMean : Obligations.IdenticalHeadingsMean := by
  intro h s hp hw h80
  have hkeep : s.win.drop 1 ++ [h] = s.win := by rw [hw]; rfl
  have hsum : (s.win.map unitVector).sum = (30 : ℝ) * unitVector h := by
    rw [hw]
    exact_mod_cast sum_unitVector_replicate 30 h
  have hc := meanChoices_default_of_sum_eq (by norm_num) hsum h80
  have he := execWindObserve_of_meanChoices_eq (q := h) (by rw [hw]; rfl) (by rw [hp, hkeep]; exact hc)
  rwa [hkeep] at he

/-- R189.2: the vectors of 10 and of 350 degrees add up to one at 0 degrees. -/
theorem unitVector_add_symmetric :
    unitVector 1600#16 + unitVector 56000#16 = (2 * Real.cos (Real.pi / 18) : ℝ) * unitVector 0#16 := by
  have h10 : headingAngle 1600#16 = Real.pi / 18 := by
    norm_num [headingAngle]
    ring
  have h350 : headingAngle 56000#16 = -(Real.pi / 18) + 2 * Real.pi := by
    norm_num [headingAngle]
    ring
  have hturn : unitVector 56000#16 = Complex.exp (-(Real.pi / 18 : ℝ) * Complex.I) := by
    rw [unitVector, h350, Complex.ofReal_add, Complex.ofReal_neg, add_mul]
    exact_mod_cast Complex.exp_periodic _
  have h0 : unitVector 0#16 = 1 := by simp [unitVector, headingAngle]
  rw [hturn, h0, unitVector, h10, ← Complex.two_cos, mul_one, Complex.ofReal_mul, Complex.ofReal_cos]
  rfl

/-- Settles O40: the window points at 0 degrees in any order. -/
theorem symmetricHeadingsMean : Obligations.SymmetricHeadingsMean := by
  intro h s hp hl hperm
  have hpi := Real.pi_pos
  have hcos : 0 < Real.cos (Real.pi / 18) := Real.cos_pos_of_mem_Ioo ⟨by linarith, by linarith⟩
  have hsum : ((s.win.drop 1 ++ [h]).map unitVector).sum =
      (15 * (2 * Real.cos (Real.pi / 18)) : ℝ) * unitVector 0#16 := by
    rw [(hperm.map unitVector).sum_eq, List.map_append, List.sum_append, sum_unitVector_replicate,
      sum_unitVector_replicate, ← mul_add, unitVector_add_symmetric]
    push_cast
    ring
  have hc := meanChoices_default_of_sum_eq (by positivity) hsum (by decide)
  exact execWindObserve_of_meanChoices_eq hl (by rw [hp]; exact hc)

/-- R181: the k-th of thirty equally spaced headings has the k-th power of a thirtieth root of unity as its vector. -/
theorem unitVector_ofNat_mul {k : ℕ} (hk : k < 30) : unitVector (BitVec.ofNat 16 (1920 * k)) = zeta 30 ^ k := by
  have hn : (BitVec.ofNat 16 (1920 * k)).toNat = 1920 * k := Nat.mod_eq_of_lt (by omega)
  rw [unitVector, headingAngle, hn, zeta, ← Complex.exp_nat_mul]
  congr 1
  push_cast
  ring

/-- R189.4: thirty equally spaced unit vectors add up to 0, as all thirtieth roots of unity do. -/
theorem sum_unitVector_equallySpaced :
    (((List.range 30).map fun k => BitVec.ofNat 16 (1920 * k)).map unitVector).sum = 0 := by
  have hpow : ∀ k ∈ List.range 30, (unitVector ∘ fun k => BitVec.ofNat 16 (1920 * k)) k = zeta 30 ^ k :=
    fun k hk => unitVector_ofNat_mul (List.mem_range.mp hk)
  have hgeom : ∑ k ∈ Finset.range 30, zeta 30 ^ k = 0 :=
    (zeta_primitive (by norm_num)).geom_sum_eq_zero (by norm_num)
  rw [List.map_map, List.map_congr_left hpow]
  exact hgeom

/-- R186: a resultant of 0 admits every heading, whatever WIND_RMIN is. -/
theorem mem_meanChoices_of_resultant_eq_zero {w : List HeadingWord} (h0 : resultant w = 0) (p : WindParams) (n : ℕ) :
    n ∈ meanChoices p w ↔ n < 360 := by
  refine ⟨meanChoices_lt, fun hn => (mem_meanChoices_iff p w n).mpr (.inl ⟨?_, hn⟩)⟩
  rw [h0, toleranceValue]
  positivity

/-- Settles O41: the resultant is 0 in any order, so every heading is admitted. -/
theorem equallySpacedHeadingsDraw : Obligations.EquallySpacedHeadingsDraw := by
  intro p w hperm
  have h0 : resultant w = 0 := by
    rw [resultant_eq_norm_sum, (hperm.map unitVector).sum_eq, sum_unitVector_equallySpaced, norm_zero]
  exact ⟨h0, fun n => (mem_meanChoices_of_resultant_eq_zero h0 p n).symm⟩

end Sys2Proof.Machine
end

