-- ==== Sys2Proof/Proofs/Frame.lean ====
section
/-! PROOFS. Proofs/Frame.lean: the frames that FRAME_PROCESS stops at a gate or at the sensor nibble, the same frame
issued again, and CFG_WRITE (spec 45_frame_pipeline.md R202, R203, R205, R206, R208, R210). -/

namespace Sys2Proof.Machine

/-! ### The gates -/

/-- R200, R206: the fields HDR_* as numbers of the frame's byte 0. -/
theorem headerFields_eq_withHeader (f : Frame) : headerFields f = withHeader f { reached := 0b00001#5 } := by
  rw [headerFields, externalStation_ofNat, batteryLow_ofNat, sensorNibble_ofNat]
  rfl

/-- Settles O45: the row of the opcode table, and the two gates in the model's order. -/
theorem wholeFrameGates : Obligations.WholeFrameGates := by
  refine ⟨encodedAs_of_instrOf (opc := 0x50#8) (m := 0#16) rfl fun _ _ => rfl,
    fun f s => ⟨fun hc => ?_, fun hc hs => ?_⟩⟩
  · have hv : frameValid f = false := Bool.eq_false_iff.mpr (mt (frameValid_iff f).mp hc)
    rw [← crcPair_eq_num32]
    exact frameProcess_badChecksum hv s
  · refine (frameProcess_foreign ((frameValid_iff f).mpr hc) hs).trans ?_
    rw [headerFields_eq_withHeader]

/-- Settles O46: the model rejects by byte 1 before it feeds the heading. -/
theorem windSpeedGate : Obligations.WindSpeedGate := by
  intro f s hc hs hw
  refine (frameProcess_tooFast ((frameValid_iff f).mpr hc) hs hw).trans ?_
  rw [headerFields_eq_withHeader, zeroExtend_eq_num32]
  rfl

/-! ### Past the gates -/

/-- Settles O47: the wind stage feeds the heading before the nibble is looked up, and keeps the observation's state. -/
theorem unrecognizedNibbleFrame : Obligations.UnrecognizedNibbleFrame := by
  intro f s hg hn
  obtain ⟨w, a, d, hstep, ho⟩ := windObserve_windStep (headingWord (frameByte f 2)) s
  obtain ⟨hv, hs, hspeed⟩ := (reachesWind_iff f s).mp hg
  have ht : sensorTypeOf (sensorNibble f) = none := (sensorTypeOf_eq_none_iff f).mpr hn
  refine ⟨w, a, d, by rwa [← headingWord_ofNat], ?_⟩
  refine (frameProcess_windStage hv hs hspeed).trans ((windStage_unrecognized ho ht).trans ?_)
  rw [windFields_eq_withWind, sensorNibble_zeroExtend]

/-- Settles O52: the second issue meets the same gates with the same CFG, so it feeds the heading exactly when the
first did, and a rain counter it observes is already the baseline. -/
theorem repeatedFrame : Obligations.RepeatedFrame := by
  refine fun f s t u ht hu => ⟨frameProcess_rain_again ht hu, fun hg => ?_, fun hg => ?_⟩
  · exact (frameProcess_writes_of_reachesWind ((reachesWind_again ht).mpr hg) hu).1
  · have hwt := (frameProcess_writes_of_not_reachesWind hg ht).1
    have hwu := (frameProcess_writes_of_not_reachesWind (mt (reachesWind_again ht).mp hg) hu).1
    exact hwu.trans hwt

/-! ### CFG_WRITE -/

/-- R210: CFG holds EXP_STATION plus 8 times RAIN_SEL. -/
theorem cfgOfFields_toNat (e : BitVec 3) (sel : RainSel) :
    (cfgOfFields e sel).toNat = e.toNat + 8 * (rainSelBit sel).toNat := by
  revert e
  cases sel <;> decide

/-- R210: CFG_WRITE. -/
theorem execCfgWrite_eq (e : BitVec 3) (sel : RainSel) (s : State) : exec (.cfgWrite e sel) s = .next
    { s with
      cfg := BitVec.ofNat 16 (e.toNat + 8 * (rainSelBit sel).toNat)
      rsp := packResponse { value := num32 (e.toNat + 8 * (rainSelBit sel).toNat) }
      rspValid := true } := by
  rw [← cfgOfFields_toNat, BitVec.ofNat_toNat, BitVec.setWidth_eq, ← zeroExtend_eq_num32]
  rfl

/-- R63: the operands of CFG_WRITE are bits 2..0 and bit 3 of the command word. -/
theorem instrOf_cfgWrite (w : CmdWord) (f : Frame) : instrOf 0x60#8 (argField w) f =
    some (.cfgWrite (w.extractLsb' 0 3) (if w.getLsbD 3 then .formulaB else .formulaA)) := by
  obtain ⟨-, hexp, hsel⟩ := argField_parts w
  exact congrArg some (congrArg₂ Instr.cfgWrite hexp (congrArg rainSelOfBit hsel))

/-- Settles O53: the row of the opcode table, and the next state for each formula. -/
theorem cfgWriteResult : Obligations.CfgWriteResult :=
  ⟨encodedAs_of_instrOf (opc := 0x60#8) (m := 0xF#16) rfl instrOf_cfgWrite,
    fun e s => ⟨execCfgWrite_eq e .formulaA s, execCfgWrite_eq e .formulaB s⟩⟩

end Sys2Proof.Machine
end

