-- ==== Sys2Proof/Proofs/Exceptions.lean ====
section
/-! PROOFS. Proofs/Exceptions.lean: the statuses a command answers, which cause FRAME_PROCESS reports, what a failing
command leaves, and ILLEGAL_COMMAND (spec 60_exceptions.md R230 to R233). -/

namespace Sys2Proof.Machine

/-! ### The status of an answer -/

/-- A status chosen by a condition is listed when both choices are. -/
theorem toNat_ite_mem {p : Prop} [Decidable p] {a b : BitVec 4} {l : List ℕ} (ha : a.toNat ∈ l) (hb : b.toNat ∈ l) :
    (if p then a else b).toNat ∈ l := by
  split_ifs
  · exact ha
  · exact hb

section

variable {i : Instr} {x : Field} {f : Frame} {s t u : State} {r : Response}

/-- R29, R64: the response read from RSP is the one the command packed. -/
theorem response_of_exec (h : exec i s = .next t) (he : exec i s = .next u) (hu : u.rsp = packResponse r) :
    t.response = r := by
  obtain rfl := Host.Outcome.next.inj (h.symm.trans he)
  rw [State.response, hu, unpack_pack]

/-- R120: the status of a decoder command, from its two checks. -/
theorem status_of_execField (h : execField x f s = .next t) : t.response.status =
    if fieldTypeMatches x f then if fieldInRange x f then 0#4 else 2#4 else 1#4 := by
  obtain rfl := Host.Outcome.next.inj (h.symm.trans (execField_eq x f s))
  rw [State.response, unpack_pack, fieldAnswer_eq]
  split_ifs <;> rfl

/-- R120: every decoder. -/
theorem status_of_execField_mem (h : execField x f s = .next t) : t.response.status.toNat ∈ [0, 1, 2] := by
  rw [status_of_execField h]
  split_ifs <;> decide

/-- R120: a decoder of a field present in every frame has no WRONG_FRAME_TYPE. -/
theorem status_of_execField_of_typeMatches (hm : fieldTypeMatches x f = true) (h : execField x f s = .next t) :
    t.response.status.toNat ∈ [0, 2] := by
  rw [status_of_execField h, if_pos hm]
  exact toNat_ite_mem (by decide) (by decide)

/-- R120: a decoder whose every raw value is in range has no OUT_OF_RANGE. -/
theorem status_of_execField_of_inRange (hr : fieldInRange x f = true) (h : execField x f s = .next t) :
    t.response.status.toNat ∈ [0, 1] := by
  rw [status_of_execField h, if_pos hr]
  exact toNat_ite_mem (by decide) (by decide)

/-- R187: WIND_OBSERVE answers OK or INSUFFICIENT_DATA. -/
theorem status_of_windObserve {q : HeadingWord} (h : exec (.windObserve q) s = .next t) :
    t.response.status.toNat ∈ [0, 6] := by
  obtain ⟨w, a, d, -, he⟩ := execWindObserve_windStep q s
  rw [response_of_exec h he rfl]
  exact toNat_ite_mem (by decide) (by decide)

/-- R206, R233: the status of FRAME_PROCESS, and what a status other than OK leaves. -/
theorem frameProcess_failure (h : exec (.frameProcess f) s = .next t) :
    t.response.status.toNat ∈ [0, 2, 3, 4, 5] ∧ (t.response.status ≠ 0#4 → t.rain = s.rain) ∧
    (t.win ≠ s.win → t.response.reached.getLsbD 2 = true) := by
  obtain ⟨r, rain, w, d, he, -, hst, hrain, hc⟩ := frameProcess_effect f s
  have hkept : t.rain = rain := congrArg State.rain (Host.Outcome.next.inj (h.symm.trans he))
  rw [response_of_exec h he rfl, hkept]
  refine ⟨hst, hrain, fun hw => ?_⟩
  by_cases hg : ReachesWind f s
  · rw [if_pos ((reachesWind_iff f s).mp hg)] at hc
    exact hc.1
  · exact absurd (frameProcess_writes_of_not_reachesWind hg h).1 hw

end

/-- Settles O59, one command at a time. -/
theorem statusesPerCommand : Obligations.StatusesPerCommand := by
  intro i s t h
  cases i with
  | crcCompute | hdrStationId | hdrBatteryLow | rainObserve | rainStatus | windStatus | cfgWrite | cfgRead =>
    rw [response_of_exec h rfl rfl]
    exact .head _
  | crcCheck f =>
    rw [response_of_exec h (execCrcCheck_eq f s) rfl]
    exact toNat_ite_mem (l := [0, 3]) (by decide) (by decide)
  | hdrSensorType f =>
    rw [response_of_exec h (execHdrSensorType_eq f s) rfl]
    exact toNat_ite_mem (l := [0, 5]) (by decide) (by decide)
  | decWindSpeed => exact status_of_execField_of_typeMatches rfl h
  | decWindDir f =>
    rw [status_of_execField (x := .windDir) h, windDir_inRange]
    exact .head _
  | decRainRateB f => exact status_of_execField_of_inRange (rainRateB_inRange f) h
  | decRainCounter f => exact status_of_execField_of_inRange (rainCounter_inRange f) h
  | decWindGust | decRainRateA | decTemperature | decHumidity | decSolar | decUv | decCapVoltage =>
    exact status_of_execField_mem h
  | windObserve => exact status_of_windObserve h
  | frameProcess => exact (frameProcess_failure h).1

/-! ### What a failure leaves -/

/-- R230: a command whose only status is OK does not fail. -/
theorem status_of_statusesOf_eq_zero {i : Instr} {s t : State} (hi : statusesOf i = [0]) (h : exec i s = .next t) :
    t.response.status = 0#4 := by
  have hmem := statusesPerCommand i s t h
  rw [hi, List.mem_singleton] at hmem
  exact BitVec.eq_of_toNat_eq hmem

/-- Settles O58: CFG_WRITE and RAIN_OBSERVE do not fail, and the other two writers keep CFG and RAIN when they do. -/
theorem failureKeepsState : Obligations.FailureKeepsState := by
  intro i s t h hne
  have hcfg : t.cfg = s.cfg := (cfgWritersAndReaders i s t h).1 fun e sel hi =>
    hne (status_of_statusesOf_eq_zero (hi ▸ rfl) h)
  refine ⟨hcfg, ?_⟩
  obtain ⟨hw, hr⟩ | ⟨c, rfl⟩ | ⟨q, rfl⟩ | ⟨f, rfl⟩ := keeps_win_and_rain_or_writer h
  · exact ⟨hr, fun hwin => absurd hw hwin⟩
  · exact absurd (status_of_statusesOf_eq_zero rfl h) hne
  · refine ⟨(windObserve_writes h).2, fun _ => .inl ⟨q, rfl, ?_⟩⟩
    obtain h0 | h6 : t.response.status.toNat = 0 ∨ t.response.status.toNat = 6 := by
      simpa using status_of_windObserve h
    · exact absurd (BitVec.eq_of_toNat_eq h0) hne
    · exact BitVec.eq_of_toNat_eq h6
  · obtain ⟨-, hrain, hwin⟩ := frameProcess_failure h
    exact ⟨hrain hne, fun hw => .inr ⟨f, rfl, hwin hw⟩⟩

/-! ### The first cause -/

section

variable {f : Frame} {s t : State}

/-- R102, R204: a decoder is dispatched for every nibble that has a sensor type. -/
theorem dispatchedCommand_eq_none_iff (f : Frame) (s : State) :
    dispatchedCommand f s = none ↔ nibble f ∉ knownNibbles := by
  unfold dispatchedCommand
  split
  case h_9 => simp_all
  all_goals simp [*]

/-- R137, R232: past the gates FRAME_PROCESS reports the status of the decoder command it dispatches. -/
theorem status_of_dispatchedCommand {i : Instr} {u : State} (hg : ReachesWind f s)
    (hi : dispatchedCommand f s = some i) (hu : exec i s = .next u) (h : exec (.frameProcess f) s = .next t) :
    t.response.status = u.response.status := by
  obtain ⟨x, -, -, he⟩ := exec_of_dispatchedCommand hi
  have hx := (he s).trans (execField_eq _ f s)
  rw [response_of_exec hu hx rfl]
  by_cases hok : statusCode (fieldStatus (dispatchField x (cfgRainSel s.cfg)) f) = 0#4
  · by_cases hn : nibble f = 0xE
    · obtain ⟨w, a, d, -, hf⟩ := rainCounterFrame f s hg hn
      rw [response_of_exec h hf rfl]
      exact hok.symm
    · obtain ⟨w, a, d, -, hf⟩ := payloadAppliedFrame f s i _ hg hi hx hok hn
      rw [response_of_exec h hf rfl]
      exact hok.symm
  · obtain ⟨w, a, d, -, hf⟩ := payloadRejectedFrame f s i _ hg hi hx hok
    rw [response_of_exec h hf rfl]

end

/-- Settles O51, one cause at a time in the order of the rule. -/
theorem causePriority : Obligations.CausePriority := by
  intro f s t h
  obtain ⟨hchecksum, hstation⟩ := wholeFrameGates.2 f s
  refine ⟨fun hc => ?_, fun hc hs => ?_, fun hc hs hw => ?_, fun hg hn => ?_, fun hg i u hi hu => ?_,
    dispatchedCommand_eq_none_iff f s⟩
  · rw [response_of_exec h (hchecksum hc) rfl]
  · rw [response_of_exec h (hstation hc hs) rfl]
  · rw [response_of_exec h (windSpeedGate f s hc hs hw) rfl]
  · obtain ⟨w, a, d, -, he⟩ := unrecognizedNibbleFrame f s hg hn
    rw [response_of_exec h he rfl]
  · exact status_of_dispatchedCommand hg hi hu h

/-! ### ILLEGAL_COMMAND -/

/-- R61, R62: the decoder refuses every word that matches no row. -/
theorem exists_decode_error_of_not_wellFormed {c : Command} (h : c.wellFormed = false) :
    ∃ e, decode c = .error e := by
  cases hd : decode c with
  | error e => exact ⟨e, rfl⟩
  | ok i =>
    obtain ⟨r, hr, hw⟩ := (legalWordsAreTableRows c).1.mp ⟨i, hd⟩
    have hmatch : c.wellFormed = true := List.any_eq_true.mpr ⟨r, hr, beq_iff_eq.mpr hw⟩
    exact absurd (h.symm.trans hmatch) (by decide)

/-- R31, R66: no commit depends on what RSP and RSP_VALID hold before it. -/
theorem commitCommand_of_response (d : Command) (s : State) (w : RspWord) (v : Bool) :
    commitCommand d { s with rsp := w, rspValid := v } = commitCommand d s := by
  cases hd : decode d with
  | error e => rw [commitCommand_of_error hd, commitCommand_of_error hd]
  | ok i =>
    obtain ⟨t, ht⟩ := exists_exec_eq_next i { s with executing := none }
    obtain ⟨-, -, hin⟩ := ports_of_exec ht
    rw [commitCommand_of_decode hd, commitCommand_of_decode hd, ht]
    refine (responseRegisterNotRead i _ t w v s.inputs ht).trans ?_
    rw [← show t.inputs = s.inputs from hin]

/-- Settles O11: the decoder refuses the word, and all its answer leaves is RSP and RSP_VALID. -/
theorem illegalCommandAnswer : Obligations.IllegalCommandAnswer := by
  intro s c he hr hc
  obtain ⟨e, hd⟩ := exists_decode_error_of_not_wellFormed hc
  exact ⟨(step_of_executing hr he).trans (commitCommand_of_error hd _),
    fun d => commitCommand_of_response d { s with executing := some d } 7#144 false⟩

end Sys2Proof.Machine
end

