-- ==== Sys2Proof/Proofs/Reset.lean ====
section
/-! PROOFS. Proofs/Reset.lean: a step with rst high (spec 70_reset_and_hazards.md R260, R261). -/

namespace Sys2Proof.Machine

/-- R260, R261: rst comes before the executing command and the other ports. -/
theorem step_of_rst {s : State} (hr : (sampleNow s).rst = true) : step s = .next (resetBlock (dropSample s)) :=
  if_pos hr

/-- R29, R262: a block just reset takes a command. -/
theorem cmdReady_resetBlock (s : State) : cmdReady (resetBlock s) = true :=
  (cmdReady_iff _).mpr ⟨resetBlock_executing s, resetBlock_rspValid s⟩

/-- Settles O12: the step answers the reset block, which keeps no state element of the state it is reached from. -/
theorem resetFromAnyState : Obligations.ResetFromAnyState := by
  intro s hr
  have hrain := resetBlock_rain (dropSample s)
  exact ⟨resetBlock (dropSample s), step_of_rst hr, resetBlock_cfg _, congrArg RainState.primed hrain,
    congrArg RainState.baseline hrain, resetBlock_win _, resetBlock_rspValid _, resetBlock_executing _,
    cmdReady_resetBlock _⟩

end Sys2Proof.Machine
end
